-- ==== Sys2Proof/Word.lean ====
section
/-! DEFINITION. The words of the block (00_scope.md R5, R6; 10_state.md R21, R41 to R44): registers of 32 bits, and buffer
elements of 8 bits (bytes), 1 bit (bits) and 16 bits (samples, signed two's complement: R7). -/

namespace Sys2Proof

/-- A host-visible register's value (XLEN = 32, R5). -/
abbrev Word := BitVec 32

/-- An element of BYTEBUF or FILEBUF (R41, R44). -/
abbrev Byte := BitVec 8

/-- An element of BITBUF (R42): 1 is the source's true. -/
abbrev Bit := BitVec 1

/-- An element of SAMPBUF (R43): the 16-bit pattern of the sample; its value is `toInt` (`s16` of R7). -/
abbrev Sample := BitVec 16

end Sys2Proof
end

