-- ==== Sys2Proof/Syntax.lean ====
section
/-! DEFINITION. The commands of the block (30_encoding.md R91): its instructions. Every operand is implicit (R92), so no
constructor has a field. -/

namespace Sys2Proof

/-- One constructor per row of spec/opcode_table.json. -/
inductive Instr where
  /-- No operation (47_control_commands.md R235). -/
  | nop
  /-- Bit Extractor: bytes to bits (41_bit_extractor.md R140). -/
  | bitx
  /-- BPSK Modulator: bits to samples (42_modulator.md R150). -/
  | mod
  /-- Container Writer: samples to a container image (43_container_writer.md R170). -/
  | wavwr
  /-- Container Reader: a container image to samples (44_container_reader.md R180). -/
  | wavrd
  /-- BPSK Demodulator: samples to bits (45_demodulator.md R200). -/
  | demod
  /-- Bit Packer: bits to bytes (46_bit_packer.md R220). -/
  | pack
  deriving DecidableEq, Repr

end Sys2Proof
end

