-- ==== Sys2Proof/WellFormed.lean ====
section
/-! DEFINITION. Well-formedness. A command has no operand (30_encoding.md R92), so every term of Instr is well formed; the
checks that can fail are those of R90 and R93 on a command word. -/

namespace Sys2Proof

/-- Every command is well formed: there is no field to check (R92). -/
def Instr.wellFormed : Instr → Bool
  | .nop | .bitx | .mod | .wavwr | .wavrd | .demod | .pack => true

/-- The field `zero`, bits 31:4, is 0 (R90). -/
def zeroFieldOk (w : Word) : Bool := w.extractLsb' 4 28 == 0

/-- The field `op`, bits 3:0, is one of the seven opcodes (R91). -/
def opcodeOk (w : Word) : Bool := decide ((w.extractLsb' 0 4).toNat < 7)

/-- A word encodes a command (R93). -/
def commandWordOk (w : Word) : Bool := zeroFieldOk w && opcodeOk w

end Sys2Proof
end

