-- ==== Sys2Proof/Decode.lean ====
section
/-! DEFINITION. The command decoder and encoder (30_encoding.md R90 to R94). -/

namespace Sys2Proof

/-- Why a word selects no command (R93): both are `IllegalCommand` to the block. -/
inductive DecodeError where
  /-- Some bit of 31:4 is set, whatever the opcode. -/
  | zeroFieldSet
  /-- The opcode is one of the reserved 7 to 15. -/
  | reservedOpcode
  deriving DecidableEq, Repr

/-- The field `op` of R90, bits 3:0. -/
def opField (w : Word) : BitVec 4 := w.extractLsb' 0 4

/-- The field `zero` of R90, bits 31:4. -/
def zeroField (w : Word) : BitVec 28 := w.extractLsb' 4 28

/-- The opcode map of R91. -/
def decodeOp (op : BitVec 4) : Option Instr :=
  match op.toNat with
  | 0 => some .nop
  | 1 => some .bitx
  | 2 => some .mod
  | 3 => some .wavwr
  | 4 => some .wavrd
  | 5 => some .demod
  | 6 => some .pack
  | _ => none

/-- The decoder of R91: a command, or the reason why the word is illegal. -/
def decode (w : Word) : Except DecodeError Instr :=
  if zeroField w = 0 then
    match decodeOp (opField w) with
    | some i => .ok i
    | none => .error .reservedOpcode
  else .error .zeroFieldSet

/-- The opcode of a command (R91). -/
def opcode : Instr → BitVec 4
  | .nop => 0
  | .bitx => 1
  | .mod => 2
  | .wavwr => 3
  | .wavrd => 4
  | .demod => 5
  | .pack => 6

/-- The word of a command (R90): the opcode in bits 3:0 and 0 above. -/
def encode (i : Instr) : Word := (0 : BitVec 28) ++ opcode i

/-- The command word of an opcode-table word. A command is one 32-bit word (R94), so bits above the 32nd are no part of one:
a longer number is no command word. -/
def tableWord (nbits w : Nat) : Option Word :=
  let v := w % 2 ^ nbits
  if v < 2 ^ 32 then some (BitVec.ofNat 32 v) else none

/-- What the decoder reads from an opcode-table word. -/
def decodeTableWord (nbits w : Nat) : Option Instr :=
  match tableWord nbits w with
  | some v =>
    match decode v with
    | .ok i => some i
    | .error _ => none
  | none => none

end Sys2Proof
end

