-- ==== Sys2Proof/Config.lean ====
section
/-! DEFINITION. What an instance of the block fixes (00_scope.md R5, R11): the four capacities and the numerics record NUM,
with NUM's normative ideal instance (40_numerics.md R120) as the reference the signal path's results are stated against;
and the model's one free value. -/

namespace Sys2Proof

/-- The capacities of the four buffers, OPEN in R5 within the bounds the types carry. State holds them in a field no step
changes, so that what is stated for every state is stated for every instance. Log entry 1. -/
structure Capacities where
  /-- CAP_BYTES, at most 2^32 - 1. -/
  bytes : Fin (2 ^ 32)
  /-- CAP_BITS, at most 2^32 - 1. -/
  bits : Fin (2 ^ 32)
  /-- CAP_SAMPLES, at most 2^30 - 1. -/
  samples : Fin (2 ^ 30)
  /-- CAP_FILE, at most 2^32 - 1. -/
  file : Fin (2 ^ 32)
  deriving DecidableEq, Repr

namespace Config

/-- The capacities State.reset carries: the greatest R5 allows. DESIGN CHOICE, unsafe: R5 leaves them OPEN. Log entry 1. -/
def resetCapacities : Capacities := ⟨4294967295, 4294967295, 1073741823, 4294967295⟩

/-- The words the access port returns where R35 makes them arbitrary: one for each such read. A FREE VALUE: no body, so
nothing can be proved of it. Log entry 4. -/
opaque portDraw : Nat → Word

end Config

/-- `trunc x` of R7: the integer part toward zero. -/
noncomputable def realTrunc (x : ℝ) : ℤ := if 0 ≤ x then ⌊x⌋ else -⌊-x⌋

/-- The numerics record NUM of R120. The model computes with the ideal instance; the record stands here so that its
results can be stated in the spec's own terms. Log entry 5. -/
structure Num where
  /-- `NUM.carr(fs, f0, idx)`, the carrier value. -/
  carr : ℕ → ℕ → ℕ → ℝ
  /-- `NUM.scale(a, c)`, the scaled sample for the amplitude `a` (+1 or -1). -/
  scale : ℤ → ℝ → ℝ
  /-- `NUM.mul(s, c)`, the mixer's product. -/
  mul : ℤ → ℝ → ℝ
  /-- `NUM.acc(list)`, the window sum. -/
  acc : List ℝ → ℝ

namespace Num

/-- The ideal instance of R120, normative for the spec: every field exact over the reals. -/
noncomputable def ideal : Num where
  carr fs f0 idx := Real.cos (2 * Real.pi * f0 * idx / fs)
  scale a c := 32767 * a * c
  mul s c := s * c
  acc l := l.sum

/-- The properties P1 to P5 of R133. P2 (functional) holds of every record: its fields are functions. -/
structure Admissible (N : Num) : Prop where
  /-- P1, the carrier's bound. -/
  carr_bounded : ∀ fs f0 idx, 1 ≤ fs → -1 ≤ N.carr fs f0 idx ∧ N.carr fs f0 idx ≤ 1
  /-- P1, the scaled sample's bound. -/
  scale_bounded : ∀ a c, (a = 1 ∨ a = -1) → |c| ≤ 1 → |N.scale a c| ≤ 32767
  /-- P3 for scale. -/
  scale_odd : ∀ c, N.scale (-1) c = -N.scale 1 c
  /-- P3 for mul in its first argument. -/
  mul_neg_left : ∀ s c, N.mul (-s) c = -N.mul s c
  /-- P3 for mul in its second argument. -/
  mul_neg_right : ∀ s c, N.mul s (-c) = -N.mul s c
  /-- P3, the zeros of mul. -/
  mul_zero : ∀ s c, N.mul 0 c = 0 ∧ N.mul s 0 = 0
  /-- P4, the sign of the product. -/
  mul_sign : ∀ (s : ℤ) c, (0 < N.mul s c ↔ 0 < (s : ℝ) * c) ∧ (N.mul s c < 0 ↔ (s : ℝ) * c < 0)
  /-- P5 for terms that are not negative. -/
  acc_nonneg : ∀ l, (∀ x ∈ l, 0 ≤ x) → 0 ≤ N.acc l ∧ (0 < N.acc l ↔ ∃ x ∈ l, 0 < x)
  /-- P5 for terms that are not positive. -/
  acc_nonpos : ∀ l, (∀ x ∈ l, x ≤ 0) → N.acc l ≤ 0 ∧ (N.acc l < 0 ↔ ∃ x ∈ l, x < 0)
  /-- P5, the empty list. -/
  acc_nil : N.acc [] = 0

/-- The amplitude of a bit (R124): +1 for a 1, -1 for a 0. -/
def amp (b : Bit) : ℤ := if b = 1 then 1 else -1

/-- The quantized sample of a bit at an absolute sample index (R125): `trunc (NUM.scale (amp b) (NUM.carr fs f0 idx))`. -/
noncomputable def quantized (N : Num) (fs f0 idx : ℕ) (b : Bit) : ℤ :=
  realTrunc (N.scale (amp b) (N.carr fs f0 idx))

/-- The products of a window's samples with the carrier, from the absolute sample index `idx` on (R129). -/
noncomputable def products (N : Num) (fs f0 : ℕ) : (idx : ℕ) → List Sample → List ℝ
  | _, [] => []
  | idx, s :: ss => N.mul s.toInt (N.carr fs f0 idx) :: products N fs f0 (idx + 1) ss

/-- The window sum of R130. -/
noncomputable def windowSum (N : Num) (fs f0 idx : ℕ) (window : List Sample) : ℝ := N.acc (N.products fs f0 idx window)

end Num

end Sys2Proof
end

