-- ==== Sys2Proof/Machine/State.lean ====
section
/-! DEFINITION. The state of the block (10_state.md R20), the host's actions, and the reasons a step can stop. -/

namespace Sys2Proof.Machine

/-- The error kinds of `STATUS.ERR` (R23; 60_exceptions.md R260): codes 0 to 5. A type of its own, so that the values 6 to 15,
which never occur (R23), do not exist. Log entry 10. -/
inductive ErrKind where
  /-- 0: no fault since reset. -/
  | none
  /-- 1: the input buffer is not valid or holds no value below its length (R261). -/
  | ioError
  /-- 2: the output is longer than its buffer's capacity (R262). -/
  | allocationError
  /-- 3: WAVRD's declared size is not positive, or the image is too short (R263). -/
  | malformedContainer
  /-- 4: a word that encodes no command (R264). -/
  | illegalCommand
  /-- 5: MOD or DEMOD with `BAUD = 0` or `FS div BAUD = 0` (R265). -/
  | invalidParameter
  deriving DecidableEq, Repr

/-- The four buffers, in the order of their indices 0 to 3 (R33). -/
inductive BufId where
  /-- 0: BYTEBUF (R41). -/
  | byte
  /-- 1: BITBUF (R42). -/
  | bit
  /-- 2: SAMPBUF (R43). -/
  | samp
  /-- 3: FILEBUF (R44). -/
  | file
  deriving DecidableEq, Repr

/-- STATUS (R23). Its reserved bits 3 and 31:8 read 0 and are not stored. -/
structure Status where
  /-- Bit 0: a command is executing. Commands are atomic, so it is 0 in every reachable state. Log entry 7. -/
  busy : Bool
  /-- Bit 1: the most recent accepted command finished without a fault. -/
  done : Bool
  /-- Bit 2: a fault has happened since reset. -/
  halt : Bool
  /-- Bits 7:4: the kind of that fault. -/
  err : ErrKind
  deriving DecidableEq, Repr

/-- VALID (R32). Its reserved bits 31:4 read 0, writes to them are ignored, and they are not stored. -/
structure Valid where
  /-- Bit 0, BYTE_V. -/
  byteV : Bool
  /-- Bit 1, BIT_V. -/
  bitV : Bool
  /-- Bit 2, SAMP_V. -/
  sampV : Bool
  /-- Bit 3, FILE_V. -/
  fileV : Bool
  deriving DecidableEq, Repr

/-- A buffer of elements of `w` bits: (index, element) pairs, indices strictly rising; an index that is not listed holds no
value (R45). For bytes this is a list of `Host.Cell`. Log entry 11. -/
abbrev Buf (w : Nat) := List (Nat × BitVec w)

/-- What the host can do (10_state.md R21, R22, R35; 20_memory.md R64; 70_reset_and_hazards.md R300, R316). -/
inductive HostAction where
  /-- A write of a 32-bit word at a byte offset of the register window; at 0x00 it issues a command (R22). -/
  | write (offset : Nat) (value : Word)
  /-- A read of a 32-bit word at a byte offset of the register window. -/
  | read (offset : Nat)
  /-- An access of a width other than 32 bits, outside the interface (R64). -/
  | otherWidth (offset bits : Nat)
  /-- Asserting the reset input `rst` (R300). -/
  | rst
  deriving DecidableEq, Repr

/-- The state of the block (R20), and after it the model's own fields: the instance's capacities and the host's side. -/
structure State where
  /-- STATUS, offset 0x04 (R23). -/
  status : Status
  /-- FS, offset 0x08 (R24): the sample rate. -/
  fs : Word
  /-- BAUD, offset 0x0C (R25): the symbol rate. -/
  baud : Word
  /-- F0, offset 0x10 (R26): the carrier frequency. -/
  f0 : Word
  /-- NS, offset 0x14 (R27): the symbol period of the last successful MOD or DEMOD. -/
  ns : Word
  /-- BYTE_LEN, offset 0x18 (R28). -/
  byteLen : Word
  /-- BIT_LEN, offset 0x1C (R29). -/
  bitLen : Word
  /-- SAMP_LEN, offset 0x20 (R30). -/
  sampLen : Word
  /-- FILE_LEN, offset 0x24 (R31). -/
  fileLen : Word
  /-- VALID, offset 0x28 (R32). -/
  valid : Valid
  /-- BUF_SEL, offset 0x2C (R33): bits 1:0 name a buffer; bits 31:2 read 0 and are not stored. -/
  bufSel : BufId
  /-- BUF_ADDR, offset 0x30 (R34). -/
  bufAddr : Word
  /-- ERR_INFO, offset 0x38 (R36). -/
  errInfo : Word
  /-- BYTEBUF (R41). -/
  byteBuf : Buf 8
  /-- BITBUF (R42). -/
  bitBuf : Buf 1
  /-- SAMPBUF (R43). -/
  sampBuf : Buf 16
  /-- FILEBUF (R44). -/
  fileBuf : Buf 8
  /-- The instance's capacities (00_scope.md R5): configuration, which no step changes. Log entry 1. -/
  caps : Capacities
  /-- The host's actions that are still to be taken, oldest first. Log entry 2. -/
  queue : List HostAction
  /-- The words the host's reads have returned, oldest first. Log entry 3. -/
  reads : List Word
  /-- How many arbitrary words the access port has returned (R35): the index of the next free value. Log entry 4. -/
  draws : Nat
  deriving DecidableEq, Repr

/-- Why the machine stops. The block's own faults are not here: they are taken, as next states (60_exceptions.md R272). -/
inductive Fault where
  /-- Raised by MOD when the magnitude of a scaled value is 32768 or more (40_numerics.md R126; 93 U3: the step has no
  successor). The ideal numerics never raise it. Safe. Log entry 6. -/
  | quantizerRange
  deriving DecidableEq, Repr

/-- What the model gives no meaning. -/
inductive Refusal where
  /-- An instruction without a meaning yet; no arm of exec answers it. Safe. -/
  | notModelled (mnemonic : String)
  /-- Raised by the host-access step on an offset that is no multiple of 4 (20_memory.md R64). Safe. Log entry 9. -/
  | hostAccessMisaligned
  /-- Raised by the host-access step on an access of a width other than 32 bits (20_memory.md R64). Safe. Log entry 9. -/
  | hostAccessWidth
  /-- Raised by the host-access step on any access but a read of STATUS while BUSY is 1 (70_reset_and_hazards.md R305); no
  reachable state has BUSY = 1. Safe. Log entry 7. -/
  | hostAccessWhileBusy
  deriving DecidableEq, Repr

/-- The machine right after reset (R48): every register 0, every flag 0, every element without value. The model's own fields
stand at the values log entries 1 to 4 name. -/
def State.reset : State where
  status := { busy := false, done := false, halt := false, err := .none }
  fs := 0
  baud := 0
  f0 := 0
  ns := 0
  byteLen := 0
  bitLen := 0
  sampLen := 0
  fileLen := 0
  valid := { byteV := false, bitV := false, sampV := false, fileV := false }
  bufSel := .byte
  bufAddr := 0
  errInfo := 0
  byteBuf := []
  bitBuf := []
  sampBuf := []
  fileBuf := []
  caps := Config.resetCapacities
  queue := []
  reads := []
  draws := 0

end Sys2Proof.Machine
end

