-- ==== Sys2Proof/Machine/Flags.lean ====
section
/-! DEFINITION. The flags: STATUS and VALID as words (10_state.md R23, R32), the numbers of error kinds and buffers
(30_encoding.md R100; 10_state.md R33), and the flag updates of commands. -/

namespace Sys2Proof.Machine

/-- One flag as a bit of a word. -/
def flagBit (b : Bool) (pos : Nat) : Word := if b then (1 : Word) <<< pos else 0

/-- The code of an error kind in `STATUS.ERR` (R100). -/
def errCode : ErrKind → BitVec 4
  | .none => 0
  | .ioError => 1
  | .allocationError => 2
  | .malformedContainer => 3
  | .illegalCommand => 4
  | .invalidParameter => 5

/-- STATUS as the host reads it (R23): BUSY, DONE, HALT in bits 0 to 2, ERR in bits 7:4, the reserved bits 0. -/
def statusWord (t : Status) : Word :=
  flagBit t.busy 0 ||| flagBit t.done 1 ||| flagBit t.halt 2 ||| ((errCode t.err).setWidth 32 <<< 4)

/-- VALID as the host reads it (R32): the four flags in bits 3:0, the reserved bits 0. -/
def validWord (v : Valid) : Word :=
  flagBit v.byteV 0 ||| flagBit v.bitV 1 ||| flagBit v.sampV 2 ||| flagBit v.fileV 3

/-- VALID as a host write of a word leaves it (R32): writes to bits 31:4 are ignored. -/
def validOfWord (w : Word) : Valid :=
  { byteV := w.getLsbD 0, bitV := w.getLsbD 1, sampV := w.getLsbD 2, fileV := w.getLsbD 3 }

/-- The buffer index of R33. -/
def bufIndex : BufId → Word
  | .byte => 0
  | .bit => 1
  | .samp => 2
  | .file => 3

/-- The buffer that bits 1:0 of a word select (R33); bits 31:2 are ignored. -/
def bufOfWord (w : Word) : BufId :=
  match (w.extractLsb' 0 2).toNat with
  | 0 => .byte
  | 1 => .bit
  | 2 => .samp
  | _ => .file

/-- A buffer's valid flag. -/
def validFlag (v : Valid) : BufId → Bool
  | .byte => v.byteV
  | .bit => v.bitV
  | .samp => v.sampV
  | .file => v.fileV

/-- VALID with one buffer's flag set to `b`. -/
def setValidFlag (v : Valid) (x : BufId) (b : Bool) : Valid :=
  match x with
  | .byte => { v with byteV := b }
  | .bit => { v with bitV := b }
  | .samp => { v with sampV := b }
  | .file => { v with fileV := b }

/-- `STATUS.DONE <- b`. -/
def setDone (b : Bool) (s : State) : State := { s with status := { s.status with done := b } }

/-- The STATUS a fault of kind `k` leaves (60_exceptions.md R272): ERR its code, HALT 1, DONE 0. -/
def faultStatus (k : ErrKind) (t : Status) : Status := { t with err := k, halt := true, done := false }

end Sys2Proof.Machine
end

