-- ==== Sys2Proof/Machine/Ops.lean ====
section
/-! DEFINITION. The operations the commands share: buffers (10_state.md R45; 20_memory.md R60), little-endian fields of a
container image (20_memory.md R61, R63), issuing a command (47_control_commands.md R230), successful completion (R234),
fault entry (60_exceptions.md R272) and reset (70_reset_and_hazards.md R300). -/

namespace Sys2Proof.Machine

/-- What a meaning answers. -/
abbrev Result := Host.Outcome State Fault Refusal

/-! ## Buffers -/

/-- The element at an index, or none where the buffer holds no value there (R45). -/
def bufGet {w : Nat} : Buf w → Nat → Option (BitVec w)
  | [], _ => none
  | (a, v) :: rest, i => if a = i then some v else bufGet rest i

/-- `B[i] <- v` (R9): the cell takes its place among the rising indices. -/
def bufSet {w : Nat} : Buf w → Nat → BitVec w → Buf w
  | [], i, v => [(i, v)]
  | (a, u) :: rest, i, v =>
    if i < a then (i, v) :: (a, u) :: rest
    else if i = a then (i, v) :: rest
    else (a, u) :: bufSet rest i v

/-- The cells of consecutive elements from an index on. -/
def bufCells {w : Nat} : (start : Nat) → List (BitVec w) → Buf w
  | _, [] => []
  | i, v :: vs => (i, v) :: bufCells (i + 1) vs

/-- The buffer whose elements are a command's output: every index at or beyond its length holds no value (R45). -/
def bufOfList {w : Nat} (vs : List (BitVec w)) : Buf w := bufCells 0 vs

/-- The `n` elements from an index on, where each holds a value. -/
def bufSlice {w : Nat} (b : Buf w) : (start n : Nat) → Option (List (BitVec w))
  | _, 0 => some []
  | i, n + 1 =>
    match bufGet b i, bufSlice b (i + 1) n with
    | some v, some vs => some (v :: vs)
    | _, _ => none

/-- The indices are at least `lo` and strictly rising. -/
def bufRising {w : Nat} : (lo : Nat) → Buf w → Bool
  | _, [] => true
  | lo, (a, _) :: rest => decide (lo ≤ a) && bufRising (a + 1) rest

/-- The one canonical form of a buffer. -/
def bufWf {w : Nat} (b : Buf w) : Bool := bufRising 0 b

/-- Every element that holds a value lies within the capacity (R41 to R44). -/
def bufWithin {w : Nat} (cap : Nat) (b : Buf w) : Bool := b.all fun c => decide (c.1 < cap)

/-- All four buffers are in canonical form. -/
def Memory.wf (s : State) : Bool := bufWf s.byteBuf && bufWf s.bitBuf && bufWf s.sampBuf && bufWf s.fileBuf

/-! ## Little-endian fields -/

/-- The `n` low bytes of a number, least significant first: what `MemWrite(addr, n, v)` of R63 stores from `addr` on. -/
def leBytes : (n v : Nat) → List Byte
  | 0, _ => []
  | n + 1, v => BitVec.ofNat 8 v :: leBytes n (v / 256)

/-- The number whose bytes these are, least significant first. -/
def leNat : List Byte → Nat
  | [] => 0
  | b :: bs => b.toNat + 256 * leNat bs

/-- `MemRead(addr, n)` of R63, on the image `FILEBUF[0 .. FILE_LEN)`. -/
def memRead (image : List Byte) (addr n : Nat) : Nat := leNat ((image.drop addr).take n)

/-! ## Issue, completion, fault, reset -/

/-- A number as a register value, saturated at 2^32 - 1 (60_exceptions.md R262). -/
def saturated (n : Nat) : Word := BitVec.ofNat 32 (min n (2 ^ 32 - 1))

/-- The acceptance steps of R230 around a command's own rule: a halted block ignores the write (R231); otherwise DONE is
cleared and the rule runs. Log entry 12. -/
def issue (s : State) (rule : State → Result) : Result :=
  if s.status.halt then .next s else rule (setDone false s)

/-- A buffer's flag cleared and every element of it without value (R272). -/
def invalidate (x : BufId) (s : State) : State :=
  match x with
  | .byte => { s with valid := setValidFlag s.valid .byte false, byteBuf := [] }
  | .bit => { s with valid := setValidFlag s.valid .bit false, bitBuf := [] }
  | .samp => { s with valid := setValidFlag s.valid .samp false, sampBuf := [] }
  | .file => { s with valid := setValidFlag s.valid .file false, fileBuf := [] }

/-- Fault entry (R272): `raise K(info)` for a command with output buffer `out`. -/
def raise (k : ErrKind) (info : Word) (out : Option BufId) (s : State) : State :=
  let s := { s with status := faultStatus k s.status, errInfo := info }
  match out with
  | some x => invalidate x s
  | none => s

/-- Successful completion into BYTEBUF (R234): the elements, the length, the flag, DONE. -/
def putBytes (vs : List Byte) (s : State) : State :=
  setDone true { s with
    byteBuf := bufOfList vs, byteLen := BitVec.ofNat 32 vs.length, valid := setValidFlag s.valid .byte true }

/-- Successful completion into BITBUF (R234). -/
def putBits (vs : List Bit) (s : State) : State :=
  setDone true { s with
    bitBuf := bufOfList vs, bitLen := BitVec.ofNat 32 vs.length, valid := setValidFlag s.valid .bit true }

/-- Successful completion into SAMPBUF (R234). -/
def putSamples (vs : List Sample) (s : State) : State :=
  setDone true { s with
    sampBuf := bufOfList vs, sampLen := BitVec.ofNat 32 vs.length, valid := setValidFlag s.valid .samp true }

/-- Successful completion into FILEBUF (R234). -/
def putFile (vs : List Byte) (s : State) : State :=
  setDone true { s with
    fileBuf := bufOfList vs, fileLen := BitVec.ofNat 32 vs.length, valid := setValidFlag s.valid .file true }

/-- Reset (R300): the reset state of R48. The model's own fields stay: the capacities are configuration, and the host's
queue and record are not the block's. Log entry 13. -/
def resetBlock (s : State) : State :=
  { State.reset with caps := s.caps, queue := s.queue, reads := s.reads, draws := s.draws }

end Sys2Proof.Machine
end

