-- ==== Sys2Proof/Machine/Operands.lean ====
section
/-! DEFINITION. The implicit operands of the commands (30_encoding.md R92): the input buffers with the common input check of
47_control_commands.md R233, and the symbol period of 42_modulator.md R152. -/

namespace Sys2Proof.Machine

/-- BYTEBUF as an input operand: its elements below BYTE_LEN, where the buffer is valid and each holds a value (R233). -/
def inputBytes (s : State) : Option (List Byte) :=
  if s.valid.byteV then bufSlice s.byteBuf 0 s.byteLen.toNat else none

/-- BITBUF as an input operand (R233). -/
def inputBits (s : State) : Option (List Bit) :=
  if s.valid.bitV then bufSlice s.bitBuf 0 s.bitLen.toNat else none

/-- SAMPBUF as an input operand (R233). -/
def inputSamples (s : State) : Option (List Sample) :=
  if s.valid.sampV then bufSlice s.sampBuf 0 s.sampLen.toNat else none

/-- FILEBUF as an input operand: the image (R233). -/
def inputFile (s : State) : Option (List Byte) :=
  if s.valid.fileV then bufSlice s.fileBuf 0 s.fileLen.toNat else none

/-- The symbol period `Ns = FS div BAUD` where `BAUD` is not 0 and the quotient is at least 1 (R152). -/
def symbolPeriod (s : State) : Option Nat :=
  if s.baud = 0 then none
  else if s.fs.toNat / s.baud.toNat = 0 then none
  else some (s.fs.toNat / s.baud.toNat)

/-- `ceil8(L)` of 00_scope.md R7. -/
def ceil8 (n : Nat) : Nat := (n + 7) / 8

end Sys2Proof.Machine
end

