-- ==== Sys2Proof/Machine/Bits.lean ====
section
/-! DEFINITION. The commands BITX (41_bit_extractor.md) and PACK (46_bit_packer.md). -/

namespace Sys2Proof.Machine

/-- The eight bits of a byte, bit 7 first (R143). -/
def bitsOfByte (b : Byte) : List Bit :=
  [b.extractLsb' 7 1, b.extractLsb' 6 1, b.extractLsb' 5 1, b.extractLsb' 4 1,
   b.extractLsb' 3 1, b.extractLsb' 2 1, b.extractLsb' 1 1, b.extractLsb' 0 1]

/-- The bit sequence of a byte sequence (R143): byte `i`'s bits stand at `8*i` to `8*i + 7`. -/
def bitsOfBytes : List Byte → List Bit
  | [] => []
  | b :: bs => bitsOfByte b ++ bitsOfBytes bs

/-- The value of up to eight bits, the first of which has weight `2^(7-j)` (R222). -/
def packedValue : (j : Nat) → List Bit → Nat
  | _, [] => 0
  | j, b :: bs => b.toNat * 2 ^ (7 - j) + packedValue (j + 1) bs

/-- The first `m` bytes of a bit sequence, zero padded (R222). -/
def packBits : (m : Nat) → List Bit → List Byte
  | 0, _ => []
  | m + 1, bits => BitVec.ofNat 8 (packedValue 0 (bits.take 8)) :: packBits m (bits.drop 8)

/-- BITX (R140). -/
def execBitx (s : State) : Result := issue s fun s =>
  match inputBytes s with
  | none => .next (raise .ioError (bufIndex .byte) (some .bit) s)
  | some bytes =>
    if s.caps.bits.val < 8 * s.byteLen.toNat then
      .next (raise .allocationError (saturated (8 * s.byteLen.toNat)) (some .bit) s)
    else .next (putBits (bitsOfBytes bytes) s)

/-- PACK (R220). -/
def execPack (s : State) : Result := issue s fun s =>
  match inputBits s with
  | none => .next (raise .ioError (bufIndex .bit) (some .byte) s)
  | some bits =>
    if s.caps.bytes.val < ceil8 s.bitLen.toNat then
      .next (raise .allocationError (saturated (ceil8 s.bitLen.toNat)) (some .byte) s)
    else .next (putBytes (packBits (ceil8 s.bitLen.toNat) bits) s)

end Sys2Proof.Machine
end

