-- ==== Sys2Proof/Machine/Container.lean ====
section
/-! DEFINITION. The commands WAVWR (43_container_writer.md) and WAVRD (44_container_reader.md), over the container layout of
30_encoding.md R96. -/

namespace Sys2Proof.Machine

/-! ## WAVWR -/

/-- The 44 header bytes (R96, R170, R172) for a sample rate and a sample count. -/
def headerBytes (fs count : Nat) : List Byte :=
  [0x52, 0x49, 0x46, 0x46] ++                   -- 0: RIFF
  leBytes 4 ((36 + 2 * count) % 2 ^ 32) ++      -- 4: total file size
  [0x57, 0x41, 0x56, 0x45] ++                   -- 8: WAVE
  [0x66, 0x6D, 0x74, 0x20] ++                   -- 12: fmt and a space
  leBytes 4 16 ++                               -- 16: subchunk1 size
  leBytes 2 1 ++                                -- 20: audio format, PCM
  leBytes 2 1 ++                                -- 22: channel count
  leBytes 4 fs ++                               -- 24: sample rate
  leBytes 4 ((fs * 2) % 2 ^ 32) ++              -- 28: byte rate
  leBytes 2 2 ++                                -- 32: block align
  leBytes 2 16 ++                               -- 34: bits per sample
  [0x64, 0x61, 0x74, 0x61] ++                   -- 36: data
  leBytes 4 (2 * count)                         -- 40: data size

/-- The payload: each sample's 16-bit pattern, low byte first (R97, R173). -/
def payloadBytes : List Sample → List Byte
  | [] => []
  | v :: vs => leBytes 2 v.toNat ++ payloadBytes vs

/-- WAVWR (R170). -/
def execWavwr (s : State) : Result := issue s fun s =>
  match inputSamples s with
  | none => .next (raise .ioError (bufIndex .samp) (some .file) s)
  | some samples =>
    let size := 44 + 2 * s.sampLen.toNat
    if s.caps.file.val < size then .next (raise .allocationError (saturated size) (some .file) s)
    else .next (putFile (headerBytes s.fs.toNat s.sampLen.toNat ++ payloadBytes samples) s)

/-! ## WAVRD -/

/-- The first `n` samples of a payload (R186): each `s16` of its two bytes, low byte first. -/
def payloadSamples : (n : Nat) → List Byte → List Sample
  | n + 1, lo :: hi :: rest => (hi ++ lo) :: payloadSamples n rest
  | _, _ => []

/-- WAVRD (R180). -/
def execWavrd (s : State) : Result := issue s fun s =>
  match inputFile s with
  | none => .next (raise .ioError (bufIndex .file) (some .samp) s)
  | some image =>
    if s.fileLen.toNat < 44 then .next (raise .malformedContainer s.fileLen (some .samp) s)
    else
      let rate : Word := BitVec.ofNat 32 (memRead image 24 4)
      let rawSize : Word := BitVec.ofNat 32 (memRead image 40 4)
      if rawSize.toInt ≤ 0 then .next (raise .malformedContainer rawSize (some .samp) s)
      else
        let count := rawSize.toNat / 2
        if s.caps.samples.val < count then .next (raise .allocationError (saturated count) (some .samp) s)
        else if s.fileLen.toNat < 44 + 2 * count then .next (raise .malformedContainer rawSize (some .samp) s)
        else .next (putSamples (payloadSamples count (image.drop 44)) { s with fs := rate })

end Sys2Proof.Machine
end

