-- ==== Sys2Proof/Machine/Control.lean ====
section
/-! DEFINITION. The command NOP (47_control_commands.md R235), and what a word that encodes no command does (R232). -/

namespace Sys2Proof.Machine

/-- NOP (R235): `STATUS.DONE <- 1`. -/
def execNop (s : State) : Result := issue s fun s => .next (setDone true s)

/-- A word that encodes no command (R232; 60_exceptions.md R264): `IllegalCommand(w)`. It has no output buffer. -/
def illegalCommand (w : Word) (s : State) : Result :=
  issue s fun s => .next (raise .illegalCommand w none s)

end Sys2Proof.Machine
end

