-- ==== Sys2Proof/Machine/Numerics.lean ====
section
/-! DEFINITION. The numerics of the signal path (spec/40_numerics.md), in exact integer arithmetic.

R120 makes exact real arithmetic normative: a sample is `trunc(32767 * a * cos(2*pi*f0*idx/fs))` and a decided bit is
whether a sum of samples times carrier values is strictly positive. Both are questions about the real number
`sum of s * cos(2*pi*k/q)` with integer `s`, `k`, `q`, and both are decided here with no rounding error left:
`cosSumSign` gives the sign of such a sum, `truncCos` the truncation of one term.

How: the angles are brought into the first quarter turn, equal angles are merged, and the sum is evaluated in fixed
point with a known error bound. If the approximation is larger than its error the sign is known; if not, an algebraic
test finds most sums that are exactly zero, and for the rest the precision is doubled until the sign shows. A sum that is
not zero cannot be smaller than a bound given by its degree (twice the sum is an algebraic integer, so its norm is at
least 1), so a sum whose sign has not shown at the last precision is exactly zero. That these functions agree with the
real cosine is proved in Sys2Proof/Laws/Numerics.lean. Log entry 5. -/

namespace Sys2Proof.Machine

/-- A term `s * cos(2*pi*k/q)` of a sum: the coefficient `s` and the angle's numerator `k`; `q` is common to the sum. -/
abbrev CosTerm := Int × Nat

/-- The sum of the first `n` terms of `2^p * arctan (1/m)`, each term rounded down. -/
def arctanInvFixed (p m : Nat) : Nat → Int
  | 0 => 0
  | n + 1 =>
    let term : Int := (2 ^ p / ((2 * n + 1) * m ^ (2 * n + 1)) : Nat)
    if n % 2 = 0 then arctanInvFixed p m n + term else arctanInvFixed p m n - term

/-- `2^p * pi`, by `pi = 16 arctan (1/5) - 4 arctan (1/239)`. -/
def piFixed (p : Nat) : Int :=
  16 * arctanInvFixed p 5 (p / 4 + 1) - 4 * arctanInvFixed p 239 (p / 4 + 1)

/-- The alternating sum of `n` terms of the cosine's power series at `x / 2^p`, from the term `t` with index `j` on. -/
def cosSeriesFixed (p x : Nat) : (n j t : Nat) → Int
  | 0, _, _ => 0
  | n + 1, j, t => t - cosSeriesFixed p x n (j + 1) (t * (x * x) / (4 ^ p * ((2 * j + 1) * (2 * j + 2))))

/-- `2^p * cos(2*pi*k/d)` for an angle in the first quarter turn (`4*k <= d`), given `pi = piFixed p`. -/
def cosFixed (p : Nat) (pi : Int) (d k : Nat) : Int :=
  cosSeriesFixed p (2 * pi * k / d).toNat (p / 2 + 3) 0 (2 ^ p)

/-- How far `cosFixed p` may be from `2^p` times the cosine. -/
def cosFixedError (p : Nat) : Nat := 8 * p

/-- `2^p` times the sum of the terms `ts` over the denominator `d`. -/
def cosSumFixed (p : Nat) (pi : Int) (d : Nat) : List CosTerm → Int
  | [] => 0
  | t :: ts => t.1 * cosFixed p pi d t.2 + cosSumFixed p pi d ts

/-- The sum of the coefficients' magnitudes. -/
def cosWeight : List CosTerm → Nat
  | [] => 0
  | t :: ts => t.1.natAbs + cosWeight ts

/-- The angle `k/q` of a turn brought into the first quarter turn, over the denominator `2*q`
(`cos` is even, and `cos (pi - x) = -cos x`). -/
def foldTerm (q : Nat) (t : CosTerm) : CosTerm :=
  let r := t.2 % q
  let r := if q < 2 * r then q - r else r
  if q < 4 * r then (-t.1, q - 2 * r) else (t.1, 2 * r)

/-- Adds a term to a sum, into the term of the same angle where there is one. -/
def mergeTerm (t : CosTerm) : List CosTerm → List CosTerm
  | [] => [t]
  | u :: us => if u.2 = t.2 then (u.1 + t.1, u.2) :: us else u :: mergeTerm t us

/-- The terms over the denominator `q` as terms of the first quarter turn over `2*q`, one per angle. -/
def foldTerms (q : Nat) : List CosTerm → List CosTerm
  | [] => []
  | t :: ts => mergeTerm (foldTerm q t) (foldTerms q ts)

/-- Drops the terms that are zero: a zero coefficient, or a quarter turn. -/
def dropZeroTerms (d : Nat) (ts : List CosTerm) : List CosTerm :=
  ts.filter fun t => t.1 != 0 && 4 * t.2 != d

/-- The greatest common divisor of `q` and the angles' numerators. -/
def cosGcd (q : Nat) : List CosTerm → Nat
  | [] => q
  | t :: ts => Nat.gcd t.2 (cosGcd q ts)

/-- The sign of the sum as its approximation at precision `p` shows it: 1 or -1, or 0 where the approximation is no larger
than its error. -/
def cosSignAt (d : Nat) (ts : List CosTerm) (p : Nat) : Int :=
  let a := cosSumFixed p (piFixed p) d ts
  let e : Int := (cosFixedError p * cosWeight ts : Nat)
  if e < a then 1 else if a < -e then -1 else 0

/-- Adds `s` to the coefficient of `x^k`. -/
def addCoeff (s : Int) : (k : Nat) → List Int → List Int
  | _, [] => []
  | 0, c :: cs => (c + s) :: cs
  | k + 1, c :: cs => c :: addCoeff s k cs

/-- The coefficients of the polynomial `sum of s * (x^k + x^(d-k))` modulo `x^d - 1`, whose value at the primitive
`d`-th root of unity is twice the sum of the terms. -/
def cosCoeffs (d : Nat) : List CosTerm → List Int
  | [] => List.replicate d 0
  | t :: ts => addCoeff t.1 (t.2 % d) (addCoeff t.1 ((d - t.2 % d) % d) (cosCoeffs d ts))

/-- The prime divisors of `n` that are at least `p`, by trial division. -/
def primeDivisors : (fuel p n : Nat) → List Nat
  | 0, _, _ => []
  | fuel + 1, p, n =>
    if n ≤ 1 then []
    else if n < p * p then [n]
    else if n % p = 0 then p :: primeDivisors fuel p (n / p)
    else primeDivisors fuel (p + 1) n

/-- The coefficients of `c * (x^(-m) - 1)` modulo `x^d - 1`, `d` the number of coefficients. -/
def timesRootGap (m : Nat) (c : List Int) : List Int :=
  List.zipWith (· - ·) (c.drop m ++ c.take m) c

/-- Multiplies by `x^(-d/p) - 1` for every listed divisor `p` of `d`. None of these factors vanishes at the primitive
`d`-th root of unity, and together they vanish at every other `d`-th root of unity. -/
def clearOtherRoots (d : Nat) : List Nat → List Int → List Int
  | [], c => c
  | p :: ps, c => clearOtherRoots d ps (if 1 < p ∧ d % p = 0 then timesRootGap (d / p) c else c)

/-- Whether the sum of the terms is exactly zero, asked of its polynomial modulo `x^d - 1`. -/
def cosSumVanishes (d : Nat) (ts : List CosTerm) : Bool :=
  (clearOtherRoots d (primeDivisors (2 * d) 2 d) (cosCoeffs d ts)).all (· == 0)

/-- A precision at which a sum of weight `w` over the denominator `d` shows its sign unless it is zero. -/
def cosPrecision (d w : Nat) : Nat := 2 * ((Nat.log2 (2 * w) + 1) * (d + 1) + 5) + 2

/-- The sign of the sum, the precision doubled (`fuel` times at most) until the sign shows; 0 where it never does. -/
def cosSignLoop (d : Nat) (ts : List CosTerm) : (fuel p : Nat) → Int
  | 0, _ => 0
  | fuel + 1, p =>
    let sgn := cosSignAt d ts p
    if sgn ≠ 0 then sgn else cosSignLoop d ts fuel (2 * p)

/-- The sign (-1, 0 or 1) of the real number `sum of s * cos(2*pi*k/q)` over the terms `(s, k)`, for `q >= 1`. -/
def cosSumSign (q : Nat) (ts : List CosTerm) : Int :=
  let g := cosGcd q ts
  let q := q / g
  let ts := dropZeroTerms (2 * q) (foldTerms q (ts.map fun t => (t.1, t.2 / g)))
  let sgn := cosSignAt (2 * q) ts 64
  if sgn ≠ 0 then sgn
  else if cosSumVanishes (2 * q) ts then 0
  else cosSignLoop (2 * q) ts (Nat.log2 (cosPrecision (2 * q) (cosWeight ts) / 64) + 2) 64

/-- `floor (a * cos(2*pi*k/q))`: read from a 64-bit approximation where its error leaves one candidate, and else by the
exact sign of the difference to the larger candidate. -/
def floorCos (a : Int) (k q : Nat) : Int :=
  let t := foldTerm q (a, k)
  let approx := t.1 * cosFixed 64 (piFixed 64) (2 * q) t.2
  let e : Int := (cosFixedError 64 * a.natAbs : Nat)
  let lo := (approx - e) / 2 ^ 64
  let hi := (approx + e) / 2 ^ 64
  if lo = hi then lo
  else if 0 ≤ cosSumSign q [(a, k), (-hi, 0)] then hi
  else lo

/-- `trunc (a * cos(2*pi*k/q))`, toward zero, as R7 (00_scope.md) defines it: `floor x` when `x >= 0`, and
`-floor (-x)` when `x < 0`. -/
def truncCos (a : Int) (k q : Nat) : Int :=
  let f := floorCos a k q
  if 0 ≤ f then f else -floorCos (-a) k q

end Sys2Proof.Machine
end

