-- ==== Sys2Proof/Machine/Modem.lean ====
section
/-! DEFINITION. The commands MOD (42_modulator.md) and DEMOD (45_demodulator.md). Their numerics are those of
40_numerics.md, decided exactly by Machine/Numerics.lean. -/

namespace Sys2Proof.Machine

/-! ## MOD -/

/-- The phase mapper (R124): +1 for a bit 1, -1 for a bit 0. -/
def phaseMap (b : Bit) : Int := if b = 1 then 1 else -1

/-- The quantized sample of a bit at an absolute sample index (R125, R154): `trunc (32767 * amp * cos (2*pi*f0*idx/fs))`. -/
def quantize (fs f0 idx : Nat) (b : Bit) : Int := truncCos (phaseMap b * 32767) (f0 * idx) fs

/-- One symbol: `n` samples of a bit from the absolute index `idx` on (R150's inner loop). -/
def symbolValues (fs f0 : Nat) (b : Bit) : (n idx : Nat) → List Int
  | 0, _ => []
  | n + 1, idx => quantize fs f0 idx b :: symbolValues fs f0 b n (idx + 1)

/-- The symbols of a bit sequence, `ns` samples a bit (R150's outer loop). The index runs on across symbols (R122). -/
def modulatedValues (fs f0 ns : Nat) : (idx : Nat) → List Bit → List Int
  | _, [] => []
  | idx, b :: bs => symbolValues fs f0 b ns idx ++ modulatedValues fs f0 ns (idx + ns) bs

/-- A truncated value as a sample. Its magnitude is 32768 or more exactly where the scaled value's is, and there it has no
meaning: R126 has no clipper and never gives -32768, and 93 U3 gives the step no successor. -/
def sampleOfInt (n : Int) : Option Sample :=
  if -32767 ≤ n ∧ n ≤ 32767 then some (BitVec.ofInt 16 n) else none

/-- The numbers as samples, where each is one. -/
def samplesOfInts : List Int → Option (List Sample)
  | [] => some []
  | n :: ns =>
    match sampleOfInt n, samplesOfInts ns with
    | some v, some vs => some (v :: vs)
    | _, _ => none

/-- MOD (R150). -/
def execMod (s : State) : Result := issue s fun s =>
  match inputBits s with
  | none => .next (raise .ioError (bufIndex .bit) (some .samp) s)
  | some bits =>
    match symbolPeriod s with
    | none => .next (raise .invalidParameter s.baud (some .samp) s)
    | some ns =>
      if s.caps.samples.val < s.bitLen.toNat * ns then
        .next (raise .allocationError (saturated (s.bitLen.toNat * ns)) (some .samp) s)
      else
        match samplesOfInts (modulatedValues s.fs.toNat s.f0.toNat ns 0 bits) with
        | none => .fault .quantizerRange
        | some samples => .next (putSamples samples { s with ns := BitVec.ofNat 32 ns })

/-! ## DEMOD -/

/-- The products of a window's samples with the carrier from the absolute index `idx` on (R129), each as the term
`sample * cos (2*pi*f0*idx/fs)` over the denominator `fs`. -/
def windowTerms (f0 : Nat) : (idx : Nat) → List Sample → List CosTerm
  | _, [] => []
  | idx, v :: vs => (v.toInt, f0 * idx) :: windowTerms f0 (idx + 1) vs

/-- Integrate-and-dump and slicer (R130, R131): 1 if the window's sum is strictly positive, else 0. -/
def decideWindow (fs f0 idx : Nat) (window : List Sample) : Bit :=
  if 0 < cosSumSign fs (windowTerms f0 idx window) then 1 else 0

/-- The bits of `l` consecutive windows of `ns` samples from the absolute index `idx` on (R200's second pass, fused with the
first as R207 allows). -/
def demodulatedBits (fs f0 ns : Nat) : (l idx : Nat) → List Sample → List Bit
  | 0, _, _ => []
  | l + 1, idx, samples =>
    decideWindow fs f0 idx (samples.take ns) :: demodulatedBits fs f0 ns l (idx + ns) (samples.drop ns)

/-- DEMOD (R200). -/
def execDemod (s : State) : Result := issue s fun s =>
  match inputSamples s with
  | none => .next (raise .ioError (bufIndex .samp) (some .bit) s)
  | some samples =>
    match symbolPeriod s with
    | none => .next (raise .invalidParameter s.baud (some .bit) s)
    | some ns =>
      let l := s.sampLen.toNat / ns
      if s.caps.bits.val < l then .next (raise .allocationError (saturated l) (some .bit) s)
      else .next (putBits (demodulatedBits s.fs.toNat s.f0.toNat ns l 0 samples) { s with ns := BitVec.ofNat 32 ns })

end Sys2Proof.Machine
end

