-- ==== Sys2Proof/Machine/Dispatch.lean ====
section
/-! DEFINITION. exec: what issuing a command does (47_control_commands.md R230), one arm per constructor of Instr. -/

namespace Sys2Proof.Machine

def exec (i : Instr) (s : State) : Host.Outcome State Fault Refusal :=
  match i with
  | .nop => Sys2Proof.Machine.execNop s
  | .bitx => Sys2Proof.Machine.execBitx s
  | .mod => Sys2Proof.Machine.execMod s
  | .wavwr => Sys2Proof.Machine.execWavwr s
  | .wavrd => Sys2Proof.Machine.execWavrd s
  | .demod => Sys2Proof.Machine.execDemod s
  | .pack => Sys2Proof.Machine.execPack s

end Sys2Proof.Machine
end

