-- ==== Sys2Proof/Machine/HostAccess.lean ====
section
/-! DEFINITION. The host's accesses: the register window (10_state.md R21 to R37), the access port (R35), issuing a command by
writing CMD (R22), reset (70_reset_and_hazards.md R300), and which accesses have no meaning (20_memory.md R64;
70_reset_and_hazards.md R305). -/

namespace Sys2Proof.Machine

/-! ## The access port (R35) -/

/-- The capacity of a buffer (00_scope.md R5). -/
def capacity (c : Capacities) : BufId → Nat
  | .byte => c.bytes.val
  | .bit => c.bits.val
  | .samp => c.samples.val
  | .file => c.file.val

/-- A host read of BUF_DATA: the selected element, zero-extended, or sign-extended for a sample; none where R35 makes the
word arbitrary. -/
def portRead (s : State) : Option Word :=
  let a := s.bufAddr.toNat
  if capacity s.caps s.bufSel ≤ a then none
  else
    match s.bufSel with
    | .byte => (bufGet s.byteBuf a).map (·.setWidth 32)
    | .bit => (bufGet s.bitBuf a).map (·.setWidth 32)
    | .samp => (bufGet s.sampBuf a).map (·.signExtend 32)
    | .file => (bufGet s.fileBuf a).map (·.setWidth 32)

/-- A host write of BUF_DATA: the low bits of the word, at the element's width; ignored at or beyond the capacity. -/
def portWrite (w : Word) (s : State) : State :=
  let a := s.bufAddr.toNat
  if capacity s.caps s.bufSel ≤ a then s
  else
    match s.bufSel with
    | .byte => { s with byteBuf := bufSet s.byteBuf a (w.setWidth 8) }
    | .bit => { s with bitBuf := bufSet s.bitBuf a (w.setWidth 1) }
    | .samp => { s with sampBuf := bufSet s.sampBuf a (w.setWidth 16) }
    | .file => { s with fileBuf := bufSet s.fileBuf a (w.setWidth 8) }

/-! ## The register window (R21) -/

/-- The word a host read of a register other than BUF_DATA returns. CMD and the reserved offsets read 0 (R22, R37). -/
def registerWord (offset : Nat) (s : State) : Word :=
  match offset with
  | 0x04 => statusWord s.status
  | 0x08 => s.fs
  | 0x0C => s.baud
  | 0x10 => s.f0
  | 0x14 => s.ns
  | 0x18 => s.byteLen
  | 0x1C => s.bitLen
  | 0x20 => s.sampLen
  | 0x24 => s.fileLen
  | 0x28 => validWord s.valid
  | 0x2C => bufIndex s.bufSel
  | 0x30 => s.bufAddr
  | 0x38 => s.errInfo
  | _ => 0

/-- A host write of a register other than CMD. Writes to read-only registers and to the reserved offsets are ignored (R21,
R37), and so is a length above the capacity (R28 to R31). -/
def writeRegister (offset : Nat) (w : Word) (s : State) : State :=
  match offset with
  | 0x08 => { s with fs := w }
  | 0x0C => { s with baud := w }
  | 0x10 => { s with f0 := w }
  | 0x18 => if w.toNat ≤ s.caps.bytes.val then { s with byteLen := w } else s
  | 0x1C => if w.toNat ≤ s.caps.bits.val then { s with bitLen := w } else s
  | 0x20 => if w.toNat ≤ s.caps.samples.val then { s with sampLen := w } else s
  | 0x24 => if w.toNat ≤ s.caps.file.val then { s with fileLen := w } else s
  | 0x28 => { s with valid := validOfWord w }
  | 0x2C => { s with bufSel := bufOfWord w }
  | 0x30 => { s with bufAddr := w }
  | 0x34 => portWrite w s
  | _ => s

/-- The word a read returned goes to the host. Log entry 3. -/
def recordRead (w : Word) (s : State) : State := { s with reads := s.reads ++ [w] }

/-- A host read. Where R35 makes the word arbitrary it is the next free value. Log entry 4. -/
def hostRead (offset : Nat) (s : State) : State :=
  if offset = 0x34 then
    match portRead s with
    | some w => recordRead w s
    | none => recordRead (Config.portDraw s.draws) { s with draws := s.draws + 1 }
  else recordRead (registerWord offset s) s

/-- A write to CMD (R22, R230): the decoded command, or `IllegalCommand`. `run` is what issuing a command does: `exec`, or the
same for another numerics record (00_scope.md R11; Machine/AnyNumerics.lean). -/
def issueWord (w : Word) (s : State) (run : Instr → State → Result := exec) : Result :=
  match decode w with
  | .ok i => run i s
  | .error _ => illegalCommand w s

/-- A host write. -/
def hostWrite (offset : Nat) (w : Word) (s : State) (run : Instr → State → Result := exec) : Result :=
  if offset = 0x00 then issueWord w s run else .next (writeRegister offset w s)

/-! ## One action of the host -/

/-- What an action of the host does. Accesses at an offset that is no multiple of 4, of another width (R64), or while BUSY is 1
(R305) have no meaning; only STATUS may be read while BUSY is 1. -/
def hostAct (a : HostAction) (s : State) (run : Instr → State → Result := exec) : Result :=
  match a with
  | .rst => .next (resetBlock s)
  | .otherWidth _ _ => .refused .hostAccessWidth
  | .read offset =>
    if offset % 4 ≠ 0 then .refused .hostAccessMisaligned
    else if s.status.busy ∧ offset ≠ 0x04 then .refused .hostAccessWhileBusy
    else .next (hostRead offset s)
  | .write offset w =>
    if offset % 4 ≠ 0 then .refused .hostAccessMisaligned
    else if s.status.busy then .refused .hostAccessWhileBusy
    else hostWrite offset w s run

/-- The host's next action, where there is one; between actions the block is idle and holds its state (60_exceptions.md R280).
Log entry 2. -/
def takeAction (s : State) (run : Instr → State → Result := exec) : Result :=
  match s.queue with
  | [] => .next s
  | a :: rest => hostAct a { s with queue := rest } run

end Sys2Proof.Machine
end

