-- ==== Sys2Proof/Machine/Step.lean ====
section
/-! DEFINITION. One step of the machine: the block has no program counter and fetches nothing (10_state.md R39), so a step takes
the host's next action. Log entry 2. -/

namespace Sys2Proof.Machine

/-- One step. -/
def step (s : State) : Host.Outcome State Fault Refusal := takeAction s

/-- The state in which the host's next action is the write of an opcode-table word to CMD, so that the next step issues it. A
number that is no 32-bit word is no write the host can make, and changes nothing. -/
def State.withFetchWord (s : State) (nbits w : Nat) : State :=
  match tableWord nbits w with
  | some v => { s with queue := .write 0x00 v :: s.queue }
  | none => s

end Sys2Proof.Machine
end

