-- ==== Sys2Proof/Machine/AnyNumerics.lean ====
section
/-! DEFINITION. The block for an arbitrary numerics record NUM (00_scope.md R5, R11; 40_numerics.md R120, R133): the parameter of the
step relation that the spec leaves OPEN. Only MOD and DEMOD use it. `exec` and `step` are the block with the ideal instance,
R120's normative one; here it is with any record, over the real numbers, so it cannot be evaluated. Log entry 5. -/

namespace Sys2Proof.Machine

/-- One symbol under `N`: `n` samples of a bit from the absolute index `idx` on (R125, R150's inner loop). -/
noncomputable def symbolValuesWith (N : Num) (fs f0 : Nat) (b : Bit) : (n idx : Nat) → List Int
  | 0, _ => []
  | n + 1, idx => N.quantized fs f0 idx b :: symbolValuesWith N fs f0 b n (idx + 1)

/-- The symbols of a bit sequence under `N` (R150's outer loop). -/
noncomputable def modulatedValuesWith (N : Num) (fs f0 ns : Nat) : (idx : Nat) → List Bit → List Int
  | _, [] => []
  | idx, b :: bs => symbolValuesWith N fs f0 b ns idx ++ modulatedValuesWith N fs f0 ns (idx + ns) bs

/-- The decision of a window under `N` (R130, R131). -/
noncomputable def decideWindowWith (N : Num) (fs f0 idx : Nat) (window : List Sample) : Bit :=
  if 0 < N.windowSum fs f0 idx window then 1 else 0

/-- The bits of `l` consecutive windows of `ns` samples under `N` (R200). -/
noncomputable def demodulatedBitsWith (N : Num) (fs f0 ns : Nat) : (l idx : Nat) → List Sample → List Bit
  | 0, _, _ => []
  | l + 1, idx, samples =>
    decideWindowWith N fs f0 idx (samples.take ns) :: demodulatedBitsWith N fs f0 ns l (idx + ns) (samples.drop ns)

/-- MOD under `N` (R150). A scaled value of magnitude 32768 or more has no meaning (R126; 93 U3); P1 excludes
it. -/
noncomputable def execModWith (N : Num) (s : State) : Result := issue s fun s =>
  match inputBits s with
  | none => .next (raise .ioError (bufIndex .bit) (some .samp) s)
  | some bits =>
    match symbolPeriod s with
    | none => .next (raise .invalidParameter s.baud (some .samp) s)
    | some ns =>
      if s.caps.samples.val < s.bitLen.toNat * ns then
        .next (raise .allocationError (saturated (s.bitLen.toNat * ns)) (some .samp) s)
      else
        match samplesOfInts (modulatedValuesWith N s.fs.toNat s.f0.toNat ns 0 bits) with
        | none => .fault .quantizerRange
        | some samples => .next (putSamples samples { s with ns := BitVec.ofNat 32 ns })

/-- DEMOD under `N` (R200). -/
noncomputable def execDemodWith (N : Num) (s : State) : Result := issue s fun s =>
  match inputSamples s with
  | none => .next (raise .ioError (bufIndex .samp) (some .bit) s)
  | some samples =>
    match symbolPeriod s with
    | none => .next (raise .invalidParameter s.baud (some .bit) s)
    | some ns =>
      let l := s.sampLen.toNat / ns
      if s.caps.bits.val < l then .next (raise .allocationError (saturated l) (some .bit) s)
      else .next (putBits (demodulatedBitsWith N s.fs.toNat s.f0.toNat ns l 0 samples) { s with ns := BitVec.ofNat 32 ns })

/-- A command under `N`: the same record for MOD and for DEMOD (R120), and none for the others. -/
noncomputable def execWith (N : Num) (i : Instr) (s : State) : Result :=
  match i with
  | .mod => execModWith N s
  | .demod => execDemodWith N s
  | .nop | .bitx | .wavwr | .wavrd | .pack => exec i s

/-- One step of the block whose configuration holds `N` (R11): the capacities are in State. -/
noncomputable def stepWith (N : Num) (s : State) : Result := takeAction s (execWith N)

end Sys2Proof.Machine
end

