-- ==== Sys2Proof/Machine/HostProgram.lean ====
section
/-! DEFINITION. Host programs: the lines LOAD and READ of 30_encoding.md R101 as sequences of accesses (10_state.md R35), and the
pseudo-commands of 47_control_commands.md R238 to R241. `run` is what issuing a command does: `exec`, or the
same for another numerics record (Machine/AnyNumerics.lean). Log entry 14. -/

namespace Sys2Proof.Machine

/-- The host's write of a command to CMD (R22, R101). -/
def commandAction (i : Instr) : HostAction := .write 0x00 (encode i)

/-- The offset of a buffer's length register (R28 to R31). -/
def lenOffset : BufId → Nat
  | .byte => 0x18
  | .bit => 0x1C
  | .samp => 0x20
  | .file => 0x24

/-- Writes of consecutive elements through the port, from an index on. -/
def elementWrites : (start : Nat) → List Word → List HostAction
  | _, [] => []
  | i, w :: ws => .write 0x30 (BitVec.ofNat 32 i) :: .write 0x34 w :: elementWrites (i + 1) ws

/-- `LOAD buf, elements` (R101), the HostLoad of R35: the elements, the length and the valid flag, the other flags as given. -/
def loadActions (x : BufId) (elements : List Word) (flags : Valid) : List HostAction :=
  .write 0x2C (bufIndex x) :: elementWrites 0 elements ++
    [.write (lenOffset x) (BitVec.ofNat 32 elements.length), .write 0x28 (validWord (setValidFlag flags x true))]

/-- Reads of consecutive elements through the port, from an index on. -/
def elementReads : (start n : Nat) → List HostAction
  | _, 0 => []
  | i, n + 1 => .write 0x30 (BitVec.ofNat 32 i) :: .read 0x34 :: elementReads (i + 1) n

/-- `READ buf` (R101), the HostRead of R35, for a buffer of `n` elements. -/
def readActions (x : BufId) (n : Nat) : List HostAction := .write 0x2C (bufIndex x) :: elementReads 0 n

/-- The pseudo-commands (30_encoding.md R102). -/
inductive Pseudo where
  /-- `BITX; MOD` (R238). -/
  | modulate
  /-- `DEMOD; PACK` (R239). -/
  | demodulate
  /-- `BITX; MOD; WAVWR` (R240). -/
  | encode
  /-- `WAVRD; DEMOD; PACK` (R241). -/
  | decode
  deriving DecidableEq, Repr

/-- The commands a pseudo-command stands for. -/
def pseudoCommands : Pseudo → List Instr
  | .modulate => [.bitx, .mod]
  | .demodulate => [.demod, .pack]
  | .encode => [.bitx, .mod, .wavwr]
  | .decode => [.wavrd, .demod, .pack]

/-- Commands issued one after another, stopping at the first fault: the host reads STATUS after each and stops where HALT is
1 (R238). -/
def issueUntilFault (is : List Instr) (s : State) (run : Instr → State → Result := exec) : Result :=
  match is with
  | [] => .next s
  | i :: is =>
    match run i s with
    | .next t => if t.status.halt then .next t else issueUntilFault is t run
    | stop => stop

/-- The same commands issued one after another without looking at STATUS. -/
def issueAll (is : List Instr) (s : State) (run : Instr → State → Result := exec) : Result :=
  match is with
  | [] => .next s
  | i :: is =>
    match run i s with
    | .next t => issueAll is t run
    | stop => stop

end Sys2Proof.Machine
end

