-- ==== Sys2Proof/Safety.lean ====
section
/-! DEFINITION. The terms claims are made in: which buffers a command uses (30_encoding.md R92), when an input is there
(47_control_commands.md R233), what a fault leaves (60_exceptions.md R272), and the invariant of 10_state.md R47. -/

namespace Sys2Proof.Machine

/-! ## The operands of a command (R92) -/

/-- The input buffer of a command. -/
def inputOf : Instr → Option BufId
  | .nop => none
  | .bitx => some .byte
  | .mod => some .bit
  | .wavwr => some .samp
  | .wavrd => some .file
  | .demod => some .samp
  | .pack => some .bit

/-- The output buffer of a command. -/
def outputOf : Instr → Option BufId
  | .nop => none
  | .bitx => some .bit
  | .mod => some .samp
  | .wavwr => some .file
  | .wavrd => some .samp
  | .demod => some .bit
  | .pack => some .byte

/-! ## Buffers by name -/

/-- A buffer's length register. -/
def lengthOf (x : BufId) (s : State) : Nat :=
  match x with
  | .byte => s.byteLen.toNat
  | .bit => s.bitLen.toNat
  | .samp => s.sampLen.toNat
  | .file => s.fileLen.toNat

/-- The element of a buffer at an index as a host read of BUF_DATA gives it (10_state.md R35): bytes and bits zero-extended,
samples sign-extended; none where the element holds no value. -/
def element (x : BufId) (s : State) (i : Nat) : Option Word :=
  match x with
  | .byte => (bufGet s.byteBuf i).map (·.setWidth 32)
  | .bit => (bufGet s.bitBuf i).map (·.setWidth 32)
  | .samp => (bufGet s.sampBuf i).map (·.signExtend 32)
  | .file => (bufGet s.fileBuf i).map (·.setWidth 32)

/-- What the element that a host write of `w` to BUF_DATA leaves reads back as (R35): the low bits of `w` at the element's
width, extended. -/
def elementWord (x : BufId) (w : Word) : Word :=
  match x with
  | .byte => (w.setWidth 8).setWidth 32
  | .bit => (w.setWidth 1).setWidth 32
  | .samp => (w.setWidth 16).signExtend 32
  | .file => (w.setWidth 8).setWidth 32

/-- The element of a buffer holds a value (R45). -/
def holdsValue (x : BufId) (s : State) (i : Nat) : Bool := (element x s i).isSome

/-- The sample at an index as an integer, 0 where it holds no value. -/
def sampleValue (s : State) (i : Nat) : Int :=
  match bufGet s.sampBuf i with
  | some v => v.toInt
  | none => 0

/-- The little-endian field of `n` bytes of FILEBUF at an index, where each byte holds a value: `MemRead` of 20_memory.md
R63. -/
def fileField (s : State) (addr n : Nat) : Option Nat := (bufSlice s.fileBuf addr n).map leNat

/-! ## Conditions -/

/-- The common input check of R233 passes: the flag is 1 and every element below the length holds a value. -/
abbrev InputReady (x : BufId) (s : State) : Prop :=
  validFlag s.valid x = true ∧ ∀ i, i < lengthOf x s → holdsValue x s i = true

/-- The symbol-period check of 42_modulator.md R152 passes. -/
abbrev ParametersOk (s : State) : Prop := s.baud ≠ 0 ∧ s.fs.toNat / s.baud.toNat ≠ 0

/-- `Ns = FS div BAUD`. -/
def period (s : State) : Nat := s.fs.toNat / s.baud.toNat

/-! ## What a fault leaves (R272) -/

/-- `t` is `s` after `raise k(info)` by a command with output buffer `out`: STATUS and ERR_INFO written, the output's flag
cleared and its elements without value, everything else as in `s`. -/
structure Faulted (s : State) (k : ErrKind) (info : Word) (out : Option BufId) (t : State) : Prop where
  status : t.status = { busy := s.status.busy, done := false, halt := true, err := k }
  errInfo : t.errInfo = info
  flags : ∀ x, validFlag t.valid x = if out = some x then false else validFlag s.valid x
  emptied : ∀ x i, out = some x → holdsValue x t i = false
  byteBuf : out ≠ some .byte → t.byteBuf = s.byteBuf
  bitBuf : out ≠ some .bit → t.bitBuf = s.bitBuf
  sampBuf : out ≠ some .samp → t.sampBuf = s.sampBuf
  fileBuf : out ≠ some .file → t.fileBuf = s.fileBuf
  rest : { t with status := s.status, errInfo := s.errInfo, valid := s.valid, byteBuf := s.byteBuf, bitBuf := s.bitBuf,
                  sampBuf := s.sampBuf, fileBuf := s.fileBuf } = s

/-! ## The invariant (R47) -/

/-- What holds in every reachable state: R47's clauses; that ERR_INFO is 0 while no fault is recorded (R36); and that the
buffers are in canonical form and within their capacities. -/
structure Inv (s : State) : Prop where
  byteLen : s.byteLen.toNat ≤ s.caps.bytes.val
  bitLen : s.bitLen.toNat ≤ s.caps.bits.val
  sampLen : s.sampLen.toNat ≤ s.caps.samples.val
  fileLen : s.fileLen.toNat ≤ s.caps.file.val
  haltIffErr : s.status.halt = true ↔ s.status.err ≠ .none
  doneNotHalt : s.status.done = true → s.status.halt = false
  notBusy : s.status.busy = false
  errInfoZero : s.status.err = .none → s.errInfo = 0
  memoryWf : Memory.wf s = true
  byteWithin : bufWithin s.caps.bytes.val s.byteBuf = true
  bitWithin : bufWithin s.caps.bits.val s.bitBuf = true
  sampWithin : bufWithin s.caps.samples.val s.sampBuf = true
  fileWithin : bufWithin s.caps.file.val s.fileBuf = true

end Sys2Proof.Machine
end

