-- ==== Sys2Proof/Certificates/Slice0/Obligations.lean ====
section
/-! DEFINITION. The statements for the provers. Each docstring names the rule of spec/ it formalises. Statements are about every
state, so about every choice of the capacities (log 1) and of the free values of the access port (log 4). -/

open Sys2Proof Sys2Proof.Machine

/-! ## Encoding -/

/-- R91: the seven words read as their commands, and the encoder writes them. -/
def Obligations.SevenWordsAreTheCommands : Prop :=
  [0x00000000#32, 0x00000001#32, 0x00000002#32, 0x00000003#32, 0x00000004#32, 0x00000005#32, 0x00000006#32].map
      (fun w => (decode w).toOption)
    = [some .nop, some .bitx, some .mod, some .wavwr, some .wavrd, some .demod, some .pack] ∧
  [Instr.nop, .bitx, .mod, .wavwr, .wavrd, .demod, .pack].map encode
    = [0x00000000#32, 0x00000001#32, 0x00000002#32, 0x00000003#32, 0x00000004#32, 0x00000005#32, 0x00000006#32]

/-- R90, R91: decoding the encoding of any command gives it back. -/
def Obligations.DecodeOfEncode : Prop := ∀ i : Instr, i.wellFormed = true → decode (encode i) = .ok i

/-- R91, R93: a word reads as a command only if it is that command's word; so no two words read as one command, and every
other word is illegal. -/
def Obligations.OnlyTheSevenWordsDecode : Prop :=
  ∀ (w : Word) (i : Instr), decode w = .ok i ↔ w = encode i

/-- R264, R232, R93: while HALT is 0, a word with a bit of 31:4 set or an opcode of 7 or more raises IllegalCommand with ERR_INFO
the word; it has no output buffer, so no flag and no buffer changes. -/
def Obligations.IllegalWordRaisesIllegalCommand : Prop :=
  ∀ (s : State) (w : Word), s.status.halt = false → (zeroField w ≠ 0 ∨ 7 ≤ (opField w).toNat) →
    ∃ t, hostWrite 0x00 w s = .next t ∧ Faulted s .illegalCommand w none t

/-! ## Issue -/

/-- Log 2, R22, R230: when the host's next action writes a word that reads as a command to CMD, the step is that command on the
state without the action. -/
def Obligations.StepRunsTheIssuedCommand : Prop :=
  ∀ (s : State) (w : Word) (i : Instr) (rest : List HostAction), s.status.busy = false → decode w = .ok i →
    i.wellFormed = true →
    step { s with queue := .write 0x00 w :: rest } = exec i { s with queue := rest }

/-- R231: a write to CMD while HALT is 1 changes nothing. -/
def Obligations.HaltedBlockIgnoresCommands : Prop :=
  ∀ (s : State) (w : Word), s.status.halt = true → hostWrite 0x00 w s = .next s

/-- R230: a write to CMD always ends, in a state with DONE = 1 and no fault, in a state with HALT = 1 and DONE = 0, or, where
the block was halted, in the state it was in. No command stops the model. -/
def Obligations.CommandStepIsTotal : Prop :=
  ∀ (s : State) (w : Word), ∃ t, hostWrite 0x00 w s = .next t ∧
    (if s.status.halt = true then t = s
     else (t.status.done = true ∧ t.status.halt = false) ∨ (t.status.done = false ∧ t.status.halt = true))

/-- R273, R274: while HALT is 1, no action of the host but `rst` changes STATUS or ERR_INFO. -/
def Obligations.FaultRecordIsSticky : Prop :=
  ∀ (s t : State) (a : HostAction), s.status.halt = true → a ≠ .rst → hostAct a s = .next t →
    t.status = s.status ∧ t.errInfo = s.errInfo

/-- R266: which command can leave which fault kind. -/
def Obligations.CommandsRaiseOnlyTheirFaults : Prop :=
  ∀ (i : Instr) (s t : State), s.status.halt = false → exec i s = .next t → t.status.halt = true →
    t.status.err ∈ (match i with
      | .nop => []
      | .bitx => [ErrKind.ioError, .allocationError]
      | .mod => [.ioError, .invalidParameter, .allocationError]
      | .wavwr => [.ioError, .allocationError]
      | .wavrd => [.ioError, .malformedContainer, .allocationError]
      | .demod => [.ioError, .invalidParameter, .allocationError]
      | .pack => [.ioError, .allocationError])

/-- R74: every command leaves its input buffer, that buffer's length and flag, and the carrier parameters unchanged, but that
WAVRD may write FS. -/
def Obligations.InputsAreReadOnly : Prop :=
  ∀ (i : Instr) (s t : State), exec i s = .next t →
    t.baud = s.baud ∧ t.f0 = s.f0 ∧ (i ≠ .wavrd → t.fs = s.fs) ∧
    (∀ x, inputOf i = some x → lengthOf x t = lengthOf x s ∧ validFlag t.valid x = validFlag s.valid x ∧
      ∀ n, element x t n = element x s n)

/-- R60, R92: the frame of every command. A buffer that is not its output keeps its elements, its length and its flag; BUSY, the
access port's registers, the capacities and the host's side stay; NS changes only in MOD and DEMOD. -/
def Obligations.CommandFrame : Prop :=
  ∀ (i : Instr) (s t : State), exec i s = .next t →
    (∀ x, outputOf i ≠ some x → lengthOf x t = lengthOf x s ∧ validFlag t.valid x = validFlag s.valid x ∧
      ∀ n, element x t n = element x s n) ∧
    t.status.busy = s.status.busy ∧ t.bufSel = s.bufSel ∧ t.bufAddr = s.bufAddr ∧ t.caps = s.caps ∧
    t.queue = s.queue ∧ t.reads = s.reads ∧ t.draws = s.draws ∧
    (i ≠ .mod → i ≠ .demod → t.ns = s.ns) ∧
    (t.status.halt = false → t.status.err = s.status.err ∧ t.errInfo = s.errInfo)

/-- R236: a command that succeeded, issued again, succeeds again and changes nothing. -/
def Obligations.ReissueChangesNothing : Prop :=
  ∀ (i : Instr) (s t : State), s.status.halt = false → exec i s = .next t → t.status.done = true →
    exec i t = .next t

/-! ## NOP -/

/-- R235: NOP sets DONE and changes nothing else, whatever the flags of VALID; when halted it is ignored. -/
def Obligations.NopSetsDone : Prop :=
  ∀ s : State,
    (s.status.halt = false → exec .nop s = .next { s with status := { s.status with done := true } }) ∧
    (s.status.halt = true → exec .nop s = .next s)

/-! ## BITX -/

/-- R141, R142: BITX raises IoError(0) where BYTEBUF is not ready, and AllocationError where `8 * BYTE_LEN` exceeds
CAP_BITS. -/
def Obligations.BitxFaults : Prop :=
  ∀ s : State, s.status.halt = false →
    (¬ InputReady .byte s → ∃ t, exec .bitx s = .next t ∧ Faulted s .ioError 0 (some .bit) t) ∧
    (InputReady .byte s → s.caps.bits.val < 8 * s.byteLen.toNat →
      ∃ t, exec .bitx s = .next t ∧
        Faulted s .allocationError (BitVec.ofNat 32 (min (8 * s.byteLen.toNat) (2 ^ 32 - 1))) (some .bit) t)

/-- R140, R143: BITX on a ready BYTEBUF that fits writes bit `7 - j` of byte `i` to index `8*i + j`, leaves no value beyond,
writes BIT_LEN, BIT_V and DONE, and changes nothing else. -/
def Obligations.BitxExtractsBits : Prop :=
  ∀ s : State, s.status.halt = false → InputReady .byte s → 8 * s.byteLen.toNat ≤ s.caps.bits.val →
    ∃ t, exec .bitx s = .next t ∧ t.bitLen.toNat = 8 * s.byteLen.toNat ∧
      (∀ i j b, i < s.byteLen.toNat → j < 8 → bufGet s.byteBuf i = some b →
        bufGet t.bitBuf (8 * i + j) = some (BitVec.ofNat 1 (b.toNat / 2 ^ (7 - j) % 2))) ∧
      (∀ k, 8 * s.byteLen.toNat ≤ k → bufGet t.bitBuf k = none) ∧
      t = { s with status := { s.status with done := true }, valid := { s.valid with bitV := true },
                   bitLen := t.bitLen, bitBuf := t.bitBuf }

/-! ## MOD -/

/-- R151, R152, R153: MOD's faults, in their order. -/
def Obligations.ModFaults : Prop :=
  ∀ s : State, s.status.halt = false →
    (¬ InputReady .bit s → ∃ t, exec .mod s = .next t ∧ Faulted s .ioError 1 (some .samp) t) ∧
    (InputReady .bit s → (s.baud = 0 ∨ s.fs.toNat / s.baud.toNat = 0) →
      ∃ t, exec .mod s = .next t ∧ Faulted s .invalidParameter s.baud (some .samp) t) ∧
    (InputReady .bit s → ParametersOk s → s.caps.samples.val < s.bitLen.toNat * period s →
      ∃ t, exec .mod s = .next t ∧
        Faulted s .allocationError (BitVec.ofNat 32 (min (s.bitLen.toNat * period s) (2 ^ 32 - 1))) (some .samp) t)

/-- R150, R154, with the real cosine: MOD on a ready BITBUF with good parameters and room writes, for each bit `i` and offset
`j` within the symbol, the sample `trunc (32767 * amp * cos (2*pi*F0*idx/FS))` at `idx = i*Ns + j`, leaves no value beyond,
writes SAMP_LEN, NS, SAMP_V and DONE, and changes nothing else. -/
def Obligations.ModWritesTheQuantizedCarrier : Prop :=
  ∀ s : State, s.status.halt = false → InputReady .bit s → ParametersOk s →
    s.bitLen.toNat * period s ≤ s.caps.samples.val →
    ∃ t, exec .mod s = .next t ∧ t.sampLen.toNat = s.bitLen.toNat * period s ∧ t.ns.toNat = period s ∧
      (∀ i j b, i < s.bitLen.toNat → j < period s → bufGet s.bitBuf i = some b →
        ∃ v : Sample, bufGet t.sampBuf (i * period s + j) = some v ∧
          v.toInt = realTrunc (32767 * (if b = 1 then (1 : ℝ) else -1) *
            Real.cos (2 * Real.pi * s.f0.toNat * (i * period s + j : ℕ) / s.fs.toNat))) ∧
      (∀ k, s.bitLen.toNat * period s ≤ k → bufGet t.sampBuf k = none) ∧
      t = { s with status := { s.status with done := true }, valid := { s.valid with sampV := true },
                   sampLen := t.sampLen, ns := t.ns, sampBuf := t.sampBuf }

/-- R157: after a successful MOD every sample lies in -32767 to 32767. -/
def Obligations.ModSamplesAreBounded : Prop :=
  ∀ s t : State, s.status.halt = false → exec .mod s = .next t → t.status.done = true →
    ∀ n, n < t.sampLen.toNat → ∃ v : Sample, bufGet t.sampBuf n = some v ∧ -32767 ≤ v.toInt ∧ v.toInt ≤ 32767

/-- R127, R158: after a successful MOD each sample is the one a bit 1 gives at its index, or its negation where the bit is 0;
and sample 0 is 32767 or -32767 whatever FS and F0 are. -/
def Obligations.ModSamplesAreSignedCarrier : Prop :=
  ∀ s t : State, s.status.halt = false → exec .mod s = .next t → t.status.done = true →
    (∀ n, n < t.sampLen.toNat →
      sampleValue t n = (if bufGet s.bitBuf (n / period s) = some 1 then 1 else -1) *
        Num.ideal.quantized s.fs.toNat s.f0.toNat n 1) ∧
    (0 < t.sampLen.toNat → sampleValue t 0 = if bufGet s.bitBuf 0 = some 1 then 32767 else -32767)

/-- R123: carrier frequencies equal modulo FS give the same samples. -/
def Obligations.AliasedCarrierModulatesAlike : Prop :=
  ∀ (s t : State) (g : Word), g.toNat % s.fs.toNat = s.f0.toNat % s.fs.toNat → exec .mod s = .next t →
    exec .mod { s with f0 := g } = .next { t with f0 := g }

/-! ## WAVWR -/

/-- R171: WAVWR's faults, in their order. -/
def Obligations.WavwrFaults : Prop :=
  ∀ s : State, s.status.halt = false →
    (¬ InputReady .samp s → ∃ t, exec .wavwr s = .next t ∧ Faulted s .ioError 2 (some .file) t) ∧
    (InputReady .samp s → s.caps.file.val < 44 + 2 * s.sampLen.toNat →
      ∃ t, exec .wavwr s = .next t ∧
        Faulted s .allocationError (BitVec.ofNat 32 (min (44 + 2 * s.sampLen.toNat) (2 ^ 32 - 1))) (some .file) t)

/-- R96, R172, R173, R174: WAVWR on a ready SAMPBUF that fits writes the thirteen header fields and each sample's pattern at
`44 + 2n`, leaves no value beyond, writes FILE_LEN, FILE_V and DONE, and changes nothing else. -/
def Obligations.WavwrWritesTheContainer : Prop :=
  ∀ s : State, s.status.halt = false → InputReady .samp s → 44 + 2 * s.sampLen.toNat ≤ s.caps.file.val →
    ∃ t, exec .wavwr s = .next t ∧ t.fileLen.toNat = 44 + 2 * s.sampLen.toNat ∧
      bufSlice t.fileBuf 0 4 = some [0x52, 0x49, 0x46, 0x46] ∧
      fileField t 4 4 = some (36 + 2 * s.sampLen.toNat) ∧
      bufSlice t.fileBuf 8 4 = some [0x57, 0x41, 0x56, 0x45] ∧
      bufSlice t.fileBuf 12 4 = some [0x66, 0x6D, 0x74, 0x20] ∧
      fileField t 16 4 = some 16 ∧ fileField t 20 2 = some 1 ∧ fileField t 22 2 = some 1 ∧
      fileField t 24 4 = some s.fs.toNat ∧ fileField t 28 4 = some (s.fs.toNat * 2 % 2 ^ 32) ∧
      fileField t 32 2 = some 2 ∧ fileField t 34 2 = some 16 ∧
      bufSlice t.fileBuf 36 4 = some [0x64, 0x61, 0x74, 0x61] ∧
      fileField t 40 4 = some (2 * s.sampLen.toNat) ∧
      (∀ n v, n < s.sampLen.toNat → bufGet s.sampBuf n = some v →
        bufGet t.fileBuf (44 + 2 * n) = some (BitVec.ofNat 8 (v.toNat % 256)) ∧
        bufGet t.fileBuf (45 + 2 * n) = some (BitVec.ofNat 8 (v.toNat / 256))) ∧
      (∀ k, 44 + 2 * s.sampLen.toNat ≤ k → bufGet t.fileBuf k = none) ∧
      t = { s with status := { s.status with done := true }, valid := { s.valid with fileV := true },
                   fileLen := t.fileLen, fileBuf := t.fileBuf }

/-! ## WAVRD -/

/-- R181, R183, R184: WAVRD's faults, in their order. -/
def Obligations.WavrdFaults : Prop :=
  ∀ s : State, s.status.halt = false →
    (¬ InputReady .file s → ∃ t, exec .wavrd s = .next t ∧ Faulted s .ioError 3 (some .samp) t) ∧
    (InputReady .file s → s.fileLen.toNat < 44 →
      ∃ t, exec .wavrd s = .next t ∧ Faulted s .malformedContainer s.fileLen (some .samp) t) ∧
    (InputReady .file s → 44 ≤ s.fileLen.toNat →
      ∃ raw, fileField s 40 4 = some raw ∧
        ((raw = 0 ∨ 2 ^ 31 ≤ raw) →
          ∃ t, exec .wavrd s = .next t ∧ Faulted s .malformedContainer (BitVec.ofNat 32 raw) (some .samp) t) ∧
        (0 < raw → raw < 2 ^ 31 → s.caps.samples.val < raw / 2 →
          ∃ t, exec .wavrd s = .next t ∧ Faulted s .allocationError (BitVec.ofNat 32 (raw / 2)) (some .samp) t) ∧
        (0 < raw → raw < 2 ^ 31 → raw / 2 ≤ s.caps.samples.val → s.fileLen.toNat < 44 + 2 * (raw / 2) →
          ∃ t, exec .wavrd s = .next t ∧ Faulted s .malformedContainer (BitVec.ofNat 32 raw) (some .samp) t))

/-- R180, R185, R186, R189: WAVRD on a ready image whose declared size is positive, whose payload is there and whose samples
fit writes FS from offset 24 and the declared number of samples, leaves no value beyond, writes SAMP_LEN, SAMP_V and DONE,
and changes nothing else. -/
def Obligations.WavrdReadsTheContainer : Prop :=
  ∀ (s : State) (rate raw : Nat), s.status.halt = false → InputReady .file s →
    fileField s 24 4 = some rate → fileField s 40 4 = some raw → 0 < raw → raw < 2 ^ 31 →
    raw / 2 ≤ s.caps.samples.val → 44 + 2 * (raw / 2) ≤ s.fileLen.toNat →
    ∃ t, exec .wavrd s = .next t ∧ t.fs.toNat = rate ∧ t.sampLen.toNat = raw / 2 ∧
      (∀ n lo hi, n < raw / 2 → bufGet s.fileBuf (44 + 2 * n) = some lo → bufGet s.fileBuf (45 + 2 * n) = some hi →
        bufGet t.sampBuf n = some (BitVec.ofNat 16 (lo.toNat + 256 * hi.toNat))) ∧
      (∀ k, raw / 2 ≤ k → bufGet t.sampBuf k = none) ∧
      t = { s with status := { s.status with done := true }, valid := { s.valid with sampV := true },
                   fs := t.fs, sampLen := t.sampLen, sampBuf := t.sampBuf }

/-- R98, R187: no header byte but those at 24 to 27 and 40 to 43 has any effect on WAVRD: two images that agree on those and on
the payload give the same results. -/
def Obligations.WavrdIgnoresOtherHeaderBytes : Prop :=
  ∀ (s t : State) (b : Buf 8), InputReady .file s → InputReady .file { s with fileBuf := b } →
    (∀ i, (24 ≤ i ∧ i < 28 ∨ 40 ≤ i) → i < s.fileLen.toNat → bufGet b i = bufGet s.fileBuf i) →
    exec .wavrd s = .next t → exec .wavrd { s with fileBuf := b } = .next { t with fileBuf := b }

/-- R177: WAVWR and then WAVRD, of at least one sample, restores FS, SAMP_LEN and the samples. -/
def Obligations.ContainerFidelity : Prop :=
  ∀ s : State, s.status.halt = false → InputReady .samp s → 1 ≤ s.sampLen.toNat →
    s.sampLen.toNat ≤ s.caps.samples.val → 44 + 2 * s.sampLen.toNat ≤ s.caps.file.val →
    ∃ t, issueUntilFault [.wavwr, .wavrd] s = .next t ∧ t.status.done = true ∧ t.status.halt = false ∧
      t.fs = s.fs ∧ t.sampLen = s.sampLen ∧ ∀ n, n < s.sampLen.toNat → bufGet t.sampBuf n = bufGet s.sampBuf n

/-- R176, R312: WAVWR of an empty sample sequence succeeds, and WAVRD of its image raises MalformedContainer with ERR_INFO 0. -/
def Obligations.EmptyContainerCannotBeReadBack : Prop :=
  ∀ s : State, s.status.halt = false → s.valid.sampV = true → s.sampLen = 0 → 44 ≤ s.caps.file.val →
    ∃ t u, exec .wavwr s = .next t ∧ t.status.done = true ∧ t.fileLen = 44 ∧
      exec .wavrd t = .next u ∧ Faulted t .malformedContainer 0 (some .samp) u

/-! ## DEMOD -/

/-- R201, R202, R203: DEMOD's faults, in their order. -/
def Obligations.DemodFaults : Prop :=
  ∀ s : State, s.status.halt = false →
    (¬ InputReady .samp s → ∃ t, exec .demod s = .next t ∧ Faulted s .ioError 2 (some .bit) t) ∧
    (InputReady .samp s → (s.baud = 0 ∨ s.fs.toNat / s.baud.toNat = 0) →
      ∃ t, exec .demod s = .next t ∧ Faulted s .invalidParameter s.baud (some .bit) t) ∧
    (InputReady .samp s → ParametersOk s → s.caps.bits.val < s.sampLen.toNat / period s →
      ∃ t, exec .demod s = .next t ∧
        Faulted s .allocationError (BitVec.ofNat 32 (s.sampLen.toNat / period s)) (some .bit) t)

/-- R200, R203 to R206, with the real cosine: DEMOD on a ready SAMPBUF with good parameters and room writes, for each window
`k`, the bit 1 if the sum of `sample * cos (2*pi*F0*n/FS)` over the window is strictly positive and else 0, leaves no value
beyond, writes BIT_LEN, NS, BIT_V and DONE, and changes nothing else. -/
def Obligations.DemodDecidesEachWindow : Prop :=
  ∀ s : State, s.status.halt = false → InputReady .samp s → ParametersOk s →
    s.sampLen.toNat / period s ≤ s.caps.bits.val →
    ∃ t, exec .demod s = .next t ∧ t.bitLen.toNat = s.sampLen.toNat / period s ∧ t.ns.toNat = period s ∧
      (∀ k, k < s.sampLen.toNat / period s →
        (bufGet t.bitBuf k = some 1 ∧ 0 < ∑ j ∈ Finset.range (period s), (sampleValue s (k * period s + j) : ℝ) *
          Real.cos (2 * Real.pi * s.f0.toNat * (k * period s + j : ℕ) / s.fs.toNat)) ∨
        (bufGet t.bitBuf k = some 0 ∧ ∑ j ∈ Finset.range (period s), (sampleValue s (k * period s + j) : ℝ) *
          Real.cos (2 * Real.pi * s.f0.toNat * (k * period s + j : ℕ) / s.fs.toNat) ≤ 0)) ∧
      (∀ k, s.sampLen.toNat / period s ≤ k → bufGet t.bitBuf k = none) ∧
      t = { s with status := { s.status with done := true }, valid := { s.valid with bitV := true },
                   bitLen := t.bitLen, ns := t.ns, bitBuf := t.bitBuf }

/-- R131: a window of zero samples decides 0, not 1. -/
def Obligations.ZeroWindowDecidesZero : Prop :=
  ∀ s t : State, s.status.halt = false → exec .demod s = .next t → t.status.done = true →
    ∀ k, k < t.bitLen.toNat → (∀ j, j < period s → sampleValue s (k * period s + j) = 0) → bufGet t.bitBuf k = some 0

/-- R208, R209: after MOD and DEMOD with the same parameters BIT_LEN is what it was, and a bit decodes as 1 exactly if it was 1
and some quantized carrier sample of its window is not 0. -/
def Obligations.ModemRoundTrip : Prop :=
  ∀ s : State, s.status.halt = false → InputReady .bit s → ParametersOk s →
    s.bitLen.toNat * period s ≤ s.caps.samples.val → s.bitLen.toNat ≤ s.caps.bits.val →
    ∃ t, issueUntilFault [.mod, .demod] s = .next t ∧ t.status.done = true ∧ t.bitLen = s.bitLen ∧
      ∀ k, k < s.bitLen.toNat →
        (bufGet t.bitBuf k = some 1 ∨ bufGet t.bitBuf k = some 0) ∧
        (bufGet t.bitBuf k = some 1 ↔ bufGet s.bitBuf k = some 1 ∧
          ∃ j, j < period s ∧ Num.ideal.quantized s.fs.toNat s.f0.toNat (k * period s + j) 1 ≠ 0)

/-- R133: the ideal instance has the properties P1 to P5. -/
def Obligations.IdealNumericsAreAdmissible : Prop := Num.ideal.Admissible

/-- R120, R11 (log 5): exec and step, which decide every sample and bit in exact integer arithmetic, are the block whose
configuration holds the ideal instance of NUM over the real numbers. -/
def Obligations.ExecIsTheIdealInstance : Prop :=
  (∀ (i : Instr) (s : State), execWith Num.ideal i s = exec i s) ∧ ∀ s : State, stepWith Num.ideal s = step s

/-- R126, R133, R157, R230: under every admissible record NUM a command always ends, and every sample a successful MOD leaves lies
in -32767 to 32767. Under any record whatever, MOD past its checks has no next state exactly where some scaled value it needs
has a magnitude of 32768 or more (93 U3; log 6). -/
def Obligations.AdmissibleNumericsNeverStop : Prop :=
  (∀ (N : Sys2Proof.Num) (i : Instr) (s : State), N.Admissible → ∃ t, execWith N i s = .next t ∧
    (i = .mod → s.status.halt = false → t.status.done = true →
      ∀ n, n < t.sampLen.toNat → ∃ v : Sample, bufGet t.sampBuf n = some v ∧ -32767 ≤ v.toInt ∧ v.toInt ≤ 32767)) ∧
  ∀ (N : Sys2Proof.Num) (s : State), s.status.halt = false → InputReady .bit s → ParametersOk s →
    s.bitLen.toNat * period s ≤ s.caps.samples.val →
    (execWith N .mod s = .fault .quantizerRange ↔
      ∃ i j b, i < s.bitLen.toNat ∧ j < period s ∧ bufGet s.bitBuf i = some b ∧
        32768 ≤ |N.scale (Num.amp b) (N.carr s.fs.toNat s.f0.toNat (i * period s + j))|) ∧
    (execWith N .mod s ≠ .fault .quantizerRange → ∃ t, execWith N .mod s = .next t ∧ t.status.done = true)

/-! ## PACK -/

/-- R221: PACK's faults, in their order. -/
def Obligations.PackFaults : Prop :=
  ∀ s : State, s.status.halt = false →
    (¬ InputReady .bit s → ∃ t, exec .pack s = .next t ∧ Faulted s .ioError 1 (some .byte) t) ∧
    (InputReady .bit s → s.caps.bytes.val < (s.bitLen.toNat + 7) / 8 →
      ∃ t, exec .pack s = .next t ∧
        Faulted s .allocationError (BitVec.ofNat 32 ((s.bitLen.toNat + 7) / 8)) (some .byte) t)

/-- R220, R222, R223: PACK on a ready BITBUF that fits writes to byte `m` the sum of `bit (8m + j) * 2^(7-j)`, a bit beyond the
length counting 0, leaves no value beyond, writes BYTE_LEN, BYTE_V and DONE, and changes nothing else. -/
def Obligations.PackPacksBits : Prop :=
  ∀ s : State, s.status.halt = false → InputReady .bit s → (s.bitLen.toNat + 7) / 8 ≤ s.caps.bytes.val →
    ∃ t, exec .pack s = .next t ∧ t.byteLen.toNat = (s.bitLen.toNat + 7) / 8 ∧
      (∀ m, m < (s.bitLen.toNat + 7) / 8 → ∃ v : Byte, bufGet t.byteBuf m = some v ∧
        v.toNat = ∑ j ∈ Finset.range 8,
          (if 8 * m + j < s.bitLen.toNat ∧ bufGet s.bitBuf (8 * m + j) = some 1 then 2 ^ (7 - j) else 0)) ∧
      (∀ k, (s.bitLen.toNat + 7) / 8 ≤ k → bufGet t.byteBuf k = none) ∧
      t = { s with status := { s.status with done := true }, valid := { s.valid with byteV := true },
                   byteLen := t.byteLen, byteBuf := t.byteBuf }

/-- R144 (b): BITX and then PACK restores the byte buffer. -/
def Obligations.PackUndoesBitx : Prop :=
  ∀ s : State, s.status.halt = false → InputReady .byte s → 8 * s.byteLen.toNat ≤ s.caps.bits.val →
    s.byteLen.toNat ≤ s.caps.bytes.val →
    ∃ t, issueUntilFault [.bitx, .pack] s = .next t ∧ t.status.done = true ∧ t.byteLen = s.byteLen ∧
      ∀ i, i < s.byteLen.toNat → bufGet t.byteBuf i = bufGet s.byteBuf i

/-- R144 (c): PACK and then BITX gives the bit sequence padded with zeros to a multiple of 8. -/
def Obligations.BitxOfPackPadsWithZeros : Prop :=
  ∀ s : State, s.status.halt = false → InputReady .bit s → (s.bitLen.toNat + 7) / 8 ≤ s.caps.bytes.val →
    8 * ((s.bitLen.toNat + 7) / 8) ≤ s.caps.bits.val →
    ∃ t, issueUntilFault [.pack, .bitx] s = .next t ∧ t.status.done = true ∧
      t.bitLen.toNat = 8 * ((s.bitLen.toNat + 7) / 8) ∧
      (∀ k, k < s.bitLen.toNat → bufGet t.bitBuf k = bufGet s.bitBuf k) ∧
      (∀ k, s.bitLen.toNat ≤ k → k < 8 * ((s.bitLen.toNat + 7) / 8) → bufGet t.bitBuf k = some 0)

/-! ## Pseudo-commands -/

/-- R241: because a fault halts the block, issuing a pseudo-command's later commands after a fault changes nothing: the stop
rule and the sequence without it end alike. -/
def Obligations.StopRuleIsEnforcedByTheBlock : Prop :=
  ∀ (p : Pseudo) (s : State), issueUntilFault (pseudoCommands p) s = issueAll (pseudoCommands p) s

/-- R238: MODULATE ends with `SAMP_LEN = 8 * BYTE_LEN * (FS div BAUD)`, where its two commands succeed. -/
def Obligations.ModulateLength : Prop :=
  ∀ s : State, s.status.halt = false → InputReady .byte s → ParametersOk s → 8 * s.byteLen.toNat ≤ s.caps.bits.val →
    8 * s.byteLen.toNat * period s ≤ s.caps.samples.val →
    ∃ t, issueUntilFault (pseudoCommands .modulate) s = .next t ∧ t.status.done = true ∧ t.valid.sampV = true ∧
      t.sampLen.toNat = 8 * s.byteLen.toNat * period s

/-- R239: DEMODULATE ends with `BYTE_LEN = ceil8 (SAMP_LEN div (FS div BAUD))`, where its two commands succeed. -/
def Obligations.DemodulateLength : Prop :=
  ∀ s : State, s.status.halt = false → InputReady .samp s → ParametersOk s →
    s.sampLen.toNat / period s ≤ s.caps.bits.val → (s.sampLen.toNat / period s + 7) / 8 ≤ s.caps.bytes.val →
    ∃ t, issueUntilFault (pseudoCommands .demodulate) s = .next t ∧ t.status.done = true ∧ t.valid.byteV = true ∧
      t.byteLen.toNat = (s.sampLen.toNat / period s + 7) / 8

/-- R240: ENCODE ends with `FILE_LEN = 44 + 16 * BYTE_LEN * (FS div BAUD)`, where its three commands succeed. -/
def Obligations.EncodeLength : Prop :=
  ∀ s : State, s.status.halt = false → InputReady .byte s → ParametersOk s → 8 * s.byteLen.toNat ≤ s.caps.bits.val →
    8 * s.byteLen.toNat * period s ≤ s.caps.samples.val → 44 + 16 * s.byteLen.toNat * period s ≤ s.caps.file.val →
    ∃ t, issueUntilFault (pseudoCommands .encode) s = .next t ∧ t.status.done = true ∧ t.valid.fileV = true ∧
      t.fileLen.toNat = 44 + 16 * s.byteLen.toNat * period s

/-- R209 (iii), R210: MODULATE and then DEMODULATE ends without a fault, with BYTE_LEN as it was; and it restores the bytes exactly
if the window of every bit that is 1 has a sample index whose quantized carrier is not 0. -/
def Obligations.ByteRoundTrip : Prop :=
  ∀ s : State, s.status.halt = false → InputReady .byte s → ParametersOk s → s.byteLen.toNat ≤ s.caps.bytes.val →
    8 * s.byteLen.toNat ≤ s.caps.bits.val → 8 * s.byteLen.toNat * period s ≤ s.caps.samples.val →
    ∃ t, issueUntilFault (pseudoCommands .modulate ++ pseudoCommands .demodulate) s = .next t ∧
      t.status.done = true ∧ t.byteLen = s.byteLen ∧
      ((∀ i, i < s.byteLen.toNat → bufGet t.byteBuf i = bufGet s.byteBuf i) ↔
        ∀ i j b, i < s.byteLen.toNat → j < 8 → bufGet s.byteBuf i = some b → b.toNat / 2 ^ (7 - j) % 2 = 1 →
          ∃ m, m < period s ∧
            Num.ideal.quantized s.fs.toNat s.f0.toNat ((8 * i + j) * period s + m) 1 ≠ 0)

/-- R209 (iii) with R177: the same of ENCODE and then DECODE, through the container, for at least one byte; FS comes back as
well. -/
def Obligations.ContainerRoundTrip : Prop :=
  ∀ s : State, s.status.halt = false → InputReady .byte s → ParametersOk s → s.byteLen.toNat ≤ s.caps.bytes.val →
    8 * s.byteLen.toNat ≤ s.caps.bits.val → 8 * s.byteLen.toNat * period s ≤ s.caps.samples.val →
    44 + 16 * s.byteLen.toNat * period s ≤ s.caps.file.val → 1 ≤ s.byteLen.toNat →
    ∃ t, issueUntilFault (pseudoCommands .encode ++ pseudoCommands .decode) s = .next t ∧
      t.status.done = true ∧ t.byteLen = s.byteLen ∧ t.fs = s.fs ∧
      ((∀ i, i < s.byteLen.toNat → bufGet t.byteBuf i = bufGet s.byteBuf i) ↔
        ∀ i j b, i < s.byteLen.toNat → j < 8 → bufGet s.byteBuf i = some b → b.toNat / 2 ^ (7 - j) % 2 = 1 →
          ∃ m, m < period s ∧
            Num.ideal.quantized s.fs.toNat s.f0.toNat ((8 * i + j) * period s + m) 1 ≠ 0)

/-! ## The host's accesses -/

/-- R22, R23, R33, R37: what a host read of any register but BUF_DATA returns: the register, STATUS and VALID with their fields
in place, and 0 for CMD and the reserved offsets. It changes nothing but the record of reads (log 3). -/
def Obligations.RegisterReads : Prop :=
  ∀ (s : State) (off : Nat), s.status.busy = false → off % 4 = 0 → off ≠ 0x34 →
    hostAct (.read off) s = .next { s with reads := s.reads ++ [
      if off = 0x04 then statusWord s.status
      else if off = 0x08 then s.fs else if off = 0x0C then s.baud else if off = 0x10 then s.f0
      else if off = 0x14 then s.ns else if off = 0x18 then s.byteLen else if off = 0x1C then s.bitLen
      else if off = 0x20 then s.sampLen else if off = 0x24 then s.fileLen
      else if off = 0x28 then validWord s.valid else if off = 0x2C then bufIndex s.bufSel
      else if off = 0x30 then s.bufAddr else if off = 0x38 then s.errInfo else 0] }

/-- R23, R100: the fields of STATUS stand where the table says: BUSY, DONE, HALT in bits 0, 1, 2, the fault's code in bits 7:4,
and bit 3 and bits 31:8 read 0. -/
def Obligations.StatusFields : Prop :=
  ∀ t : Status, (statusWord t).getLsbD 0 = t.busy ∧ (statusWord t).getLsbD 1 = t.done ∧
    (statusWord t).getLsbD 2 = t.halt ∧ (statusWord t).getLsbD 3 = false ∧
    ((statusWord t).extractLsb' 4 4).toNat = (match t.err with
      | .none => 0 | .ioError => 1 | .allocationError => 2 | .malformedContainer => 3 | .illegalCommand => 4
      | .invalidParameter => 5) ∧
    (statusWord t).extractLsb' 8 24 = 0

/-- R21, R32, R33, R37: what a host write to any register but CMD, BUF_DATA and the lengths does: the read-write registers hold
the word, VALID and BUF_SEL its low bits; STATUS, NS, ERR_INFO and the reserved offsets ignore it; nothing else changes. -/
def Obligations.RegisterWrites : Prop :=
  ∀ (s : State) (off : Nat) (w : Word), s.status.busy = false → off % 4 = 0 →
    off ∉ [0x00, 0x18, 0x1C, 0x20, 0x24, 0x34] →
    ∃ t, hostAct (.write off w) s = .next t ∧
      (if off = 0x08 then t = { s with fs := w } else if off = 0x0C then t = { s with baud := w }
       else if off = 0x10 then t = { s with f0 := w } else if off = 0x30 then t = { s with bufAddr := w }
       else if off = 0x28 then t = { s with valid := t.valid } ∧ validWord t.valid = w &&& 0xF
       else if off = 0x2C then t = { s with bufSel := t.bufSel } ∧ bufIndex t.bufSel = w &&& 0x3
       else t = s)

/-- R28 to R31: a host write of a length holds the value where it is at most the capacity, and is ignored where it is greater;
nothing else changes. -/
def Obligations.LengthWrites : Prop :=
  ∀ (s : State) (x : BufId) (w : Word), s.status.busy = false →
    ∃ t, hostAct (.write (lenOffset x) w) s = .next t ∧
      (if w.toNat ≤ capacity s.caps x then
         lengthOf x t = w.toNat ∧ (∀ y, y ≠ x → lengthOf y t = lengthOf y s) ∧
           { t with byteLen := s.byteLen, bitLen := s.bitLen, sampLen := s.sampLen, fileLen := s.fileLen } = s
       else t = s)

/-- R35: a host write of BUF_DATA below the capacity stores the low bits of the word in the selected element and changes no other
element and no register; at or beyond the capacity it is ignored. -/
def Obligations.PortWrites : Prop :=
  ∀ (s : State) (w : Word), s.status.busy = false →
    ∃ t, hostAct (.write 0x34 w) s = .next t ∧
      (if s.bufAddr.toNat < capacity s.caps s.bufSel then
         element s.bufSel t s.bufAddr.toNat = some (elementWord s.bufSel w) ∧
         (∀ x i, (x ≠ s.bufSel ∨ i ≠ s.bufAddr.toNat) → element x t i = element x s i) ∧
         { t with byteBuf := s.byteBuf, bitBuf := s.bitBuf, sampBuf := s.sampBuf, fileBuf := s.fileBuf } = s
       else t = s)

/-- R35: a host read of BUF_DATA returns the selected element where it lies below the capacity and holds a value. Else the word is
arbitrary: whatever free value comes next (log 4). It changes nothing but the record of reads and the count of free values. -/
def Obligations.PortReads : Prop :=
  ∀ s : State, s.status.busy = false →
    (∀ v, s.bufAddr.toNat < capacity s.caps s.bufSel → element s.bufSel s s.bufAddr.toNat = some v →
      hostAct (.read 0x34) s = .next { s with reads := s.reads ++ [v] }) ∧
    ((capacity s.caps s.bufSel ≤ s.bufAddr.toNat ∨ element s.bufSel s s.bufAddr.toNat = none) →
      hostAct (.read 0x34) s
        = .next { s with reads := s.reads ++ [Config.portDraw s.draws], draws := s.draws + 1 })

/-- R64: an access at an offset that is no multiple of 4, or of a width other than 32 bits, is refused. -/
def Obligations.OddAccessesAreRefused : Prop :=
  ∀ (s : State) (off bits : Nat) (w : Word),
    hostAct (.otherWidth off bits) s = .refused .hostAccessWidth ∧
    (off % 4 ≠ 0 → hostAct (.read off) s = .refused .hostAccessMisaligned ∧
      hostAct (.write off w) s = .refused .hostAccessMisaligned)

/-- R305 (log 7): while BUSY is 1 every write, and every read but that of STATUS, is refused. -/
def Obligations.BusyBlockRefusesAccesses : Prop :=
  ∀ (s : State) (off : Nat) (w : Word), s.status.busy = true → off % 4 = 0 →
    hostAct (.write off w) s = .refused .hostAccessWhileBusy ∧
    (off ≠ 0x04 → hostAct (.read off) s = .refused .hostAccessWhileBusy) ∧
    hostAct (.read 0x04) s = .next { s with reads := s.reads ++ [statusWord s.status] }

/-- R35, R101: LOAD, taken as the sequence of accesses it stands for, leaves the elements in the buffer, its length register
holding their number and its flag 1, and takes nothing more of the host's queue. That the other flags stay is the model's: LOAD
is told them, since VALID is one register (log 14). -/
def Obligations.LoadFillsTheBuffer : Prop :=
  ∀ (x : BufId) (els : List Word) (s : State) (rest : List HostAction), s.status.busy = false →
    els.length ≤ capacity s.caps x →
    ∃ t, Host.Core.run Sys2Proof.core (loadActions x els s.valid).length
        { s with queue := loadActions x els s.valid ++ rest } = .next t ∧
      t.queue = rest ∧ validFlag t.valid x = true ∧ (∀ y, y ≠ x → validFlag t.valid y = validFlag s.valid y) ∧
      lengthOf x t = els.length ∧
      (∀ i w, els[i]? = some w → element x t i = some (elementWord x w)) ∧
      (∀ i, els.length ≤ i → element x t i = element x s i) ∧
      (∀ y i, y ≠ x → element y t i = element y s i ∧ lengthOf y t = lengthOf y s)

/-- R35, R101: READ, taken as the sequence of accesses it stands for, returns the elements of the buffer in order. -/
def Obligations.ReadReturnsTheBuffer : Prop :=
  ∀ (x : BufId) (n : Nat) (s : State) (rest : List HostAction), s.status.busy = false →
    n ≤ capacity s.caps x → (∀ i, i < n → holdsValue x s i = true) →
    ∃ t, Host.Core.run Sys2Proof.core (readActions x n).length { s with queue := readActions x n ++ rest } = .next t ∧
      t.reads = s.reads ++ (List.range n).map (fun i => (element x s i).getD 0) ∧
      t = { s with queue := rest, reads := t.reads, bufSel := x, bufAddr := t.bufAddr }

/-! ## Reset and the invariant -/

/-- R48: the values State.reset gives the spec's state. -/
def Obligations.ResetStateValues : Prop :=
  State.reset.status = { busy := false, done := false, halt := false, err := .none } ∧
  statusWord State.reset.status = 0 ∧ State.reset.fs = 0 ∧ State.reset.baud = 0 ∧ State.reset.f0 = 0 ∧
  State.reset.ns = 0 ∧ (∀ x, lengthOf x State.reset = 0) ∧ validWord State.reset.valid = 0 ∧
  bufIndex State.reset.bufSel = 0 ∧ State.reset.bufAddr = 0 ∧ State.reset.errInfo = 0 ∧
  ∀ x i, holdsValue x State.reset i = false

/-- R300: asserting `rst`, in any state, puts every register, flag and buffer in the reset state. (That the capacities and the
host's side stay is the model's: log 13.) -/
def Obligations.ResetInputResets : Prop :=
  ∀ s : State, ∃ t, hostAct .rst s = .next t ∧
    t = { State.reset with caps := s.caps, queue := s.queue, reads := s.reads, draws := s.draws }

/-- Log 2: with no action of the host waiting, a step changes nothing. -/
def Obligations.IdleBlockHoldsItsState : Prop := ∀ s : State, s.queue = [] → step s = .next s

/-- The reset state meets the invariant. -/
def Obligations.ResetMeetsTheInvariant : Prop := Inv State.reset

/-- R47: every step keeps the invariant: lengths within capacities, HALT exactly with a fault recorded, DONE only without HALT,
BUSY 0, ERR_INFO 0 without a fault, and the buffers in canonical form within their capacities. So does every step of the block
whose configuration holds another record NUM, admissible or not (R11). -/
def Obligations.StepKeepsTheInvariant : Prop :=
  (∀ s t : State, Inv s → step s = .next t → Inv t) ∧
  ∀ (N : Sys2Proof.Num) (s t : State), Inv s → stepWith N s = .next t → Inv t

/-- R230, R305: from a state that meets the invariant no step stops the model, unless the host's next action is an access outside
the interface (an offset that is no multiple of 4, or another width). The same holds of every admissible record NUM. -/
def Obligations.StepStopsOnlyOutsideTheInterface : Prop :=
  ∀ s : State, Inv s →
    (∀ a ∈ s.queue.head?, match a with
      | .write off _ => off % 4 = 0
      | .read off => off % 4 = 0
      | .otherWidth _ _ => False
      | .rst => True) →
    (∃ t, step s = .next t) ∧ ∀ N : Sys2Proof.Num, N.Admissible → ∃ t, stepWith N s = .next t
end

