-- ==== Sys2Proof/Laws/Buffers.lean ====
section
/-! SUPPORT. What the buffer operations of Machine/Ops.lean do: reading after writing, the canonical form, the capacity, and the
elements of a slice. -/

namespace Sys2Proof.Machine

variable {w : Nat}

/-! ## Reading -/

@[simp] theorem bufGet_nil (i : Nat) : bufGet ([] : Buf w) i = none := rfl

theorem bufGet_bufSet_self (b : Buf w) (i : Nat) (v : BitVec w) : bufGet (bufSet b i v) i = some v := by
  induction b with
  | nil => simp [bufSet, bufGet]
  | cons c rest ih =>
    obtain ⟨a, u⟩ := c
    rcases Nat.lt_trichotomy i a with h | rfl | h
    · simp [bufSet, bufGet, h]
    · simp [bufSet, bufGet]
    · simp [bufSet, bufGet, Nat.lt_asymm h, Nat.ne_of_gt h, Nat.ne_of_lt h, ih]

theorem bufGet_bufSet_of_ne (b : Buf w) {i j : Nat} (v : BitVec w) (h : j ≠ i) :
    bufGet (bufSet b i v) j = bufGet b j := by
  induction b with
  | nil => simp [bufSet, bufGet, h.symm]
  | cons c rest ih =>
    obtain ⟨a, u⟩ := c
    rcases Nat.lt_trichotomy i a with hi | rfl | hi
    · simp [bufSet, bufGet, hi, h.symm]
    · simp [bufSet, bufGet, h.symm]
    · simp [bufSet, bufGet, Nat.lt_asymm hi, Nat.ne_of_gt hi, ih]

theorem bufGet_bufCells (vs : List (BitVec w)) (start i : Nat) :
    bufGet (bufCells start vs) i = if i < start then none else vs[i - start]? := by
  induction vs generalizing start with
  | nil => simp [bufCells]
  | cons v vs ih =>
    rw [bufCells, bufGet, ih]
    rcases Nat.lt_trichotomy i start with h | rfl | h
    · simp [h, Nat.ne_of_gt h, Nat.lt_succ_of_lt h]
    · simp
    · have h1 : i - start = (i - (start + 1)) + 1 := by omega
      simp [Nat.ne_of_lt h, Nat.lt_asymm h, Nat.not_lt.mpr (Nat.succ_le_of_lt h), h1]

/-- A command's output: the element at an index is the output's, and there is none beyond its length (R45). -/
@[simp] theorem bufGet_bufOfList (vs : List (BitVec w)) (i : Nat) : bufGet (bufOfList vs) i = vs[i]? := by
  simp [bufOfList, bufGet_bufCells]

/-! ## Slices -/

/-- A slice is there exactly when it lists the elements from its start on, each holding a value. -/
theorem bufSlice_eq_some_iff (b : Buf w) (start n : Nat) (vs : List (BitVec w)) :
    bufSlice b start n = some vs ↔ vs.length = n ∧ ∀ i, i < n → bufGet b (start + i) = vs[i]? := by
  induction n generalizing start vs with
  | zero => simp [bufSlice, eq_comm]
  | succ n ih =>
    have hstep : ∀ (v : BitVec w) (vs : List (BitVec w)),
        (∀ i, i < n + 1 → bufGet b (start + i) = (v :: vs)[i]?) ↔
          bufGet b start = some v ∧ ∀ i, i < n → bufGet b (start + 1 + i) = vs[i]? := by
      intro v vs
      constructor
      · intro h
        refine ⟨by simpa using h 0 (by omega), fun i hi => ?_⟩
        simpa [Nat.add_assoc, Nat.add_comm 1] using h (i + 1) (by omega)
      · rintro ⟨h0, h⟩ i hi
        cases i with
        | zero => simpa using h0
        | succ i => simpa [Nat.add_assoc, Nat.add_comm 1] using h i (by omega)
    cases vs with
    | nil =>
      simp only [bufSlice]
      split <;> simp
    | cons v vs =>
      rw [hstep, List.length_cons, Nat.add_right_cancel_iff]
      simp only [bufSlice]
      cases h1 : bufGet b start <;> cases h2 : bufSlice b (start + 1) n
      · simp
      · simp
      · have := (not_congr (ih (start + 1) vs)).mp (by simp [h2])
        simp only [reduceCtorEq, false_iff]
        rintro ⟨hl, -, h⟩
        exact this ⟨hl, h⟩
      · rename_i u us
        have hu := ih (start + 1) vs
        rw [h2] at hu
        simp only [Option.some.injEq, List.cons.injEq] at hu ⊢
        rw [hu]
        exact ⟨fun h => ⟨h.2.1, h.1, h.2.2⟩, fun h => ⟨h.2.1, h.1, h.2.2⟩⟩

/-- A slice is there exactly when every element of it holds a value. -/
theorem bufSlice_isSome_iff (b : Buf w) (start n : Nat) :
    (bufSlice b start n).isSome ↔ ∀ i, i < n → (bufGet b (start + i)).isSome := by
  induction n generalizing start with
  | zero => simp [bufSlice]
  | succ n ih =>
    have hs : (∀ i, i < n + 1 → (bufGet b (start + i)).isSome) ↔
        (bufGet b start).isSome ∧ ∀ i, i < n → (bufGet b (start + 1 + i)).isSome := by
      constructor
      · intro h
        exact ⟨by simpa using h 0 (by omega), fun i hi => by
          simpa [Nat.add_assoc, Nat.add_comm 1] using h (i + 1) (by omega)⟩
      · rintro ⟨h0, h⟩ i hi
        cases i with
        | zero => simpa using h0
        | succ i => simpa [Nat.add_assoc, Nat.add_comm 1] using h i (by omega)
    rw [hs, ← ih]
    cases h1 : bufGet b start <;> cases h2 : bufSlice b (start + 1) n <;> simp [bufSlice, h1, h2]

theorem bufSlice_length {b : Buf w} {start n : Nat} {vs : List (BitVec w)} (h : bufSlice b start n = some vs) :
    vs.length = n := ((bufSlice_eq_some_iff b start n vs).mp h).1

theorem bufSlice_getElem? {b : Buf w} {n : Nat} {vs : List (BitVec w)} (h : bufSlice b 0 n = some vs) {i : Nat}
    (hi : i < n) : vs[i]? = bufGet b i := by
  simpa using (((bufSlice_eq_some_iff b 0 n vs).mp h).2 i hi).symm

/-- The slice of a command's whole output is that output. -/
theorem bufSlice_bufOfList (vs : List (BitVec w)) : bufSlice (bufOfList vs) 0 vs.length = some vs := by
  rw [bufSlice_eq_some_iff]
  exact ⟨rfl, fun i _ => by simp⟩

/-- A part of a slice that is there is the same part of its elements. -/
theorem bufSlice_part {b : Buf w} {m : Nat} {vs : List (BitVec w)} (h : bufSlice b 0 m = some vs) {start n : Nat}
    (hn : start + n ≤ m) : bufSlice b start n = some ((vs.drop start).take n) := by
  have hl := bufSlice_length h
  rw [bufSlice_eq_some_iff]
  refine ⟨by rw [List.length_take, List.length_drop]; omega, fun i hi => ?_⟩
  rw [List.getElem?_take_of_lt hi, List.getElem?_drop, bufSlice_getElem? h (by omega)]

/-! ## The canonical form -/

theorem bufRising_mono {lo lo' : Nat} {b : Buf w} (h : lo' ≤ lo) (hb : bufRising lo b = true) :
    bufRising lo' b = true := by
  cases b with
  | nil => rfl
  | cons c rest =>
    simp only [bufRising, Bool.and_eq_true, decide_eq_true_eq] at hb ⊢
    exact ⟨by omega, hb.2⟩

theorem bufRising_bufSet {lo i : Nat} {b : Buf w} (v : BitVec w) (hi : lo ≤ i) (hb : bufRising lo b = true) :
    bufRising lo (bufSet b i v) = true := by
  induction b generalizing lo with
  | nil => simp [bufSet, bufRising, hi]
  | cons c rest ih =>
    obtain ⟨a, u⟩ := c
    simp only [bufRising, Bool.and_eq_true, decide_eq_true_eq] at hb
    rcases Nat.lt_trichotomy i a with h | rfl | h
    · have : i + 1 ≤ a := h
      simp [bufSet, bufRising, h, hi, this, hb.2]
    · simp [bufSet, bufRising, hi, hb.2]
    · simp [bufSet, bufRising, Nat.lt_asymm h, Nat.ne_of_gt h, hb.1, ih (Nat.succ_le_of_lt h) hb.2]

/-- A write keeps the canonical form. -/
theorem bufWf_bufSet {b : Buf w} (i : Nat) (v : BitVec w) (hb : bufWf b = true) : bufWf (bufSet b i v) = true :=
  bufRising_bufSet v (Nat.zero_le i) hb

theorem bufRising_bufCells (lo start : Nat) (vs : List (BitVec w)) (h : lo ≤ start) :
    bufRising lo (bufCells start vs) = true := by
  induction vs generalizing lo start with
  | nil => rfl
  | cons v vs ih => simp [bufCells, bufRising, h, ih]

/-- A command's output is in canonical form. -/
@[simp] theorem bufWf_bufOfList (vs : List (BitVec w)) : bufWf (bufOfList vs) = true :=
  bufRising_bufCells 0 0 vs (Nat.le_refl 0)

@[simp] theorem bufWf_nil : bufWf ([] : Buf w) = true := rfl

/-- Every listed index is at least the form's bound, so nothing below it holds a value. -/
theorem bufGet_of_rising {lo i : Nat} {b : Buf w} (hb : bufRising lo b = true) (hi : i < lo) : bufGet b i = none := by
  induction b generalizing lo with
  | nil => rfl
  | cons c rest ih =>
    obtain ⟨a, u⟩ := c
    simp only [bufRising, Bool.and_eq_true, decide_eq_true_eq] at hb
    have : a ≠ i := by omega
    simp only [bufGet, if_neg this]
    exact ih hb.2 (by omega)

/-- The form is canonical: buffers in it that hold the same elements are equal. -/
theorem buf_ext {b c : Buf w} (hb : bufWf b = true) (hc : bufWf c = true) (h : ∀ i, bufGet b i = bufGet c i) :
    b = c := by
  suffices ∀ lo, bufRising lo b = true → bufRising lo c = true → b = c from this 0 hb hc
  clear hb hc
  induction b generalizing c with
  | nil =>
    intro lo _ _
    cases c with
    | nil => rfl
    | cons d rest => simpa [bufGet] using h d.1
  | cons d rest ih =>
    obtain ⟨a, u⟩ := d
    intro lo hb hc
    simp only [bufRising, Bool.and_eq_true, decide_eq_true_eq] at hb
    cases c with
    | nil => simpa [bufGet] using h a
    | cons e rest' =>
      obtain ⟨a', u'⟩ := e
      simp only [bufRising, Bool.and_eq_true, decide_eq_true_eq] at hc
      have haa : a = a' := by
        by_contra hne
        rcases Nat.lt_or_gt_of_ne hne with hlt | hlt
        · have := h a
          simp only [bufGet, if_pos, if_neg (Ne.symm hne)] at this
          rw [bufGet_of_rising hc.2 (by omega)] at this
          simp at this
        · have := h a'
          simp only [bufGet, if_pos, if_neg hne] at this
          rw [bufGet_of_rising hb.2 (by omega)] at this
          simp at this
      subst haa
      have hu : u = u' := by simpa [bufGet] using h a
      subst hu
      congr 1
      refine ih (fun i => ?_) (a + 1) hb.2 hc.2
      by_cases hi : a = i
      · subst hi
        rw [bufGet_of_rising hb.2 (by omega), bufGet_of_rising hc.2 (by omega)]
      · simpa [bufGet, hi] using h i

/-! ## The capacity -/

theorem bufWithin_bufSet {cap i : Nat} {b : Buf w} (v : BitVec w) (hi : i < cap) (hb : bufWithin cap b = true) :
    bufWithin cap (bufSet b i v) = true := by
  induction b with
  | nil => simp [bufSet, bufWithin, hi]
  | cons c rest ih =>
    obtain ⟨a, u⟩ := c
    simp only [bufWithin, List.all_cons, Bool.and_eq_true, decide_eq_true_eq] at hb ih ⊢
    rcases Nat.lt_trichotomy i a with h | rfl | h
    · simpa [bufSet, h, hi] using hb
    · simpa [bufSet, hi] using hb.2
    · simpa [bufSet, Nat.lt_asymm h, Nat.ne_of_gt h, hb.1] using ih hb.2

theorem bufWithin_bufCells {cap start : Nat} {vs : List (BitVec w)} (h : start + vs.length ≤ cap) :
    bufWithin cap (bufCells start vs) = true := by
  induction vs generalizing start with
  | nil => rfl
  | cons v vs ih =>
    have hl : start + (vs.length + 1) ≤ cap := by simpa using h
    have h1 : start + 1 + vs.length ≤ cap := by omega
    have h2 : start < cap := by omega
    simpa [bufCells, bufWithin, h2] using ih h1

theorem bufWithin_bufOfList {cap : Nat} {vs : List (BitVec w)} (h : vs.length ≤ cap) :
    bufWithin cap (bufOfList vs) = true := bufWithin_bufCells (by omega)

@[simp] theorem bufWithin_nil (cap : Nat) : bufWithin cap ([] : Buf w) = true := rfl

/-- Within the capacity, nothing at or beyond it holds a value. -/
theorem bufGet_of_within {cap i : Nat} {b : Buf w} (hb : bufWithin cap b = true) (hi : cap ≤ i) : bufGet b i = none := by
  induction b with
  | nil => rfl
  | cons c rest ih =>
    obtain ⟨a, u⟩ := c
    simp only [bufWithin, List.all_cons, Bool.and_eq_true, decide_eq_true_eq] at hb
    have : a ≠ i := by omega
    simpa [bufGet, this] using ih hb.2

/-! ## Little-endian fields -/

@[simp] theorem leBytes_length (n v : Nat) : (leBytes n v).length = n := by
  induction n generalizing v with
  | zero => rfl
  | succ n ih => simp [leBytes, ih]

/-- Reading back the little-endian bytes of a number gives its low bits. -/
theorem leNat_leBytes (n v : Nat) : leNat (leBytes n v) = v % 256 ^ n := by
  induction n generalizing v with
  | zero => simp [leBytes, leNat, Nat.mod_one]
  | succ n ih =>
    rw [leBytes, leNat, ih, BitVec.toNat_ofNat, show 256 ^ (n + 1) = 256 * 256 ^ n from Nat.pow_succ', Nat.mod_mul]

theorem leNat_lt (bs : List Byte) : leNat bs < 256 ^ bs.length := by
  induction bs with
  | nil => simp [leNat]
  | cons b bs ih =>
    have := b.isLt
    simp only [leNat, List.length_cons, Nat.pow_succ]
    omega

end Sys2Proof.Machine
end

