-- ==== Sys2Proof/Laws/Formats.lean ====
section
/-! SUPPORT. The elements of what BITX, PACK, WAVWR and WAVRD write, one by one. -/

namespace Sys2Proof.Machine

/-! ## BITX (R143) -/

theorem bitsOfByte_getElem? (b : Byte) (j : Nat) (hj : j < 8) :
    (bitsOfByte b)[j]? = some (BitVec.ofNat 1 (b.toNat / 2 ^ (7 - j) % 2)) := by
  have h : ∀ k, b.extractLsb' k 1 = BitVec.ofNat 1 (b.toNat / 2 ^ k % 2) := fun k => by
    apply BitVec.eq_of_toNat_eq
    simp [Nat.shiftRight_eq_div_pow]
  have hj' : j = 0 ∨ j = 1 ∨ j = 2 ∨ j = 3 ∨ j = 4 ∨ j = 5 ∨ j = 6 ∨ j = 7 := by omega
  rcases hj' with rfl | rfl | rfl | rfl | rfl | rfl | rfl | rfl <;> simp [bitsOfByte, h]

theorem bitsOfBytes_getElem? (bs : List Byte) (i j : Nat) (b : Byte) (hb : bs[i]? = some b) (hj : j < 8) :
    (bitsOfBytes bs)[8 * i + j]? = some (BitVec.ofNat 1 (b.toNat / 2 ^ (7 - j) % 2)) := by
  induction bs generalizing i with
  | nil => simp at hb
  | cons c bs ih =>
    have hl : (bitsOfByte c).length = 8 := rfl
    rw [bitsOfBytes]
    cases i with
    | zero =>
      simp only [List.getElem?_cons_zero, Option.some.injEq] at hb
      subst hb
      rw [List.getElem?_append_left (by omega)]
      simpa using bitsOfByte_getElem? c j hj
    | succ i =>
      rw [List.getElem?_append_right (by omega), hl, show 8 * (i + 1) + j - 8 = 8 * i + j by omega]
      exact ih i (by simpa using hb)

theorem bitsOfBytes_length (bs : List Byte) : (bitsOfBytes bs).length = 8 * bs.length := by
  induction bs with
  | nil => rfl
  | cons b bs ih => simp [bitsOfBytes, bitsOfByte, ih]; omega

/-! ## PACK (R222) -/

theorem packBits_length (m : Nat) (bits : List Bit) : (packBits m bits).length = m := by
  induction m generalizing bits with
  | zero => rfl
  | succ m ih => simp [packBits, ih]

theorem packBits_getElem? (m k : Nat) (bits : List Bit) (hk : k < m) :
    (packBits m bits)[k]? = some (BitVec.ofNat 8 (packedValue 0 ((bits.drop (8 * k)).take 8))) := by
  induction m generalizing k bits with
  | zero => omega
  | succ m ih =>
    cases k with
    | zero => simp [packBits]
    | succ k =>
      rw [packBits, List.getElem?_cons_succ, ih k _ (by omega), List.drop_drop,
        show 8 + 8 * k = 8 * (k + 1) by omega]

/-- The packed value of at most eight bits, as the sum R222 gives: a bit that is not there counts 0. -/
theorem packedValue_eq_sum (j : Nat) (bits : List Bit) (h : j + bits.length ≤ 8) :
    packedValue j bits = ∑ k ∈ Finset.range (8 - j), if bits[k]? = some 1 then 2 ^ (7 - (j + k)) else 0 := by
  induction bits generalizing j with
  | nil => simp [packedValue]
  | cons b bs ih =>
    rw [List.length_cons] at h
    rw [packedValue, ih (j + 1) (by omega), show 8 - j = (8 - (j + 1)) + 1 by omega, Finset.sum_range_succ', add_comm]
    congr 1
    · refine Finset.sum_congr rfl fun k _ => ?_
      rw [List.getElem?_cons_succ, show j + (k + 1) = j + 1 + k by omega]
    · have hb : b = 0 ∨ b = 1 := by revert b; decide
      rcases hb with rfl | rfl <;> simp

theorem packedValue_lt (bits : List Bit) (h : bits.length ≤ 8) : packedValue 0 bits < 256 := by
  rw [packedValue_eq_sum 0 bits (by omega)]
  calc _ ≤ ∑ k ∈ Finset.range 8, 2 ^ (7 - (0 + k)) :=
        Finset.sum_le_sum fun k _ => by split <;> simp
    _ < 256 := by decide

/-- Packing the bits of bytes gives the bytes back. -/
theorem packBits_bitsOfBytes (bs : List Byte) : packBits bs.length (bitsOfBytes bs) = bs := by
  have hbyte : ∀ b : Byte, BitVec.ofNat 8 (packedValue 0 (bitsOfByte b)) = b := by decide +kernel
  induction bs with
  | nil => rfl
  | cons b bs ih =>
    have hl : (bitsOfByte b).length = 8 := rfl
    rw [List.length_cons, packBits, bitsOfBytes, List.take_left' hl, List.drop_left' hl, ih, hbyte]

/-! ## WAVWR (R96, R173) -/

@[simp] theorem headerBytes_length (fs n : Nat) : (headerBytes fs n).length = 44 := by
  simp [headerBytes]

/-- The header's fields of R96, cut out of an image by their offsets and sizes. -/
theorem headerBytes_fields (fs n : Nat) (p : List Byte) :
    ((headerBytes fs n ++ p).drop 0).take 4 = [0x52, 0x49, 0x46, 0x46] ∧
    ((headerBytes fs n ++ p).drop 4).take 4 = leBytes 4 ((36 + 2 * n) % 2 ^ 32) ∧
    ((headerBytes fs n ++ p).drop 8).take 4 = [0x57, 0x41, 0x56, 0x45] ∧
    ((headerBytes fs n ++ p).drop 12).take 4 = [0x66, 0x6D, 0x74, 0x20] ∧
    ((headerBytes fs n ++ p).drop 16).take 4 = leBytes 4 16 ∧
    ((headerBytes fs n ++ p).drop 20).take 2 = leBytes 2 1 ∧
    ((headerBytes fs n ++ p).drop 22).take 2 = leBytes 2 1 ∧
    ((headerBytes fs n ++ p).drop 24).take 4 = leBytes 4 fs ∧
    ((headerBytes fs n ++ p).drop 28).take 4 = leBytes 4 ((fs * 2) % 2 ^ 32) ∧
    ((headerBytes fs n ++ p).drop 32).take 2 = leBytes 2 2 ∧
    ((headerBytes fs n ++ p).drop 34).take 2 = leBytes 2 16 ∧
    ((headerBytes fs n ++ p).drop 36).take 4 = [0x64, 0x61, 0x74, 0x61] ∧
    ((headerBytes fs n ++ p).drop 40).take 4 = leBytes 4 (2 * n) ∧
    (headerBytes fs n ++ p).drop 44 = p := by
  unfold headerBytes
  generalize (36 + 2 * n) % 2 ^ 32 = a
  generalize (fs * 2) % 2 ^ 32 = b
  generalize 2 * n = c
  simp [leBytes]

theorem payloadBytes_length (vs : List Sample) : (payloadBytes vs).length = 2 * vs.length := by
  induction vs with
  | nil => rfl
  | cons v vs ih => simp [payloadBytes, ih]; omega

theorem payloadBytes_getElem? (vs : List Sample) (n : Nat) (v : Sample) (h : vs[n]? = some v) :
    (payloadBytes vs)[2 * n]? = some (BitVec.ofNat 8 v.toNat) ∧
      (payloadBytes vs)[2 * n + 1]? = some (BitVec.ofNat 8 (v.toNat / 256)) := by
  induction vs generalizing n with
  | nil => simp at h
  | cons u vs ih =>
    cases n with
    | zero =>
      simp only [List.getElem?_cons_zero, Option.some.injEq] at h
      subst h
      simp [payloadBytes, leBytes]
    | succ n =>
      have := ih n (by simpa using h)
      simpa [payloadBytes, leBytes, show 2 * (n + 1) = 2 * n + 1 + 1 by omega] using this

/-! ## WAVRD (R186) -/

theorem memRead_lt (image : List Byte) (addr n : Nat) : memRead image addr n < 256 ^ n :=
  (leNat_lt _).trans_le (Nat.pow_le_pow_right (by omega) (by simp))

/-- The declared size is not positive as a signed word exactly when it is 0 or its top bit is set (R183). -/
theorem toInt_ofNat_nonpos_iff {n : Nat} (h : n < 2 ^ 32) : (BitVec.ofNat 32 n).toInt ≤ 0 ↔ n = 0 ∨ 2 ^ 31 ≤ n := by
  rw [BitVec.toInt_eq_toNat_cond, BitVec.toNat_ofNat, Nat.mod_eq_of_lt h]
  split <;> omega

theorem payloadSamples_length_le (n : Nat) (bs : List Byte) : (payloadSamples n bs).length ≤ n := by
  induction n generalizing bs with
  | zero => simp [payloadSamples]
  | succ n ih =>
    rcases bs with - | ⟨lo, - | ⟨hi, rest⟩⟩
    · simp [payloadSamples]
    · simp [payloadSamples]
    · simpa [payloadSamples] using ih rest

theorem payloadSamples_length (n : Nat) (bs : List Byte) (h : 2 * n ≤ bs.length) :
    (payloadSamples n bs).length = n := by
  induction n generalizing bs with
  | zero => simp [payloadSamples]
  | succ n ih =>
    rcases bs with - | ⟨lo, - | ⟨hi, rest⟩⟩
    · simp at h
    · simp at h; omega
    · simp only [payloadSamples, List.length_cons] at h ⊢
      rw [ih rest (by omega)]

theorem payloadSamples_getElem? (n k : Nat) (bs : List Byte) (lo hi : Byte) (hk : k < n)
    (hlo : bs[2 * k]? = some lo) (hhi : bs[2 * k + 1]? = some hi) :
    (payloadSamples n bs)[k]? = some (hi ++ lo) := by
  induction n generalizing k bs with
  | zero => omega
  | succ n ih =>
    rcases bs with - | ⟨b, - | ⟨c, rest⟩⟩
    · simp at hlo
    · simp at hhi
    · cases k with
      | zero => simp_all [payloadSamples]
      | succ k =>
        rw [payloadSamples, List.getElem?_cons_succ]
        refine ih k rest (by omega) ?_ ?_
        · simpa [show 2 * (k + 1) = 2 * k + 1 + 1 by omega] using hlo
        · simpa [show 2 * (k + 1) = 2 * k + 1 + 1 by omega] using hhi

theorem append_toNat (lo hi : Byte) : (hi ++ lo : BitVec 16).toNat = lo.toNat + 256 * hi.toNat := by
  have := lo.isLt
  rw [BitVec.toNat_append, ← Nat.shiftLeft_add_eq_or_of_lt this, Nat.shiftLeft_eq]
  omega

/-- The payload of a container image reads back as the samples it was written from (R97). -/
theorem payloadSamples_payloadBytes (vs : List Sample) : payloadSamples vs.length (payloadBytes vs) = vs := by
  induction vs with
  | nil => rfl
  | cons v vs ih =>
    simp only [payloadBytes, leBytes, List.length_cons, List.cons_append, List.nil_append, payloadSamples, ih]
    congr 1
    apply BitVec.eq_of_toNat_eq
    have := v.isLt
    rw [append_toNat, BitVec.toNat_ofNat, BitVec.toNat_ofNat]
    omega

end Sys2Proof.Machine
end

