-- ==== Sys2Proof/Laws/CosFixed.lean ====
section
/-! SUPPORT. The error of the fixed-point `pi` and cosine of Machine/Numerics.lean: `piFixed_error` and `cosFixed_error`. -/

namespace Sys2Proof.Laws

open Sys2Proof.Machine Finset

/-- Partial sums of an alternating series with terms falling to its sum's limit are off by at most the next term. -/
theorem alternating_error {f : ℕ → ℝ} {l : ℝ} (hf : Antitone f)
    (h : HasSum (fun n => (-1) ^ n * f n) l) (n : ℕ) :
    |∑ i ∈ range n, (-1) ^ i * f i - l| ≤ f n := by
  have ht := h.tendsto_sum_nat
  have hlo := fun k => hf.alternating_series_le_tendsto ht k
  have hhi := fun k => hf.tendsto_le_alternating_series ht k
  rcases Nat.even_or_odd' n with ⟨k, rfl | rfl⟩
  · have h1 := hlo k
    have h2 := hhi k
    rw [sum_range_succ] at h2
    have : ((-1 : ℝ)) ^ (2 * k) = 1 := by simp
    rw [this] at h2
    rw [abs_le]
    constructor <;> linarith
  · have h1 := hlo (k + 1)
    have h2 := hhi k
    rw [show 2 * (k + 1) = 2 * k + 1 + 1 by ring, sum_range_succ] at h1
    have : ((-1 : ℝ)) ^ (2 * k + 1) = -1 := by rw [pow_succ]; simp
    rw [this] at h1
    rw [abs_le]
    constructor <;> linarith

/-- A natural quotient is within one below the real quotient. -/
theorem nat_div_error (a b : ℕ) (hb : 0 < b) :
    0 ≤ (a : ℝ) / b - (a / b : ℕ) ∧ (a : ℝ) / b - (a / b : ℕ) ≤ 1 := by
  have hb' : (0 : ℝ) < b := by exact_mod_cast hb
  have h1 : (a / b : ℕ) * b ≤ a := Nat.div_mul_le_self a b
  have h2 : a < (a / b + 1) * b := by
    have := Nat.lt_div_mul_add (a := a) hb
    rw [add_mul, one_mul]
    exact this
  have h1' : ((a / b : ℕ) : ℝ) * b ≤ a := by exact_mod_cast h1
  have h2' : (a : ℝ) < ((a / b : ℕ) + 1) * b := by exact_mod_cast h2
  constructor
  · rw [sub_nonneg, le_div_iff₀ hb']; exact h1'
  · rw [sub_le_iff_le_add, div_le_iff₀ hb']; linarith

theorem arctanInvFixed_error (p m n : ℕ) (hm : 0 < m) :
    |(arctanInvFixed p m n : ℝ) - 2 ^ p * ∑ i ∈ range n, (-1) ^ i * (((m : ℝ)⁻¹) ^ (2 * i + 1) / (2 * i + 1 : ℕ))| ≤ n := by
  induction n with
  | zero => simp [arctanInvFixed]
  | succ n ih =>
    rw [sum_range_succ, mul_add]
    have hd := nat_div_error (2 ^ p) ((2 * n + 1) * m ^ (2 * n + 1)) (by positivity)
    have hq : ((2 ^ p : ℕ) : ℝ) / ((2 * n + 1) * m ^ (2 * n + 1) : ℕ)
        = 2 ^ p * (((m : ℝ)⁻¹) ^ (2 * n + 1) / (2 * n + 1 : ℕ)) := by
      push_cast
      rw [inv_pow]
      have : (m : ℝ) ≠ 0 := by exact_mod_cast hm.ne'
      field_simp
    rw [hq] at hd
    rw [abs_le] at ih ⊢
    unfold arctanInvFixed
    generalize 2 ^ p / ((2 * n + 1) * m ^ (2 * n + 1)) = T at hd ⊢
    push_cast
    split
    · rename_i he
      have : ((-1 : ℝ)) ^ n = 1 := Even.neg_one_pow (Nat.even_iff.2 he)
      rw [this]
      push_cast at *
      constructor <;> linarith
    · rename_i he
      have : ((-1 : ℝ)) ^ n = -1 := Odd.neg_one_pow (Nat.odd_iff.2 (by omega))
      rw [this]
      push_cast at *
      constructor <;> linarith

/-- The series of `arctan (1/m)` cut after enough terms. -/
theorem arctan_inv_cut (p m : ℕ) (hm : 5 ≤ m) :
    |2 ^ p * ∑ i ∈ range (p / 4 + 1), (-1) ^ i * (((m : ℝ)⁻¹) ^ (2 * i + 1) / (2 * i + 1 : ℕ)) - 2 ^ p * Real.arctan (m : ℝ)⁻¹| ≤ 1 := by
  set n := p / 4 + 1 with hn
  have hm0 : (5 : ℝ) ≤ m := by exact_mod_cast hm
  have hx0 : 0 ≤ (m : ℝ)⁻¹ := by positivity
  have hx1 : (m : ℝ)⁻¹ ≤ 5⁻¹ := inv_anti₀ (by norm_num) hm0
  have hanti : Antitone fun i : ℕ => ((m : ℝ)⁻¹) ^ (2 * i + 1) / (2 * i + 1 : ℕ) := by
    apply antitone_nat_of_succ_le
    intro i
    apply div_le_div₀ (by positivity)
    · exact pow_le_pow_of_le_one hx0 (by linarith) (by omega)
    · positivity
    · exact_mod_cast (by omega : 2 * i + 1 ≤ 2 * (i + 1) + 1)
  have hsum : HasSum (fun i : ℕ => (-1) ^ i * (((m : ℝ)⁻¹) ^ (2 * i + 1) / (2 * i + 1 : ℕ))) (Real.arctan (m : ℝ)⁻¹) := by
    have h := Real.hasSum_arctan (x := (m : ℝ)⁻¹) (by rw [Real.norm_eq_abs, abs_of_nonneg hx0]; linarith)
    simpa only [mul_div_assoc] using h
  have h := alternating_error hanti hsum n
  rw [← mul_sub, abs_mul, abs_of_nonneg (by positivity : (0 : ℝ) ≤ 2 ^ p)]
  refine (mul_le_mul_of_nonneg_left h (by positivity)).trans ?_
  have hpow : (2 : ℝ) ^ p ≤ 5 ^ (2 * n + 1) := by
    calc (2 : ℝ) ^ p ≤ 2 ^ (4 * n) := pow_le_pow_right₀ (by norm_num) (by omega)
      _ = 16 ^ n := by rw [pow_mul]; norm_num
      _ ≤ 25 ^ n := pow_le_pow_left₀ (by norm_num) (by norm_num) n
      _ = 5 ^ (2 * n) := by rw [pow_mul]; norm_num
      _ ≤ 5 ^ (2 * n + 1) := pow_le_pow_right₀ (by norm_num) (by omega)
  have h1 : ((m : ℝ)⁻¹) ^ (2 * n + 1) ≤ (5⁻¹) ^ (2 * n + 1) := pow_le_pow_left₀ hx0 hx1 _
  have h2 : ((m : ℝ)⁻¹) ^ (2 * n + 1) / (2 * n + 1 : ℕ) ≤ (5⁻¹ : ℝ) ^ (2 * n + 1) := by
    refine (div_le_self (by positivity) ?_).trans h1
    exact_mod_cast (by omega : 1 ≤ 2 * n + 1)
  calc (2 : ℝ) ^ p * (((m : ℝ)⁻¹) ^ (2 * n + 1) / (2 * n + 1 : ℕ)) ≤ 5 ^ (2 * n + 1) * (5⁻¹) ^ (2 * n + 1) :=
        mul_le_mul hpow h2 (by positivity) (by positivity)
    _ = 1 := by rw [← mul_pow]; norm_num

theorem arctanInvFixed_arctan (p m : ℕ) (hm : 5 ≤ m) :
    |(arctanInvFixed p m (p / 4 + 1) : ℝ) - 2 ^ p * Real.arctan (m : ℝ)⁻¹| ≤ (p / 4 : ℕ) + 2 := by
  have h1 := arctanInvFixed_error p m (p / 4 + 1) (by omega)
  have h2 := arctan_inv_cut p m hm
  rw [abs_le] at *
  push_cast at *
  constructor <;> linarith [h1.1, h1.2, h2.1, h2.2]

/-- `piFixed p` is `2^p * pi` up to `5*p + 40`. -/
theorem piFixed_error (p : ℕ) : |(piFixed p : ℝ) - 2 ^ p * Real.pi| ≤ 5 * p + 40 := by
  have h5 := arctanInvFixed_arctan p 5 le_rfl
  have h239 := arctanInvFixed_arctan p 239 (by norm_num)
  have hm := Real.four_mul_arctan_inv_5_sub_arctan_inv_239
  have hpi : 2 ^ p * Real.pi = 16 * (2 ^ p * Real.arctan (5 : ℕ)⁻¹) - 4 * (2 ^ p * Real.arctan (239 : ℕ)⁻¹) := by
    have : Real.pi = 16 * Real.arctan 5⁻¹ - 4 * Real.arctan 239⁻¹ := by linarith
    push_cast
    rw [this]
    ring
  have hp : ((p / 4 : ℕ) : ℝ) ≤ p / 4 := by
    have := (nat_div_error p 4 (by norm_num)).1
    push_cast at this
    linarith
  unfold piFixed
  rw [hpi]
  push_cast at *
  rw [abs_le] at *
  constructor <;> linarith [h5.1, h5.2, h239.1, h239.2]

/-- The real counterpart of `cosSeriesFixed`: `n` terms of an alternating sum, each from the one before. -/
noncomputable def cosSeriesReal (y : ℝ) : (n j : ℕ) → ℝ → ℝ
  | 0, _, _ => 0
  | n + 1, j, t => t - cosSeriesReal y n (j + 1) (t * y ^ 2 / ((2 * j + 1) * (2 * j + 2) : ℕ))

theorem cosSeriesReal_eq (y c : ℝ) (n j : ℕ) :
    cosSeriesReal y n j (c * (y ^ (2 * j) / (2 * j).factorial))
      = c * ∑ i ∈ range n, (-1) ^ i * (y ^ (2 * (j + i)) / (2 * (j + i)).factorial) := by
  induction n generalizing j with
  | zero => simp [cosSeriesReal]
  | succ n ih =>
    have hstep : c * (y ^ (2 * j) / (2 * j).factorial) * y ^ 2 / ((2 * j + 1) * (2 * j + 2) : ℕ)
        = c * (y ^ (2 * (j + 1)) / (2 * (j + 1)).factorial) := by
      have hf : (2 * (j + 1)).factorial = (2 * j + 2) * ((2 * j + 1) * (2 * j).factorial) := by
        rw [show 2 * (j + 1) = 2 * j + 1 + 1 by ring, Nat.factorial_succ, Nat.factorial_succ]
      rw [hf]
      push_cast
      have h0 : ((2 * j).factorial : ℝ) ≠ 0 := by positivity
      have h1 : (2 * (j : ℝ) + 1) ≠ 0 := by positivity
      have h2 : (2 * (j : ℝ) + 2) ≠ 0 := by positivity
      field_simp
      ring
    unfold cosSeriesReal
    rw [hstep, ih, sum_range_succ']
    have : ∑ i ∈ range n, (-1 : ℝ) ^ (i + 1) * (y ^ (2 * (j + (i + 1))) / (2 * (j + (i + 1))).factorial)
        = -∑ i ∈ range n, (-1 : ℝ) ^ i * (y ^ (2 * (j + 1 + i)) / (2 * (j + 1 + i)).factorial) := by
      rw [← sum_neg_distrib]
      apply sum_congr rfl
      intro i _
      rw [show j + (i + 1) = j + 1 + i by ring, pow_succ]
      ring
    rw [this]
    simp
    ring

theorem cosSeriesFixed_error (p x : ℕ) (hx : (x : ℝ) / 2 ^ p ≤ 2) (n j t : ℕ) (τ δ : ℝ) (h0 : 0 ≤ τ - t) (h1 : τ - t ≤ δ)
    (hδ : δ ≤ 2) (hj : 1 ≤ j ∨ δ = 0) :
    |(cosSeriesFixed p x n j t : ℝ) - cosSeriesReal (x / 2 ^ p) n j τ| ≤ 2 * n := by
  induction n generalizing j t τ δ with
  | zero => simp [cosSeriesFixed, cosSeriesReal]
  | succ n ih =>
    set y : ℝ := x / 2 ^ p with hy
    have hy0 : 0 ≤ y := by positivity
    have hyy : y ^ 2 ≤ 4 := by nlinarith
    set D : ℝ := (((2 * j + 1) * (2 * j + 2) : ℕ) : ℝ) with hD
    have hD2 : 2 ≤ D := by
      have : (2 : ℕ) ≤ (2 * j + 1) * (2 * j + 2) := by nlinarith
      rw [hD]; exact_mod_cast this
    have hDj : 1 ≤ j → 12 ≤ D := by
      intro h
      have : (12 : ℕ) ≤ (2 * j + 1) * (2 * j + 2) := by nlinarith
      rw [hD]; exact_mod_cast this
    have hd := nat_div_error (t * (x * x)) (4 ^ p * ((2 * j + 1) * (2 * j + 2))) (by positivity)
    have hq : ((t * (x * x) : ℕ) : ℝ) / (4 ^ p * ((2 * j + 1) * (2 * j + 2)) : ℕ) = t * y ^ 2 / D := by
      rw [hy, hD]
      push_cast
      rw [div_pow, ← pow_mul, mul_comm p 2, pow_mul]
      norm_num
      field_simp
    rw [hq] at hd
    have hmono : 0 ≤ (τ - t) * y ^ 2 / D := by positivity
    have hle : (τ - t) * y ^ 2 / D ≤ 1 := by
      rw [div_le_one (by linarith)]
      rcases hj with hj | hj
      · have := hDj hj; nlinarith
      · have : τ - t = 0 := by linarith
        rw [this]; linarith
    have hsplit : τ * y ^ 2 / D = t * y ^ 2 / D + (τ - t) * y ^ 2 / D := by ring
    have hstep := ih (j + 1) (t * (x * x) / (4 ^ p * ((2 * j + 1) * (2 * j + 2)))) (τ * y ^ 2 / D) 2
      (by rw [hsplit]; linarith [hd.1]) (by rw [hsplit]; linarith [hd.2]) le_rfl (Or.inl (by omega))
    unfold cosSeriesFixed cosSeriesReal
    rw [← hD]
    rw [abs_le] at hstep ⊢
    generalize t * (x * x) / (4 ^ p * ((2 * j + 1) * (2 * j + 2))) = T at hstep ⊢
    push_cast
    constructor <;> linarith [hstep.1, hstep.2]

/-- Where the cosine's series is cut, what is left out is below `2^-p`. -/
theorem cos_series_cut (p : ℕ) (y : ℝ) (hy0 : 0 ≤ y) (hy : y ≤ 2) :
    |∑ i ∈ range (p / 2 + 3), (-1) ^ i * (y ^ (2 * i) / (2 * i).factorial) - Real.cos y| ≤ 1 / 2 ^ p := by
  set N := p / 2 + 3 with hN
  have hre : ∀ n : ℕ, (∑ m ∈ range (2 * n), (y * Complex.I) ^ m / (m.factorial : ℂ)).re
      = ∑ i ∈ range n, (-1) ^ i * (y ^ (2 * i) / (2 * i).factorial) := by
    intro n
    induction n with
    | zero => simp
    | succ n ih =>
      rw [show 2 * (n + 1) = 2 * n + 1 + 1 by ring, sum_range_succ, sum_range_succ, sum_range_succ, Complex.add_re,
        Complex.add_re, ih]
      have hI : (y * Complex.I) ^ (2 * n) = (((-1) ^ n * y ^ (2 * n) : ℝ) : ℂ) := by
        rw [mul_pow, pow_mul Complex.I, Complex.I_sq]
        push_cast
        ring
      have e1 : ((y * Complex.I) ^ (2 * n) / ((2 * n).factorial : ℂ)).re = (-1) ^ n * (y ^ (2 * n) / (2 * n).factorial) := by
        rw [hI]
        have : ((((-1) ^ n * y ^ (2 * n) : ℝ) : ℂ) / ((2 * n).factorial : ℂ))
            = (((-1) ^ n * y ^ (2 * n) / (2 * n).factorial : ℝ) : ℂ) := by push_cast; ring
        rw [this, Complex.ofReal_re]
        ring
      have e2 : ((y * Complex.I) ^ (2 * n + 1) / ((2 * n + 1).factorial : ℂ)).re = 0 := by
        rw [pow_succ, hI]
        have : ((((-1) ^ n * y ^ (2 * n) : ℝ) : ℂ) * (y * Complex.I) / ((2 * n + 1).factorial : ℂ))
            = (((-1) ^ n * y ^ (2 * n) * y / (2 * n + 1).factorial : ℝ) : ℂ) * Complex.I := by push_cast; ring
        rw [this, Complex.re_ofReal_mul, Complex.I_re, mul_zero]
      rw [e1, e2]
      ring
  have hnorm : ‖(y * Complex.I : ℂ)‖ = y := by simp [abs_of_nonneg hy0]
  have hb := Complex.exp_bound' (x := y * Complex.I) (n := 2 * N) (by
    rw [hnorm, div_le_iff₀ (by positivity)]
    have : (3 : ℝ) ≤ ((2 * N).succ : ℕ) := by exact_mod_cast (by omega : 3 ≤ (2 * N).succ)
    have : (6 : ℝ) ≤ ((2 * N).succ : ℕ) := by exact_mod_cast (by omega : 6 ≤ (2 * N).succ)
    linarith)
  rw [hnorm] at hb
  have hcos : (Complex.exp (y * Complex.I)).re = Real.cos y := Complex.exp_ofReal_mul_I_re y
  have hfact : ∀ n, 3 ≤ n → 2 ^ (4 * n - 4) ≤ (2 * n).factorial := by
    intro n hn
    induction n, hn using Nat.le_induction with
    | base => decide
    | succ n hn ih =>
      rw [show 2 * (n + 1) = 2 * n + 1 + 1 by ring, Nat.factorial_succ, Nat.factorial_succ,
        show 4 * (n + 1) - 4 = (4 * n - 4) + 4 by omega, pow_add]
      have : 16 ≤ (2 * n + 1 + 1) * (2 * n + 1) := by nlinarith
      calc 2 ^ (4 * n - 4) * 2 ^ 4 ≤ (2 * n).factorial * ((2 * n + 1 + 1) * (2 * n + 1)) := Nat.mul_le_mul ih (by linarith)
        _ = _ := by ring
  have hF : (2 : ℝ) ^ (4 * N - 4) ≤ ((2 * N).factorial : ℝ) := by exact_mod_cast hfact N (by omega)
  have hlast : y ^ (2 * N) / ((2 * N).factorial : ℝ) * 2 ≤ 1 / 2 ^ p := by
    rw [div_mul_eq_mul_div, div_le_div_iff₀ (by positivity) (by positivity), one_mul]
    have hyN : y ^ (2 * N) ≤ 2 ^ (2 * N) := pow_le_pow_left₀ hy0 hy _
    calc y ^ (2 * N) * 2 * 2 ^ p ≤ 2 ^ (2 * N) * 2 * 2 ^ p := by gcongr
      _ = 2 ^ (2 * N + 1 + p) := by rw [pow_add, pow_succ]
      _ ≤ 2 ^ (4 * N - 4) := pow_le_pow_right₀ (by norm_num) (by omega)
      _ ≤ _ := hF
  rw [← hre N, ← hcos, abs_sub_comm, ← Complex.sub_re]
  exact (Complex.abs_re_le_norm _).trans (hb.trans hlast)

theorem ten_mul_le_two_pow {p : ℕ} (hp : 16 ≤ p) : 10 * p ≤ 2 ^ p := by
  induction p, hp using Nat.le_induction with
  | base => decide
  | succ n hn ih => rw [pow_succ]; omega

/-- `cosFixed p` is `2^p` times the cosine up to `cosFixedError p`, in the first quarter turn. -/
theorem cosFixed_error (p d k : ℕ) (hp : 16 ≤ p) (hd : 0 < d) (hk : 4 * k ≤ d) :
    |(cosFixed p (piFixed p) d k : ℝ) - 2 ^ p * Real.cos (2 * Real.pi * k / d)| ≤ cosFixedError p := by
  have hP : (0 : ℝ) < 2 ^ p := by positivity
  have hd' : (0 : ℝ) < d := by exact_mod_cast hd
  have hk' : (k : ℝ) / d ≤ 1 / 4 := by
    rw [div_le_div_iff₀ hd' (by norm_num)]
    have : (4 * k : ℝ) ≤ d := by exact_mod_cast hk
    linarith
  have hk0 : 0 ≤ (k : ℝ) / d := by positivity
  set θ : ℝ := 2 * Real.pi * k / d with hθ
  have hθ' : θ = 2 * Real.pi * (k / d) := by rw [hθ]; ring
  have hθ0 : 0 ≤ θ := by rw [hθ']; positivity
  have hθ1 : θ ≤ 1.6 := by
    rw [hθ']
    have := Real.pi_lt_d2
    nlinarith [Real.pi_pos]
  set X : ℕ := (2 * piFixed p * k / d).toNat with hX
  have hXe : |(X : ℝ) - 2 ^ p * θ| ≤ 2.5 * p + 21 := by
    have hz : |(((2 * piFixed p * k / d : ℤ)) : ℝ) - 2 ^ p * θ| ≤ 2.5 * p + 21 := by
      have h1 : ((2 * piFixed p * k / d : ℤ) : ℝ) ≤ (2 * piFixed p * k : ℝ) / d := by
        rw [le_div_iff₀ hd']
        exact_mod_cast Int.ediv_mul_le (2 * piFixed p * k) (by exact_mod_cast hd.ne' : (d : ℤ) ≠ 0)
      have h2 : (2 * piFixed p * k : ℝ) / d ≤ ((2 * piFixed p * k / d : ℤ) : ℝ) + 1 := by
        rw [div_le_iff₀ hd']
        have := Int.lt_ediv_add_one_mul_self (2 * piFixed p * k) (by exact_mod_cast hd : (0 : ℤ) < d)
        have h3 : ((2 * piFixed p * k : ℤ) : ℝ) ≤ (((2 * piFixed p * k / d + 1) * d : ℤ) : ℝ) := by exact_mod_cast this.le
        push_cast at h3
        exact h3
      have h3 : (2 * piFixed p * k : ℝ) / d - 2 ^ p * θ = 2 * (k / d) * (piFixed p - 2 ^ p * Real.pi) := by
        rw [hθ']; ring
      have h4 : |2 * ((k : ℝ) / d) * (piFixed p - 2 ^ p * Real.pi)| ≤ 1 / 2 * (5 * p + 40) := by
        rw [abs_mul, abs_of_nonneg (by positivity : (0 : ℝ) ≤ 2 * (k / d))]
        exact mul_le_mul (by linarith) (piFixed_error p) (abs_nonneg _) (by norm_num)
      rw [abs_le] at h4 ⊢
      constructor <;> linarith [h4.1, h4.2]
    rcases le_total 0 (2 * piFixed p * k / d : ℤ) with h | h
    · have : ((X : ℤ) : ℝ) = ((2 * piFixed p * k / d : ℤ) : ℝ) := by rw [hX, Int.toNat_of_nonneg h]
      have h2 : (X : ℝ) = ((2 * piFixed p * k / d : ℤ) : ℝ) := by exact_mod_cast this
      rw [h2]; exact hz
    · have : X = 0 := by rw [hX]; exact Int.toNat_of_nonpos h
      have hneg : ((2 * piFixed p * k / d : ℤ) : ℝ) ≤ 0 := by exact_mod_cast h
      rw [this]
      rw [abs_le] at hz ⊢
      have : 0 ≤ 2 ^ p * θ := by positivity
      push_cast
      constructor <;> linarith [hz.1, hz.2]
  have hpp : (10 * p : ℝ) ≤ 2 ^ p := by exact_mod_cast ten_mul_le_two_pow hp
  have hp16 : (16 : ℝ) ≤ p := by exact_mod_cast hp
  set y : ℝ := X / 2 ^ p with hy
  have hye : |y - θ| ≤ (2.5 * p + 21) / 2 ^ p := by
    have : y - θ = ((X : ℝ) - 2 ^ p * θ) / 2 ^ p := by rw [hy]; field_simp
    rw [this, abs_div, abs_of_pos hP]
    gcongr
  have hy2 : y ≤ 2 := by
    have h1 := (abs_le.1 hye).2
    have h2 : (2.5 * p + 21) / 2 ^ p ≤ (0.4 : ℝ) := by
      rw [div_le_iff₀ hP]; nlinarith
    linarith
  have hy0 : 0 ≤ y := by positivity
  have hser := cosSeriesFixed_error p X hy2 (p / 2 + 3) 0 (2 ^ p) (2 ^ p) 0 (by push_cast; linarith) (by push_cast; linarith)
    (by norm_num) (Or.inr rfl)
  have hR := cosSeriesReal_eq y (2 ^ p) (p / 2 + 3) 0
  simp only [Nat.mul_zero, pow_zero, Nat.factorial_zero, Nat.cast_one, div_one, mul_one, Nat.zero_add] at hR
  rw [hR] at hser
  have hcut := cos_series_cut p y hy0 hy2
  have hcut' : |2 ^ p * ∑ i ∈ range (p / 2 + 3), (-1) ^ i * (y ^ (2 * i) / (2 * i).factorial) - 2 ^ p * Real.cos y| ≤ 1 := by
    rw [← mul_sub, abs_mul, abs_of_pos hP]
    refine (mul_le_mul_of_nonneg_left hcut hP.le).trans (le_of_eq ?_)
    field_simp
  have hlip : |2 ^ p * Real.cos y - 2 ^ p * Real.cos θ| ≤ 2.5 * p + 21 := by
    rw [← mul_sub, abs_mul, abs_of_pos hP]
    calc 2 ^ p * |Real.cos y - Real.cos θ| ≤ 2 ^ p * |y - θ| :=
          mul_le_mul_of_nonneg_left (Real.abs_cos_sub_cos_le y θ) hP.le
      _ ≤ 2 ^ p * ((2.5 * p + 21) / 2 ^ p) := by gcongr
      _ = 2.5 * p + 21 := by field_simp
  have hhalf : ((p / 2 : ℕ) : ℝ) ≤ p / 2 := by
    have := (nat_div_error p 2 (by norm_num)).1
    push_cast at this
    linarith
  unfold cosFixed cosFixedError
  rw [← hX]
  push_cast at hser ⊢
  rw [abs_le] at *
  constructor <;> linarith [hser.1, hser.2, hcut'.1, hcut'.2, hlip.1, hlip.2]

end Sys2Proof.Laws
end

