-- ==== Sys2Proof/Laws/NormBound.lean ====
section
/-! SUPPORT. A sum of integer multiples of `cos (2*pi*k/d)` that is not zero cannot be arbitrarily small: twice the sum is
an algebraic integer of the `d`-th cyclotomic field, all its conjugates are bounded by twice the sum of the coefficients'
magnitudes, and its norm is a non-zero integer. This is what lets Machine/Numerics.lean stop doubling its precision. -/

namespace Sys2Proof.Laws

open Complex in
/-- The conjugates' bound: an element of a number field that is integral, not zero, and whose every conjugate has magnitude
at most `B`, has the magnitude of any one conjugate at least `B ^ -(n-1)`, `n` the degree. -/
theorem one_le_norm_mul_pow {K : Type} [Field K] [NumberField K] (x : K) (hx : IsIntegral ℤ x)
    (h0 : x ≠ 0) (B : ℝ) (hB : ∀ σ : K →ₐ[ℚ] ℂ, ‖σ x‖ ≤ B) (σ₀ : K →ₐ[ℚ] ℂ) :
    1 ≤ ‖σ₀ x‖ * B ^ (Fintype.card (K →ₐ[ℚ] ℂ) - 1) := by
  classical
  have hprod : (algebraMap ℚ ℂ) (Algebra.norm ℚ x) = ∏ σ : K →ₐ[ℚ] ℂ, σ x :=
    Algebra.norm_eq_prod_embeddings ℚ ℂ x
  obtain ⟨z, hz⟩ : ∃ z : ℤ, (algebraMap ℤ ℚ) z = Algebra.norm ℚ x :=
    (IsIntegrallyClosed.isIntegral_iff (R := ℤ) (K := ℚ)).1 (Algebra.isIntegral_norm ℚ hx)
  have hz0 : z ≠ 0 := by
    rintro rfl
    exact h0 ((Algebra.norm_eq_zero_iff (R := ℚ)).1 (by rw [← hz]; simp))
  have hnorm : (1 : ℝ) ≤ ‖∏ σ : K →ₐ[ℚ] ℂ, σ x‖ := by
    rw [← hprod, ← hz]
    have : (1 : ℝ) ≤ |(z : ℝ)| := by exact_mod_cast Int.one_le_abs hz0
    simpa using this
  rw [norm_prod, ← Finset.mul_prod_erase _ _ (Finset.mem_univ σ₀)] at hnorm
  refine hnorm.trans (mul_le_mul_of_nonneg_left ?_ (norm_nonneg _))
  calc ∏ σ ∈ Finset.univ.erase σ₀, ‖σ x‖ ≤ ∏ _σ ∈ Finset.univ.erase σ₀, B :=
        Finset.prod_le_prod (fun _ _ => norm_nonneg _) (fun σ _ => hB σ)
    _ = B ^ (Fintype.card (K →ₐ[ℚ] ℂ) - 1) := by
        rw [Finset.prod_const, Finset.card_erase_of_mem (Finset.mem_univ _), Finset.card_univ]

/-- Twice a sum of cosines, as the value at the primitive `d`-th root of unity of powers and inverse powers. -/
theorem two_mul_cos_eq (d k : ℕ) :
    ((2 * Real.cos (2 * Real.pi * k / d) : ℝ) : ℂ)
      = Complex.exp (2 * Real.pi * Complex.I / d) ^ k + (Complex.exp (2 * Real.pi * Complex.I / d))⁻¹ ^ k := by
  rw [← Complex.exp_neg, ← Complex.exp_nat_mul, ← Complex.exp_nat_mul]
  push_cast
  rw [Complex.cos]
  ring_nf

/-- A sum `S` of `s * cos (2*pi*k/d)` that is not zero satisfies `1 <= |2*S| * (2*W)^(d-1)`, for `W >= 1` at least the sum of
the magnitudes `|s|`. -/
theorem cos_sum_lower_bound (d : ℕ) (hd : 0 < d) (ts : List (ℤ × ℕ)) (W : ℝ) (hW1 : 1 ≤ W)
    (hW : (ts.map fun t => |(t.1 : ℝ)|).sum ≤ W)
    (hS : (ts.map fun t => (t.1 : ℝ) * Real.cos (2 * Real.pi * t.2 / d)).sum ≠ 0) :
    1 ≤ |2 * (ts.map fun t => (t.1 : ℝ) * Real.cos (2 * Real.pi * t.2 / d)).sum| * (2 * W) ^ (d - 1) := by
  classical
  have : NeZero d := ⟨hd.ne'⟩
  have : NeZero ((d : ℕ) : ℚ) := ⟨by exact_mod_cast hd.ne'⟩
  let K := CyclotomicField d ℚ
  have : IsCyclotomicExtension {d} ℚ K := CyclotomicField.isCyclotomicExtension d ℚ
  have : NumberField K := IsCyclotomicExtension.numberField {d} ℚ K
  have hζ : IsPrimitiveRoot (IsCyclotomicExtension.zeta d ℚ K) d := IsCyclotomicExtension.zeta_spec d ℚ K
  set ζ := IsCyclotomicExtension.zeta d ℚ K with hζdef
  let E := hζ.embeddingsEquivPrimitiveRoots ℂ (Polynomial.cyclotomic.irreducible_rat hd)
  have hω : IsPrimitiveRoot (Complex.exp (2 * Real.pi * Complex.I / d)) d := Complex.isPrimitiveRoot_exp d hd.ne'
  set ω := Complex.exp (2 * Real.pi * Complex.I / d) with hωdef
  let σ₀ : K →ₐ[ℚ] ℂ := E.symm ⟨ω, (mem_primitiveRoots hd).2 hω⟩
  have hσ₀ : σ₀ ζ = ω := by
    have := hζ.embeddingsEquivPrimitiveRoots_apply_coe ℂ (Polynomial.cyclotomic.irreducible_rat hd) σ₀
    rw [← this]
    simp [σ₀, E]
  let x : K := (ts.map fun t => (t.1 : K) * (ζ ^ t.2 + ζ⁻¹ ^ t.2)).sum
  have hmap : ∀ σ : K →ₐ[ℚ] ℂ, σ x = (ts.map fun t => (t.1 : ℂ) * ((σ ζ) ^ t.2 + (σ ζ)⁻¹ ^ t.2)).sum := by
    intro σ
    simp only [x, map_list_sum, List.map_map]
    congr 1
    apply List.map_congr_left
    intro t _
    have hc : σ ((t.1 : ℤ) : K) = ((t.1 : ℤ) : ℂ) := map_intCast σ t.1
    simp [hc]
  have hσ0x : σ₀ x = ((2 * (ts.map fun t => (t.1 : ℝ) * Real.cos (2 * Real.pi * t.2 / d)).sum : ℝ) : ℂ) := by
    rw [hmap, hσ₀]
    clear hmap hS hW
    clear x
    induction ts with
    | nil => simp
    | cons t ts ih =>
      simp only [List.map_cons, List.sum_cons]
      rw [ih, ← two_mul_cos_eq]
      push_cast
      ring
  have hint : IsIntegral ℤ x := by
    have h1 : IsIntegral ℤ ζ := hζ.isIntegral hd
    have h2 : IsIntegral ℤ ζ⁻¹ := hζ.inv.isIntegral hd
    have hall : ∀ l : List (ℤ × ℕ), IsIntegral ℤ (l.map fun t => (t.1 : K) * (ζ ^ t.2 + ζ⁻¹ ^ t.2)).sum := by
      intro l
      induction l with
      | nil => simpa using isIntegral_zero
      | cons t l ih =>
        have ht : IsIntegral ℤ (t.1 : K) := by simpa using (isIntegral_algebraMap (R := ℤ) (A := K) (x := t.1))
        simpa using (ht.mul ((h1.pow t.2).add (h2.pow t.2))).add ih
    exact hall ts
  have hx0 : x ≠ 0 := by
    intro h
    rw [h, map_zero] at hσ0x
    exact hS (by
      have : (2 * (ts.map fun t => (t.1 : ℝ) * Real.cos (2 * Real.pi * t.2 / d)).sum : ℝ) = 0 := by
        exact_mod_cast hσ0x.symm
      linarith)
  have hbound : ∀ σ : K →ₐ[ℚ] ℂ, ‖σ x‖ ≤ 2 * W := by
    intro σ
    have hn : ‖σ ζ‖ = 1 := by
      refine Complex.norm_eq_one_of_pow_eq_one (n := d) ?_ hd.ne'
      rw [← map_pow, hζ.pow_eq_one, map_one]
    rw [hmap]
    have key : ∀ l : List (ℤ × ℕ), ‖(l.map fun t => (t.1 : ℂ) * ((σ ζ) ^ t.2 + (σ ζ)⁻¹ ^ t.2)).sum‖
        ≤ 2 * (l.map fun t => |(t.1 : ℝ)|).sum := by
      intro l
      induction l with
      | nil => simp
      | cons t l ih =>
        simp only [List.map_cons, List.sum_cons]
        refine (norm_add_le _ _).trans ?_
        have h1 : ‖(t.1 : ℂ) * ((σ ζ) ^ t.2 + (σ ζ)⁻¹ ^ t.2)‖ ≤ |(t.1 : ℝ)| * 2 := by
          rw [norm_mul]
          have : ‖(t.1 : ℂ)‖ = |(t.1 : ℝ)| := by simp
          rw [this]
          refine mul_le_mul_of_nonneg_left ?_ (abs_nonneg _)
          refine (norm_add_le _ _).trans ?_
          rw [norm_pow, norm_pow, norm_inv, hn]
          norm_num
        linarith
    exact (key ts).trans (by linarith)
  have hmain := one_le_norm_mul_pow x hint hx0 (2 * W) hbound σ₀
  have hcard : Fintype.card (K →ₐ[ℚ] ℂ) - 1 ≤ d - 1 := by
    have : Fintype.card (K →ₐ[ℚ] ℂ) = d.totient := by
      rw [Fintype.card_congr E, Fintype.card_coe, hω.card_primitiveRoots]
    rw [this]
    exact Nat.sub_le_sub_right (Nat.totient_le d) 1
  rw [hσ0x, Complex.norm_real, Real.norm_eq_abs] at hmain
  refine hmain.trans (mul_le_mul_of_nonneg_left ?_ (abs_nonneg _))
  exact pow_le_pow_right₀ (by linarith) hcard

end Sys2Proof.Laws
end

