-- ==== Sys2Proof/Laws/CosSum.lean ====
section
/-! SUPPORT. `cosSumSign` of Machine/Numerics.lean is the sign of the real sum it names (`cosSumSign_spec`), and `floorCos`
is the floor of the one term (`floorCos_eq`). -/

namespace Sys2Proof.Laws

open Sys2Proof.Machine

/-- The real number a list of terms over the denominator `q` stands for. -/
noncomputable def cosSum (q : ℕ) (ts : List CosTerm) : ℝ :=
  (ts.map fun t => (t.1 : ℝ) * Real.cos (2 * Real.pi * t.2 / q)).sum

@[simp] theorem cosSum_nil (q : ℕ) : cosSum q [] = 0 := rfl

@[simp] theorem cosSum_cons (q : ℕ) (t : CosTerm) (ts : List CosTerm) :
    cosSum q (t :: ts) = t.1 * Real.cos (2 * Real.pi * t.2 / q) + cosSum q ts := by
  simp [cosSum]

/-! ## The terms are normalised without changing the sum -/

theorem cos_mod (q k : ℕ) (hq : 0 < q) :
    Real.cos (2 * Real.pi * (k % q : ℕ) / q) = Real.cos (2 * Real.pi * k / q) := by
  have hq' : (q : ℝ) ≠ 0 := by exact_mod_cast hq.ne'
  have h : (k : ℝ) = (q : ℝ) * (k / q : ℕ) + (k % q : ℕ) := by exact_mod_cast (Nat.div_add_mod k q).symm
  rw [show 2 * Real.pi * (k : ℝ) / q = 2 * Real.pi * (k % q : ℕ) / q + (k / q : ℕ) * (2 * Real.pi) by
    rw [h]; field_simp; ring]
  exact (Real.cos_add_nat_mul_two_pi _ _).symm

theorem foldTerm_cos (q : ℕ) (hq : 0 < q) (t : CosTerm) :
    ((foldTerm q t).1 : ℝ) * Real.cos (2 * Real.pi * (foldTerm q t).2 / (2 * q : ℕ))
      = t.1 * Real.cos (2 * Real.pi * t.2 / q) := by
  have hq' : (q : ℝ) ≠ 0 := by exact_mod_cast hq.ne'
  obtain ⟨r, hr, hrc⟩ : ∃ r : ℕ, r ≤ q ∧ (r = if q < 2 * (t.2 % q) then q - t.2 % q else t.2 % q) ∧
      Real.cos (2 * Real.pi * r / q) = Real.cos (2 * Real.pi * t.2 / q) := by
    have hlt := Nat.mod_lt t.2 hq
    refine ⟨if q < 2 * (t.2 % q) then q - t.2 % q else t.2 % q, by split <;> omega, rfl, ?_⟩
    rw [← cos_mod q t.2 hq]
    split
    · rw [Nat.cast_sub hlt.le, show 2 * Real.pi * ((q : ℝ) - (t.2 % q : ℕ)) / q
        = 2 * Real.pi - 2 * Real.pi * (t.2 % q : ℕ) / q by field_simp]
      exact Real.cos_two_pi_sub _
    · rfl
  have hhalf : 2 * r ≤ q := by
    have := hrc.1
    have hlt := Nat.mod_lt t.2 hq
    split at this <;> omega
  unfold foldTerm
  simp only [← hrc.1]
  split
  · simp only
    rw [Nat.cast_sub hhalf, show 2 * Real.pi * ((q : ℝ) - (2 * r : ℕ)) / (2 * q : ℕ) = Real.pi - 2 * Real.pi * r / q by
      push_cast; field_simp]
    rw [Real.cos_pi_sub, hrc.2]
    push_cast
    ring
  · simp only
    rw [show 2 * Real.pi * ((2 * r : ℕ) : ℝ) / (2 * q : ℕ) = 2 * Real.pi * r / q by push_cast; field_simp, hrc.2]

theorem foldTerm_quarter (q : ℕ) (hq : 0 < q) (t : CosTerm) : 4 * (foldTerm q t).2 ≤ 2 * q := by
  have hlt := Nat.mod_lt t.2 hq
  unfold foldTerm
  simp only
  split <;> split <;> simp only <;> omega

theorem mergeTerm_sum (d : ℕ) (t : CosTerm) (us : List CosTerm) :
    cosSum d (mergeTerm t us) = t.1 * Real.cos (2 * Real.pi * t.2 / d) + cosSum d us := by
  induction us with
  | nil => simp [mergeTerm]
  | cons u us ih =>
    unfold mergeTerm
    split
    · rename_i h
      simp only [cosSum_cons, h]
      push_cast
      ring
    · simp only [cosSum_cons, ih]
      ring

theorem mergeTerm_quarter {d : ℕ} {t : CosTerm} {us : List CosTerm} (ht : 4 * t.2 ≤ d)
    (hu : ∀ u ∈ us, 4 * u.2 ≤ d) : ∀ u ∈ mergeTerm t us, 4 * u.2 ≤ d := by
  induction us with
  | nil => simpa [mergeTerm] using ht
  | cons v us ih =>
    have ih' := ih fun u h => hu u (List.mem_cons_of_mem _ h)
    have hv := hu v List.mem_cons_self
    unfold mergeTerm
    split
    · intro u h
      rcases List.mem_cons.1 h with rfl | h
      · exact hv
      · exact hu u (List.mem_cons_of_mem _ h)
    · intro u h
      rcases List.mem_cons.1 h with rfl | h
      · exact hv
      · exact ih' u h

theorem foldTerms_sum (q : ℕ) (hq : 0 < q) (ts : List CosTerm) : cosSum (2 * q) (foldTerms q ts) = cosSum q ts := by
  induction ts with
  | nil => rfl
  | cons t ts ih => rw [foldTerms, mergeTerm_sum, ih, foldTerm_cos q hq, cosSum_cons]

theorem foldTerms_quarter (q : ℕ) (hq : 0 < q) (ts : List CosTerm) : ∀ u ∈ foldTerms q ts, 4 * u.2 ≤ 2 * q := by
  induction ts with
  | nil => simp [foldTerms]
  | cons t ts ih => exact mergeTerm_quarter (foldTerm_quarter q hq t) ih

theorem dropZeroTerms_sum (d : ℕ) (hd : 0 < d) (ts : List CosTerm) : cosSum d (dropZeroTerms d ts) = cosSum d ts := by
  have hd' : (d : ℝ) ≠ 0 := by exact_mod_cast hd.ne'
  induction ts with
  | nil => rfl
  | cons t ts ih =>
    unfold dropZeroTerms at *
    rw [List.filter_cons]
    split
    · simp only [cosSum_cons, ih]
    · rename_i h
      have : (t.1 : ℝ) * Real.cos (2 * Real.pi * t.2 / d) = 0 := by
        rcases eq_or_ne t.1 0 with h0 | h0
        · simp [h0]
        · have h4 : 4 * t.2 = d := by
            by_contra h4
            exact h (by simp [h0, h4])
          have h4' : (d : ℝ) = 4 * t.2 := by exact_mod_cast h4.symm
          have h2 : (t.2 : ℝ) ≠ 0 := by
            intro h2; rw [h2] at h4'; exact hd' (by simpa using h4')
          rw [h4', show 2 * Real.pi * (t.2 : ℝ) / (4 * t.2) = Real.pi / 2 by field_simp; norm_num, Real.cos_pi_div_two,
            mul_zero]
      rw [cosSum_cons, this, zero_add, ih]

theorem cosGcd_dvd (q : ℕ) (ts : List CosTerm) : cosGcd q ts ∣ q ∧ ∀ t ∈ ts, cosGcd q ts ∣ t.2 := by
  induction ts with
  | nil => simp [cosGcd]
  | cons t ts ih =>
    unfold cosGcd
    refine ⟨(Nat.gcd_dvd_right _ _).trans ih.1, ?_⟩
    intro u hu
    rcases List.mem_cons.1 hu with rfl | hu
    · exact Nat.gcd_dvd_left _ _
    · exact (Nat.gcd_dvd_right _ _).trans (ih.2 u hu)

theorem cosSum_reduce (q g : ℕ) (hq : 0 < q) (hg : g ∣ q) (ts : List CosTerm) (ht : ∀ t ∈ ts, g ∣ t.2) :
    cosSum (q / g) (ts.map fun t => (t.1, t.2 / g)) = cosSum q ts := by
  have hg0 : 0 < g := Nat.pos_of_dvd_of_pos hg hq
  have hg' : (g : ℝ) ≠ 0 := by exact_mod_cast hg0.ne'
  have hq' : (q : ℝ) ≠ 0 := by exact_mod_cast hq.ne'
  induction ts with
  | nil => rfl
  | cons t ts ih =>
    simp only [List.map_cons, cosSum_cons]
    rw [ih fun u h => ht u (List.mem_cons_of_mem _ h), Nat.cast_div (ht t List.mem_cons_self) hg', Nat.cast_div hg hg']
    congr 3
    field_simp

/-! ## The sign an approximation shows is right -/

theorem cosSumFixed_error (p d : ℕ) (hp : 16 ≤ p) (hd : 0 < d) (ts : List CosTerm) (hq : ∀ t ∈ ts, 4 * t.2 ≤ d) :
    |(cosSumFixed p (piFixed p) d ts : ℝ) - 2 ^ p * cosSum d ts| ≤ (cosFixedError p * cosWeight ts : ℕ) := by
  induction ts with
  | nil => simp [cosSumFixed, cosWeight]
  | cons t ts ih =>
    have ih' := ih fun u h => hq u (List.mem_cons_of_mem _ h)
    have hc := cosFixed_error p d t.2 hp hd (hq t List.mem_cons_self)
    have ht : |(t.1 : ℝ) * ((cosFixed p (piFixed p) d t.2 : ℝ) - 2 ^ p * Real.cos (2 * Real.pi * t.2 / d))|
        ≤ cosFixedError p * t.1.natAbs := by
      rw [abs_mul, Nat.cast_natAbs, Int.cast_abs, mul_comm]
      exact mul_le_mul_of_nonneg_right hc (abs_nonneg _)
    simp only [cosSumFixed, cosWeight, cosSum_cons]
    push_cast at *
    rw [abs_le] at *
    constructor <;> nlinarith [ih'.1, ih'.2, ht.1, ht.2]

/-- What `cosSignAt` says: 1 or -1 is the sum's sign, and 0 bounds the sum by twice the error. -/
theorem cosSignAt_spec (p d : ℕ) (hp : 16 ≤ p) (hd : 0 < d) (ts : List CosTerm) (hq : ∀ t ∈ ts, 4 * t.2 ≤ d) :
    (cosSignAt d ts p = 1 ∧ 0 < cosSum d ts) ∨ (cosSignAt d ts p = -1 ∧ cosSum d ts < 0) ∨
    (cosSignAt d ts p = 0 ∧ 2 ^ p * |cosSum d ts| ≤ 2 * (cosFixedError p * cosWeight ts : ℕ)) := by
  have h := cosSumFixed_error p d hp hd ts hq
  have hP : (0 : ℝ) < 2 ^ p := by positivity
  set a := cosSumFixed p (piFixed p) d ts with ha
  set e : ℕ := cosFixedError p * cosWeight ts with he
  rw [abs_le] at h
  unfold cosSignAt
  simp only [← ha, ← he]
  split
  · rename_i h1
    have h1' : (e : ℝ) < a := by exact_mod_cast h1
    refine Or.inl ⟨rfl, ?_⟩
    by_contra hn
    nlinarith [h.1, h.2]
  · rename_i h1
    split
    · rename_i h2
      have h2' : (a : ℝ) < -e := by exact_mod_cast h2
      refine Or.inr (Or.inl ⟨rfl, ?_⟩)
      by_contra hn
      nlinarith [h.1, h.2]
    · rename_i h2
      have h1' : (a : ℝ) ≤ e := by exact_mod_cast not_lt.1 h1
      have h2' : -(e : ℝ) ≤ a := by exact_mod_cast not_lt.1 h2
      refine Or.inr (Or.inr ⟨rfl, ?_⟩)
      have habs : 2 ^ p * |cosSum d ts| = |2 ^ p * cosSum d ts| := by rw [abs_mul, abs_of_pos hP]
      rw [habs, abs_le]
      constructor <;> linarith [h.1, h.2]

/-! ## The exact test for zero is right where it says zero -/

/-- The value of a polynomial given by its coefficients. -/
noncomputable def coeffsValue (ω : ℂ) : List ℤ → ℂ
  | [] => 0
  | c :: cs => c + ω * coeffsValue ω cs

theorem coeffsValue_append (ω : ℂ) (a b : List ℤ) :
    coeffsValue ω (a ++ b) = coeffsValue ω a + ω ^ a.length * coeffsValue ω b := by
  induction a with
  | nil => simp [coeffsValue]
  | cons c cs ih => simp only [List.cons_append, coeffsValue, ih, List.length_cons]; ring

theorem coeffsValue_sub (ω : ℂ) (a b : List ℤ) (h : a.length = b.length) :
    coeffsValue ω (List.zipWith (· - ·) a b) = coeffsValue ω a - coeffsValue ω b := by
  induction a generalizing b with
  | nil => cases b <;> simp_all [coeffsValue]
  | cons c cs ih =>
    cases b with
    | nil => simp at h
    | cons c' cs' =>
      simp only [List.zipWith_cons_cons, coeffsValue, ih cs' (by simpa using h)]
      push_cast
      ring

theorem coeffsValue_zero (ω : ℂ) (a : List ℤ) (h : a.all (· == 0) = true) : coeffsValue ω a = 0 := by
  induction a with
  | nil => rfl
  | cons c cs ih =>
    simp only [List.all_cons, Bool.and_eq_true, beq_iff_eq] at h
    simp [coeffsValue, h.1, ih h.2]

@[simp] theorem addCoeff_length (s : ℤ) (k : ℕ) (c : List ℤ) : (addCoeff s k c).length = c.length := by
  induction c generalizing k with
  | nil => cases k <;> rfl
  | cons c cs ih => cases k <;> simp [addCoeff, ih]

theorem coeffsValue_addCoeff (ω : ℂ) (s : ℤ) (k : ℕ) (c : List ℤ) (hk : k < c.length) :
    coeffsValue ω (addCoeff s k c) = coeffsValue ω c + s * ω ^ k := by
  induction c generalizing k with
  | nil => simp at hk
  | cons c cs ih =>
    cases k with
    | zero => simp [addCoeff, coeffsValue]; ring
    | succ k =>
      simp only [addCoeff, coeffsValue, ih k (by simpa using hk)]
      ring

@[simp] theorem cosCoeffs_length (d : ℕ) (ts : List CosTerm) : (cosCoeffs d ts).length = d := by
  induction ts with
  | nil => simp [cosCoeffs]
  | cons t ts ih => simp [cosCoeffs, ih]

theorem coeffsValue_cosCoeffs (d : ℕ) (hd : 0 < d) (ts : List CosTerm) :
    coeffsValue (Complex.exp (2 * Real.pi * Complex.I / d)) (cosCoeffs d ts) = ((2 * cosSum d ts : ℝ) : ℂ) := by
  have hω := Complex.isPrimitiveRoot_exp d hd.ne'
  set ω := Complex.exp (2 * Real.pi * Complex.I / d) with hωd
  have hω0 : ω ≠ 0 := Complex.exp_ne_zero _
  induction ts with
  | nil =>
    have : ∀ n, coeffsValue ω (List.replicate n 0) = 0 := by
      intro n; induction n with
      | zero => rfl
      | succ n ih => simp [List.replicate_succ, coeffsValue, ih]
    simp [cosCoeffs, this]
  | cons t ts ih =>
    have hlt := Nat.mod_lt t.2 hd
    unfold cosCoeffs
    rw [coeffsValue_addCoeff _ _ _ _ (by simpa using hlt),
      coeffsValue_addCoeff _ _ _ _ (by simpa using Nat.mod_lt _ hd), ih, cosSum_cons]
    have h1 : ω ^ (t.2 % d) = ω ^ t.2 := by
      conv_rhs => rw [← Nat.div_add_mod t.2 d, pow_add, pow_mul, hω.pow_eq_one, one_pow, one_mul]
    have h2 : ω ^ ((d - t.2 % d) % d) = ω⁻¹ ^ t.2 := by
      have e1 : ω ^ ((d - t.2 % d) % d) = ω ^ (d - t.2 % d) := by
        conv_rhs => rw [← Nat.div_add_mod (d - t.2 % d) d, pow_add, pow_mul, hω.pow_eq_one, one_pow, one_mul]
      rw [e1, inv_pow, ← h1]
      refine eq_inv_of_mul_eq_one_left ?_
      rw [← pow_add, Nat.sub_add_cancel hlt.le, hω.pow_eq_one]
    rw [h1, h2]
    have h3 := two_mul_cos_eq d t.2
    rw [← hωd] at h3
    have h4 : ((2 * (t.1 * Real.cos (2 * Real.pi * t.2 / d) + cosSum d ts) : ℝ) : ℂ)
        = (t.1 : ℂ) * ((2 * Real.cos (2 * Real.pi * t.2 / d) : ℝ) : ℂ) + ((2 * cosSum d ts : ℝ) : ℂ) := by
      push_cast; ring
    rw [h4, h3]
    ring

theorem timesRootGap_length (m : ℕ) (c : List ℤ) (hm : m ≤ c.length) : (timesRootGap m c).length = c.length := by
  simp [timesRootGap]
  omega

theorem coeffsValue_timesRootGap (ω : ℂ) (m : ℕ) (c : List ℤ) (hm : m ≤ c.length) (hω : ω ^ c.length = 1) :
    ω ^ m * coeffsValue ω (timesRootGap m c) = (1 - ω ^ m) * coeffsValue ω c := by
  unfold timesRootGap
  rw [coeffsValue_sub _ _ _ (by simp; omega), coeffsValue_append]
  have hc : coeffsValue ω c = coeffsValue ω (c.take m) + ω ^ m * coeffsValue ω (c.drop m) := by
    conv_lhs => rw [← List.take_append_drop m c, coeffsValue_append, List.length_take, min_eq_left hm]
  have hp : ω ^ m * ω ^ (c.drop m).length = 1 := by
    rw [← pow_add, List.length_drop, Nat.add_sub_cancel' hm, hω]
  have : ω ^ m * (coeffsValue ω (c.drop m) + ω ^ (c.drop m).length * coeffsValue ω (c.take m) - coeffsValue ω c)
      = ω ^ m * coeffsValue ω (c.drop m) + (ω ^ m * ω ^ (c.drop m).length) * coeffsValue ω (c.take m)
        - ω ^ m * coeffsValue ω c := by ring
  rw [this, hp, hc]
  ring

theorem clearOtherRoots_zero (d : ℕ) (hd : 0 < d) {ω : ℂ} (hω : IsPrimitiveRoot ω d) (ps : List ℕ) (c : List ℤ)
    (hc : c.length = d) (h : coeffsValue ω (clearOtherRoots d ps c) = 0) : coeffsValue ω c = 0 := by
  induction ps generalizing c with
  | nil => exact h
  | cons p ps ih =>
    unfold clearOtherRoots at h
    split at h
    · rename_i hp
      have hm : d / p ≤ d := Nat.div_le_self _ _
      have h0 := ih (timesRootGap (d / p) c) (by rw [timesRootGap_length _ _ (by omega), hc]) h
      have hg := coeffsValue_timesRootGap ω (d / p) c (by omega) (by rw [hc]; exact hω.pow_eq_one)
      rw [h0, mul_zero] at hg
      have hne : ω ^ (d / p) ≠ 1 := by
        have hdp : p ∣ d := Nat.dvd_of_mod_eq_zero hp.2
        apply hω.pow_ne_one_of_pos_of_lt
        · exact (Nat.div_pos (Nat.le_of_dvd hd hdp) (by omega)).ne'
        · exact Nat.div_lt_self hd hp.1
      rcases mul_eq_zero.1 hg.symm with h1 | h1
      · exact absurd (sub_eq_zero.1 h1).symm hne
      · exact h1
    · exact ih c hc h

theorem cosSumVanishes_sound (d : ℕ) (hd : 0 < d) (ts : List CosTerm) (h : cosSumVanishes d ts = true) :
    cosSum d ts = 0 := by
  have h1 := coeffsValue_zero (Complex.exp (2 * Real.pi * Complex.I / d)) _ h
  have h2 := clearOtherRoots_zero d hd (Complex.isPrimitiveRoot_exp d hd.ne') _ _ (cosCoeffs_length d ts) h1
  rw [coeffsValue_cosCoeffs d hd] at h2
  have : (2 * cosSum d ts : ℝ) = 0 := by exact_mod_cast h2
  linarith

/-! ## A sum that is not zero shows its sign at the last precision -/

theorem cosWeight_eq (ts : List CosTerm) : (cosWeight ts : ℝ) = (ts.map fun t => |(t.1 : ℝ)|).sum := by
  induction ts with
  | nil => simp [cosWeight]
  | cons t ts ih =>
    simp only [cosWeight, List.map_cons, List.sum_cons, ← ih]
    push_cast
    rw [Nat.cast_natAbs, Int.cast_abs]

theorem cosSignAt_ne_zero (p d : ℕ) (hp : 16 ≤ p) (hd : 0 < d) (ts : List CosTerm) (hq : ∀ t ∈ ts, 4 * t.2 ≤ d)
    (hP : cosPrecision d (cosWeight ts) ≤ p) (hS : cosSum d ts ≠ 0) : cosSignAt d ts p ≠ 0 := by
  rcases cosSignAt_spec p d hp hd ts hq with h | h | ⟨_, h⟩
  · rw [h.1]; decide
  · rw [h.1]; decide
  exfalso
  set w := cosWeight ts with hw
  have hw0 : w ≠ 0 := by
    intro h0
    rw [h0] at h
    have hP2 : (0 : ℝ) < 2 ^ p := by positivity
    have : |cosSum d ts| ≤ 0 := by
      simp only [Nat.cast_zero, mul_zero] at h
      nlinarith [abs_nonneg (cosSum d ts)]
    exact hS (abs_eq_zero.1 (le_antisymm this (abs_nonneg _)))
  have hw1 : (1 : ℝ) ≤ w := by exact_mod_cast Nat.one_le_iff_ne_zero.2 hw0
  have hlow := cos_sum_lower_bound d hd ts w hw1 (cosWeight_eq ts).ge hS
  change 1 ≤ |2 * cosSum d ts| * (2 * (w : ℝ)) ^ (d - 1) at hlow
  set b := Nat.log2 (2 * w) + 1 with hb
  have h2w : 2 * w < 2 ^ b := by rw [hb]; exact Nat.lt_log2_self
  have h2w' : 2 * (w : ℝ) ≤ 2 ^ b := by exact_mod_cast h2w.le
  have hpw : (2 * (w : ℝ)) ^ (d - 1) ≤ 2 ^ (b * (d - 1)) := by
    rw [pow_mul]; exact pow_le_pow_left₀ (by positivity) h2w' _
  have hlow' : 1 ≤ 2 * |cosSum d ts| * 2 ^ (b * (d - 1)) := by
    refine hlow.trans ?_
    rw [abs_mul, abs_two]
    exact mul_le_mul_of_nonneg_left hpw (by positivity)
  have hsmall : p < 2 ^ (p / 2 + 1) := by
    have : p / 2 < 2 ^ (p / 2) := Nat.lt_two_pow_self
    rw [pow_succ]; omega
  have hkey : (2 : ℝ) ^ p ≤ 2 ^ (4 + (p / 2 + 1) + b * d) := by
    calc (2 : ℝ) ^ p ≤ 2 ^ p * (2 * |cosSum d ts| * 2 ^ (b * (d - 1))) := le_mul_of_one_le_right (by positivity) hlow'
      _ = 2 * (2 ^ p * |cosSum d ts|) * 2 ^ (b * (d - 1)) := by ring
      _ ≤ 2 * (2 * (cosFixedError p * w : ℕ)) * 2 ^ (b * (d - 1)) := by gcongr
      _ = 16 * p * (2 * w) * 2 ^ (b * (d - 1)) := by unfold cosFixedError; push_cast; ring
      _ ≤ 16 * 2 ^ (p / 2 + 1) * 2 ^ b * 2 ^ (b * (d - 1)) := by
          have : (p : ℝ) ≤ 2 ^ (p / 2 + 1) := by exact_mod_cast hsmall.le
          gcongr
      _ = 2 ^ (4 + (p / 2 + 1) + b * d) := by
          have : b * d = b + b * (d - 1) := by
            obtain ⟨n, rfl⟩ : ∃ n, d = n + 1 := ⟨d - 1, by omega⟩
            simp; ring
          rw [this, pow_add, pow_add, pow_add]
          norm_num
          ring
  have hexp : p ≤ 4 + (p / 2 + 1) + b * d := by
    by_contra hcon
    exact absurd hkey (not_le.2 (pow_lt_pow_right₀ (by norm_num) (not_le.1 hcon)))
  have hP' : 2 * (b * (d + 1) + 5) + 2 ≤ p := hP
  have : b * (d + 1) = b * d + b := by ring
  omega

/-- The sign of a real number, as the integer `cosSumSign` answers. -/
def IsSignOf (z : ℤ) (x : ℝ) : Prop := (z = 1 ∧ 0 < x) ∨ (z = -1 ∧ x < 0) ∨ (z = 0 ∧ x = 0)

theorem IsSignOf.pos_iff {z : ℤ} {x : ℝ} (h : IsSignOf z x) : 0 < z ↔ 0 < x := by
  rcases h with ⟨rfl, h⟩ | ⟨rfl, h⟩ | ⟨rfl, h⟩
  · simp [h]
  · simp [h.le]
  · simp [h]

theorem IsSignOf.nonneg_iff {z : ℤ} {x : ℝ} (h : IsSignOf z x) : 0 ≤ z ↔ 0 ≤ x := by
  rcases h with ⟨rfl, h⟩ | ⟨rfl, h⟩ | ⟨rfl, h⟩
  · simp [h.le]
  · simp [h]
  · simp [h]

theorem cosSignLoop_spec (d : ℕ) (hd : 0 < d) (ts : List CosTerm) (hq : ∀ t ∈ ts, 4 * t.2 ≤ d) (fuel p : ℕ)
    (hp : 16 ≤ p) (hP : cosPrecision d (cosWeight ts) ≤ p * 2 ^ fuel) :
    IsSignOf (cosSignLoop d ts (fuel + 1) p) (cosSum d ts) := by
  induction fuel generalizing p with
  | zero =>
    unfold cosSignLoop
    simp only
    rcases cosSignAt_spec p d hp hd ts hq with h | h | h
    · simp only [h.1]; exact Or.inl ⟨rfl, h.2⟩
    · simp only [h.1]; exact Or.inr (Or.inl ⟨rfl, h.2⟩)
    · simp only [h.1, cosSignLoop]
      refine Or.inr (Or.inr ⟨rfl, ?_⟩)
      by_contra hS
      exact cosSignAt_ne_zero p d hp hd ts hq (by simpa using hP) hS h.1
  | succ fuel ih =>
    unfold cosSignLoop
    simp only
    rcases cosSignAt_spec p d hp hd ts hq with h | h | h
    · simp only [h.1]; exact Or.inl ⟨rfl, h.2⟩
    · simp only [h.1]; exact Or.inr (Or.inl ⟨rfl, h.2⟩)
    · simp only [h.1]
      exact ih (2 * p) (by omega) (by rw [pow_succ] at hP; linarith)

/-- `cosSumSign q ts` is the sign of the real number `sum of s * cos (2*pi*k/q)` over the terms `(s, k)`. -/
theorem cosSumSign_spec (q : ℕ) (hq : 0 < q) (ts : List CosTerm) : IsSignOf (cosSumSign q ts) (cosSum q ts) := by
  unfold cosSumSign
  simp only
  obtain ⟨hgq, hgt⟩ := cosGcd_dvd q ts
  set g := cosGcd q ts with hg
  have hg0 : 0 < g := Nat.pos_of_dvd_of_pos hgq hq
  have hq1 : 0 < q / g := Nat.div_pos (Nat.le_of_dvd hq hgq) hg0
  set d := 2 * (q / g) with hd
  have hd0 : 0 < d := by omega
  set us := dropZeroTerms d (foldTerms (q / g) (ts.map fun t => (t.1, t.2 / g))) with hus
  have hsum : cosSum d us = cosSum q ts := by
    rw [hus, dropZeroTerms_sum d hd0, hd, foldTerms_sum _ hq1, cosSum_reduce q g hq hgq ts hgt]
  have hquarter : ∀ u ∈ us, 4 * u.2 ≤ d := by
    intro u hu
    exact foldTerms_quarter _ hq1 _ u (List.mem_of_mem_filter hu)
  rw [← hsum]
  rcases cosSignAt_spec 64 d (by norm_num) hd0 us hquarter with h | h | h
  · simp only [h.1]; exact Or.inl ⟨rfl, h.2⟩
  · simp only [h.1]; exact Or.inr (Or.inl ⟨rfl, h.2⟩)
  · simp only [h.1]
    by_cases hv : cosSumVanishes d us = true
    · simp only [hv]
      exact Or.inr (Or.inr ⟨rfl, cosSumVanishes_sound d hd0 us hv⟩)
    · simp only [hv]
      refine cosSignLoop_spec d hd0 us hquarter _ 64 (by norm_num) ?_
      have := Nat.lt_log2_self (n := cosPrecision d (cosWeight us) / 64)
      omega

/-! ## The floor -/

/-- `floorCos a k q` is the floor of `a * cos (2*pi*k/q)`, for the amplitudes of the quantizer. -/
theorem floorCos_eq (a : ℤ) (k q : ℕ) (hq : 0 < q) (ha : a.natAbs ≤ 32767) :
    floorCos a k q = ⌊(a : ℝ) * Real.cos (2 * Real.pi * k / q)⌋ := by
  set x : ℝ := (a : ℝ) * Real.cos (2 * Real.pi * k / q) with hx
  have hfold := foldTerm_cos q hq (a, k)
  have hquarter := foldTerm_quarter q hq (a, k)
  have hc := cosFixed_error 64 (2 * q) (foldTerm q (a, k)).2 (by norm_num) (by omega) hquarter
  have habs : |((foldTerm q (a, k)).1 : ℝ)| = a.natAbs := by
    have : (foldTerm q (a, k)).1 = a ∨ (foldTerm q (a, k)).1 = -a := by
      unfold foldTerm
      simp only
      split <;> split <;> simp
    rcases this with h | h <;> rw [h] <;> simp [Nat.cast_natAbs]
  set t := foldTerm q (a, k) with ht
  have herr : |(t.1 : ℝ) * (cosFixed 64 (piFixed 64) (2 * q) t.2 : ℝ) - 2 ^ 64 * x| ≤ ((cosFixedError 64 * a.natAbs : ℕ) : ℝ) := by
    have : (t.1 : ℝ) * (cosFixed 64 (piFixed 64) (2 * q) t.2 : ℝ) - 2 ^ 64 * x
        = t.1 * ((cosFixed 64 (piFixed 64) (2 * q) t.2 : ℝ) - 2 ^ 64 * Real.cos (2 * Real.pi * t.2 / (2 * q : ℕ))) := by
      rw [hx, ← hfold]; ring
    rw [this, abs_mul, habs, mul_comm, Nat.cast_mul (cosFixedError 64)]
    exact mul_le_mul_of_nonneg_right hc (Nat.cast_nonneg _)
  unfold floorCos
  simp only [← ht]
  set A : ℤ := t.1 * cosFixed 64 (piFixed 64) (2 * q) t.2 with hA
  set e : ℕ := cosFixedError 64 * a.natAbs with he
  have hA' : (t.1 : ℝ) * (cosFixed 64 (piFixed 64) (2 * q) t.2 : ℝ) = (A : ℝ) := by rw [hA]; push_cast; rfl
  rw [hA', abs_le] at herr
  have he2 : (e : ℤ) ≤ 2 ^ 25 := by
    have : e ≤ 2 ^ 25 := by
      rw [he]; unfold cosFixedError; omega
    exact_mod_cast this
  have hlo : (((A - e) / 2 ^ 64 : ℤ) : ℝ) ≤ x := by
    have h1 : (A - e) / 2 ^ 64 * 2 ^ 64 ≤ A - e := Int.ediv_mul_le _ (by norm_num)
    have h2 : (((A - e) / 2 ^ 64 : ℤ) : ℝ) * 2 ^ 64 ≤ A - e := by exact_mod_cast h1
    nlinarith [herr.1, herr.2]
  have hhi : x < (((A + e) / 2 ^ 64 : ℤ) : ℝ) + 1 := by
    have h1 : A + e < ((A + e) / 2 ^ 64 + 1) * 2 ^ 64 := Int.lt_ediv_add_one_mul_self _ (by norm_num)
    have h2 : (A : ℝ) + e < ((((A + e) / 2 ^ 64 : ℤ) : ℝ) + 1) * 2 ^ 64 := by exact_mod_cast h1
    nlinarith [herr.1, herr.2]
  have hgap : (A + e) / 2 ^ 64 ≤ (A - e) / 2 ^ 64 + 1 := by omega
  set lo := (A - e) / 2 ^ 64 with hlodef
  set hi := (A + e) / 2 ^ 64 with hhidef
  have hfl1 : lo ≤ ⌊x⌋ := Int.le_floor.2 hlo
  have hfl2 : ⌊x⌋ ≤ hi := Int.lt_add_one_iff.1 (Int.floor_lt.2 (by push_cast; exact hhi))
  split
  · omega
  · have hsgn := cosSumSign_spec q hq [(a, k), (-hi, 0)]
    have hval : cosSum q [(a, k), (-hi, 0)] = x - hi := by
      simp [hx]
      ring
    rw [hval] at hsgn
    split
    · rename_i h
      have : 0 ≤ x - hi := hsgn.nonneg_iff.1 h
      have : hi ≤ ⌊x⌋ := Int.le_floor.2 (by linarith)
      omega
    · rename_i h
      have h' : ¬ 0 ≤ x - hi := fun hh => h (hsgn.nonneg_iff.2 hh)
      have : ⌊x⌋ < hi := Int.floor_lt.2 (by linarith [not_le.1 h'])
      omega

end Sys2Proof.Laws
end

