-- ==== Sys2Proof/Laws/Numerics.lean ====
section
/-! SUPPORT. The integer numerics of Machine/Numerics.lean and Machine/Modem.lean are the ideal instance of NUM (R120): the
quantizer is the truncation of the scaled real cosine, and the slicer decides by the sign of the real window sum. -/

namespace Sys2Proof.Machine

open Sys2Proof.Laws

/-! ## Truncation (R7) -/

theorem realTrunc_neg (x : ℝ) : realTrunc (-x) = -realTrunc x := by
  unfold realTrunc
  rcases lt_trichotomy x 0 with h | rfl | h
  · rw [if_pos (by linarith), if_neg (by linarith)]; simp
  · simp
  · rw [if_neg (by linarith), if_pos h.le]; simp

@[simp] theorem realTrunc_intCast (n : ℤ) : realTrunc (n : ℝ) = n := by
  unfold realTrunc
  split
  · simp
  · rw [← Int.cast_neg, Int.floor_intCast, neg_neg]

/-- Truncation is zero below 1 in magnitude, and keeps the sign elsewhere. -/
theorem realTrunc_pos_iff (x : ℝ) : 0 < realTrunc x ↔ 1 ≤ x := by
  unfold realTrunc
  split
  · rw [← Int.add_one_le_iff, zero_add, Int.le_floor]; norm_num
  · rename_i h
    have : 0 ≤ ⌊-x⌋ := Int.floor_nonneg.mpr (by linarith)
    constructor
    · intro h'; omega
    · intro h'; linarith

theorem realTrunc_neg_iff (x : ℝ) : realTrunc x < 0 ↔ x ≤ -1 := by
  have h := realTrunc_pos_iff (-x)
  rw [realTrunc_neg] at h
  constructor
  · intro h'; have := h.mp (by omega); linarith
  · intro h'; have := h.mpr (by linarith); omega

theorem abs_realTrunc_le {x : ℝ} {n : ℕ} (h : |x| ≤ n) : |realTrunc x| ≤ n := by
  obtain ⟨h1, h2⟩ := abs_le.mp h
  have hup : ∀ y : ℝ, y ≤ n → ⌊y⌋ ≤ n := fun y hy => by
    have := Int.floor_mono hy
    simpa using this
  unfold realTrunc
  split
  · rename_i h0
    rw [abs_of_nonneg (Int.floor_nonneg.mpr h0)]
    exact hup x h2
  · rename_i h0
    rw [abs_neg, abs_of_nonneg (Int.floor_nonneg.mpr (by linarith))]
    exact hup (-x) (by linarith)

/-! ## The quantizer (R125) -/

/-- `truncCos a k q` is `trunc (a * cos (2*pi*k/q))`, for the amplitudes of the quantizer. -/
theorem truncCos_eq (a : ℤ) (k q : ℕ) (hq : 0 < q) (ha : a.natAbs ≤ 32767) :
    truncCos a k q = realTrunc ((a : ℝ) * Real.cos (2 * Real.pi * k / q)) := by
  unfold truncCos realTrunc
  simp only [floorCos_eq a k q hq ha, floorCos_eq (-a) k q hq (by simpa using ha), Int.floor_nonneg]
  simp

theorem phaseMap_eq_amp (b : Bit) : phaseMap b = Num.amp b := rfl

theorem amp_eq_one_or (b : Bit) : Num.amp b = 1 ∨ Num.amp b = -1 := by
  unfold Num.amp
  split <;> simp

/-- The quantizer is that of the ideal instance. -/
theorem quantize_eq {fs : ℕ} (hfs : 0 < fs) (f0 idx : ℕ) (b : Bit) :
    quantize fs f0 idx b = Num.ideal.quantized fs f0 idx b := by
  have ha : (phaseMap b * 32767).natAbs ≤ 32767 := by
    rcases amp_eq_one_or b with h | h <;> simp [phaseMap_eq_amp, h]
  rw [quantize, truncCos_eq _ _ _ hfs ha]
  simp only [Num.quantized, Num.ideal, phaseMap_eq_amp]
  push_cast
  ring_nf

/-- The quantizer never leaves -32767 to 32767 (R126). -/
theorem abs_quantize_le {fs : ℕ} (hfs : 0 < fs) (f0 idx : ℕ) (b : Bit) : |quantize fs f0 idx b| ≤ 32767 := by
  rw [quantize_eq hfs]
  refine abs_realTrunc_le (n := 32767) ?_
  have hc := Real.abs_cos_le_one (2 * Real.pi * f0 * idx / fs)
  have ha : |((Num.amp b : ℤ) : ℝ)| = 1 := by rcases amp_eq_one_or b with h | h <;> simp [h]
  simp only [Num.ideal, abs_mul, ha]
  norm_num
  linarith

/-- A bit 0 gives the negation of what a bit 1 gives (R127). -/
theorem quantized_eq_amp_mul (fs f0 idx : ℕ) (b : Bit) :
    Num.ideal.quantized fs f0 idx b = Num.amp b * Num.ideal.quantized fs f0 idx 1 := by
  rcases amp_eq_one_or b with h | h
  · simp only [Num.quantized, h, show Num.amp 1 = 1 from rfl, one_mul]
  · simp only [Num.quantized, Num.ideal, h, show Num.amp 1 = 1 from rfl]
    rw [neg_one_mul, ← realTrunc_neg]
    push_cast
    ring_nf

/-- The carrier depends on its frequency modulo the sample rate only (R123). -/
theorem quantize_mod {fs : ℕ} (hfs : 0 < fs) {f g : ℕ} (h : g % fs = f % fs) (idx : ℕ) (b : Bit) :
    quantize fs g idx b = quantize fs f idx b := by
  have ha : (phaseMap b * 32767).natAbs ≤ 32767 := by
    rcases amp_eq_one_or b with h | h <;> simp [phaseMap_eq_amp, h]
  have hm : (g * idx) % fs = (f * idx) % fs := by rw [Nat.mul_mod, h, ← Nat.mul_mod]
  rw [quantize, quantize, truncCos_eq _ _ _ hfs ha, truncCos_eq _ _ _ hfs ha, ← cos_mod fs _ hfs,
    ← cos_mod fs (f * idx) hfs, hm]

theorem symbolValues_mod {fs : ℕ} (hfs : 0 < fs) {f g : ℕ} (h : g % fs = f % fs) (b : Bit) (n idx : ℕ) :
    symbolValues fs g b n idx = symbolValues fs f b n idx := by
  induction n generalizing idx with
  | zero => rfl
  | succ n ih => rw [symbolValues, symbolValues, ih, quantize_mod hfs h]

theorem modulatedValues_mod {fs : ℕ} (hfs : 0 < fs) {f g : ℕ} (h : g % fs = f % fs) (ns idx : ℕ) (bs : List Bit) :
    modulatedValues fs g ns idx bs = modulatedValues fs f ns idx bs := by
  induction bs generalizing idx with
  | nil => rfl
  | cons b bs ih => rw [modulatedValues, modulatedValues, ih, symbolValues_mod hfs h]

theorem symbolValues_length (fs f0 : ℕ) (b : Bit) (n idx : ℕ) : (symbolValues fs f0 b n idx).length = n := by
  induction n generalizing idx with
  | zero => rfl
  | succ n ih => simp [symbolValues, ih]

theorem symbolValues_getElem? (fs f0 : ℕ) (b : Bit) (n idx j : ℕ) (h : j < n) :
    (symbolValues fs f0 b n idx)[j]? = some (quantize fs f0 (idx + j) b) := by
  induction n generalizing idx j with
  | zero => omega
  | succ n ih =>
    cases j with
    | zero => simp [symbolValues]
    | succ j =>
      rw [symbolValues, List.getElem?_cons_succ, ih _ _ (by omega), Nat.add_assoc, Nat.add_comm 1]

theorem modulatedValues_length (fs f0 ns idx : ℕ) (bs : List Bit) :
    (modulatedValues fs f0 ns idx bs).length = bs.length * ns := by
  induction bs generalizing idx with
  | nil => simp [modulatedValues]
  | cons b bs ih => simp [modulatedValues, ih, symbolValues_length]; ring

/-- The value at offset `j` of symbol `i` is the quantized sample of bit `i` at the index `i*ns + j`. -/
theorem modulatedValues_getElem? (fs f0 ns idx : ℕ) (bs : List Bit) (i j : ℕ) (b : Bit) (hb : bs[i]? = some b)
    (hj : j < ns) :
    (modulatedValues fs f0 ns idx bs)[i * ns + j]? = some (quantize fs f0 (idx + (i * ns + j)) b) := by
  induction bs generalizing idx i with
  | nil => simp at hb
  | cons c bs ih =>
    rw [modulatedValues]
    cases i with
    | zero =>
      simp only [List.getElem?_cons_zero, Option.some.injEq] at hb
      subst hb
      rw [List.getElem?_append_left (by simpa [symbolValues_length] using hj)]
      simpa using symbolValues_getElem? fs f0 c ns idx j hj
    | succ i =>
      have h1 : (i + 1) * ns + j = ns + (i * ns + j) := by ring
      rw [List.getElem?_append_right (by rw [symbolValues_length, h1]; omega), symbolValues_length, h1,
        Nat.add_sub_cancel_left, ih _ _ (by simpa using hb), Nat.add_assoc]

theorem abs_modulatedValues_le {fs : ℕ} (hfs : 0 < fs) (f0 ns idx : ℕ) (bs : List Bit) :
    ∀ n ∈ modulatedValues fs f0 ns idx bs, |n| ≤ 32767 := by
  have hs : ∀ (b : Bit) (n idx : ℕ), ∀ m ∈ symbolValues fs f0 b n idx, |m| ≤ 32767 := by
    intro b n
    induction n with
    | zero => simp [symbolValues]
    | succ n ih =>
      intro idx m hm
      rcases List.mem_cons.mp hm with rfl | hm
      · exact abs_quantize_le hfs f0 idx b
      · exact ih _ m hm
  induction bs generalizing idx with
  | nil => simp [modulatedValues]
  | cons b bs ih =>
    intro n hn
    rcases List.mem_append.mp hn with hn | hn
    · exact hs b ns idx n hn
    · exact ih _ n hn

/-- Integers in the range of a sample become samples, each of its value. -/
theorem samplesOfInts_of_bounded {ns : List ℤ} (h : ∀ n ∈ ns, |n| ≤ 32767) :
    ∃ vs, samplesOfInts ns = some vs ∧ vs.map BitVec.toInt = ns := by
  induction ns with
  | nil => exact ⟨[], rfl, rfl⟩
  | cons n ns ih =>
    obtain ⟨vs, hvs, hm⟩ := ih fun m hm => h m (List.mem_cons_of_mem _ hm)
    obtain ⟨h1, h2⟩ := abs_le.mp (h n List.mem_cons_self)
    refine ⟨BitVec.ofInt 16 n :: vs, ?_, ?_⟩
    · simp [samplesOfInts, sampleOfInt, hvs, h1, h2]
    · have : (BitVec.ofInt 16 n).toInt = n := by
        rw [BitVec.toInt_ofInt, Int.bmod_eq_of_le] <;> omega
      simp [hm, this]

/-- What MOD's numbers are: always samples, one for each bit and offset, each the ideal instance's (R126, R154). -/
theorem samplesOfInts_modulatedValues {fs : ℕ} (hfs : 0 < fs) (f0 ns : ℕ) (bs : List Bit) :
    ∃ vs, samplesOfInts (modulatedValues fs f0 ns 0 bs) = some vs ∧ vs.length = bs.length * ns ∧
      (∀ v ∈ vs, |v.toInt| ≤ 32767) ∧
      ∀ i j b, bs[i]? = some b → j < ns →
        ∃ v, vs[i * ns + j]? = some v ∧ v.toInt = Num.ideal.quantized fs f0 (i * ns + j) b := by
  have hb := abs_modulatedValues_le hfs f0 ns 0 bs
  obtain ⟨vs, hvs, hm⟩ := samplesOfInts_of_bounded hb
  refine ⟨vs, hvs, ?_, ?_, ?_⟩
  · rw [← modulatedValues_length fs f0 ns 0 bs, ← hm, List.length_map]
  · intro v hv
    exact hb _ (hm ▸ List.mem_map_of_mem hv)
  · intro i j b hbit hj
    have h := modulatedValues_getElem? fs f0 ns 0 bs i j b hbit hj
    rw [← hm, List.getElem?_map, Option.map_eq_some_iff] at h
    obtain ⟨v, hv, hq⟩ := h
    exact ⟨v, hv, by rw [hq, zero_add, quantize_eq hfs]⟩

/-! ## Integrate-and-dump and the slicer (R130, R131) -/

theorem cosSum_windowTerms (fs f0 idx : ℕ) (ss : List Sample) :
    cosSum fs (windowTerms f0 idx ss) = Num.ideal.windowSum fs f0 idx ss := by
  induction ss generalizing idx with
  | nil => rfl
  | cons s ss ih =>
    have ih' := ih (idx + 1)
    simp only [windowTerms, cosSum_cons, Num.windowSum, Num.products, Num.ideal, List.sum_cons] at ih' ⊢
    rw [ih']
    push_cast
    ring_nf

/-- A window decides 1 exactly when the ideal instance's sum is strictly positive. -/
theorem decideWindow_eq_one_iff {fs : ℕ} (hfs : 0 < fs) (f0 idx : ℕ) (ss : List Sample) :
    decideWindow fs f0 idx ss = 1 ↔ 0 < Num.ideal.windowSum fs f0 idx ss := by
  rw [← cosSum_windowTerms, ← (cosSumSign_spec fs hfs _).pos_iff, decideWindow]
  split <;> simp_all

/-- A bit that is not 1 is 0. -/
theorem bit_eq_zero_or_one (b : Bit) : b = 0 ∨ b = 1 := by
  revert b; decide

theorem decideWindow_eq_zero_iff {fs : ℕ} (hfs : 0 < fs) (f0 idx : ℕ) (ss : List Sample) :
    decideWindow fs f0 idx ss = 0 ↔ Num.ideal.windowSum fs f0 idx ss ≤ 0 := by
  rw [← not_lt, ← decideWindow_eq_one_iff hfs]
  rcases bit_eq_zero_or_one (decideWindow fs f0 idx ss) with h | h <;> simp [h]

/-- The window sum as a sum over the window's offsets, the sample at each given by `f`. -/
theorem windowSum_eq_sum (fs f0 idx : ℕ) (ss : List Sample) (f : ℕ → ℝ)
    (h : ∀ j v, ss[j]? = some v → f j = v.toInt) :
    Num.ideal.windowSum fs f0 idx ss
      = ∑ j ∈ Finset.range ss.length, f j * Real.cos (2 * Real.pi * f0 * (idx + j : ℕ) / fs) := by
  induction ss generalizing idx f with
  | nil => rfl
  | cons s ss ih =>
    have ih' := ih (idx + 1) (fun j => f (j + 1)) fun j v hv => h (j + 1) v (by simpa using hv)
    rw [List.length_cons, Finset.sum_range_succ', h 0 s (by simp)]
    simp only [Num.windowSum, Num.products, Num.ideal, List.sum_cons] at ih' ⊢
    rw [ih', add_comm]
    congr 1
    refine Finset.sum_congr rfl fun j _ => ?_
    rw [Nat.add_assoc, Nat.add_comm 1]

/-- A quantized carrier sample times its carrier value is never negative, and is 0 only where the sample is 0. -/
theorem quantized_mul_carrier (fs f0 idx : ℕ) :
    0 ≤ (Num.ideal.quantized fs f0 idx 1 : ℝ) * Num.ideal.carr fs f0 idx ∧
      (0 < (Num.ideal.quantized fs f0 idx 1 : ℝ) * Num.ideal.carr fs f0 idx ↔ Num.ideal.quantized fs f0 idx 1 ≠ 0) := by
  set c := Num.ideal.carr fs f0 idx with hc
  have hq : Num.ideal.quantized fs f0 idx 1 = realTrunc (32767 * c) := by
    rw [Num.quantized, ← hc]
    simp [Num.ideal, show Num.amp 1#1 = 1 from rfl]
  rw [hq]
  rcases lt_trichotomy (realTrunc (32767 * c)) 0 with h | h | h
  · have h1 := (realTrunc_neg_iff _).mp h
    have h2 : (realTrunc (32767 * c) : ℝ) < 0 := by exact_mod_cast h
    have h3 := mul_pos_of_neg_of_neg h2 (show c < 0 by linarith)
    exact ⟨h3.le, by simp [h3, h.ne]⟩
  · simp [h]
  · have h1 := (realTrunc_pos_iff _).mp h
    have h2 : 0 < (realTrunc (32767 * c) : ℝ) := by exact_mod_cast h
    have h3 := mul_pos h2 (show 0 < c by linarith)
    exact ⟨h3.le, by simp [h3, h.ne']⟩

theorem demodulatedBits_length (fs f0 ns l idx : ℕ) (ss : List Sample) :
    (demodulatedBits fs f0 ns l idx ss).length = l := by
  induction l generalizing idx ss with
  | zero => rfl
  | succ l ih => simp [demodulatedBits, ih]

/-- Bit `k` is decided by the window of `ns` samples from `k*ns` on. -/
theorem demodulatedBits_getElem? (fs f0 ns l idx k : ℕ) (ss : List Sample) (h : k < l) :
    (demodulatedBits fs f0 ns l idx ss)[k]?
      = some (decideWindow fs f0 (idx + k * ns) ((ss.drop (k * ns)).take ns)) := by
  induction l generalizing idx k ss with
  | zero => omega
  | succ l ih =>
    cases k with
    | zero => simp [demodulatedBits]
    | succ k =>
      rw [demodulatedBits, List.getElem?_cons_succ, ih _ _ _ (by omega), List.drop_drop,
        show idx + ns + k * ns = idx + (k + 1) * ns by ring, show ns + k * ns = (k + 1) * ns by ring]

end Sys2Proof.Machine
end

