-- ==== Sys2Proof/Laws/State.lean ====
section
/-! SUPPORT. One lemma per field per update of State, each true by rfl (by cases on the buffer where the update names one). -/

namespace Sys2Proof.Machine

/-! ## The flags -/

@[simp] theorem validFlag_setValidFlag_self (v : Valid) (x : BufId) (b : Bool) :
    validFlag (setValidFlag v x b) x = b := by cases x <;> rfl

theorem validFlag_setValidFlag_of_ne (v : Valid) {x y : BufId} (b : Bool) (h : y ≠ x) :
    validFlag (setValidFlag v x b) y = validFlag v y := by
  cases x <;> cases y <;> first | rfl | exact absurd rfl h

/-! ## setDone -/

section
variable (b : Bool) (s : State)

@[simp] theorem setDone_status : (setDone b s).status = { s.status with done := b } := rfl
@[simp] theorem setDone_fs : (setDone b s).fs = s.fs := rfl
@[simp] theorem setDone_baud : (setDone b s).baud = s.baud := rfl
@[simp] theorem setDone_f0 : (setDone b s).f0 = s.f0 := rfl
@[simp] theorem setDone_ns : (setDone b s).ns = s.ns := rfl
@[simp] theorem setDone_byteLen : (setDone b s).byteLen = s.byteLen := rfl
@[simp] theorem setDone_bitLen : (setDone b s).bitLen = s.bitLen := rfl
@[simp] theorem setDone_sampLen : (setDone b s).sampLen = s.sampLen := rfl
@[simp] theorem setDone_fileLen : (setDone b s).fileLen = s.fileLen := rfl
@[simp] theorem setDone_valid : (setDone b s).valid = s.valid := rfl
@[simp] theorem setDone_bufSel : (setDone b s).bufSel = s.bufSel := rfl
@[simp] theorem setDone_bufAddr : (setDone b s).bufAddr = s.bufAddr := rfl
@[simp] theorem setDone_errInfo : (setDone b s).errInfo = s.errInfo := rfl
@[simp] theorem setDone_byteBuf : (setDone b s).byteBuf = s.byteBuf := rfl
@[simp] theorem setDone_bitBuf : (setDone b s).bitBuf = s.bitBuf := rfl
@[simp] theorem setDone_sampBuf : (setDone b s).sampBuf = s.sampBuf := rfl
@[simp] theorem setDone_fileBuf : (setDone b s).fileBuf = s.fileBuf := rfl
@[simp] theorem setDone_caps : (setDone b s).caps = s.caps := rfl
@[simp] theorem setDone_queue : (setDone b s).queue = s.queue := rfl
@[simp] theorem setDone_reads : (setDone b s).reads = s.reads := rfl
@[simp] theorem setDone_draws : (setDone b s).draws = s.draws := rfl

end

/-! ## putBytes -/

section
variable (vs : List Byte) (s : State)

@[simp] theorem putBytes_status : (putBytes vs s).status = { s.status with done := true } := rfl
@[simp] theorem putBytes_fs : (putBytes vs s).fs = s.fs := rfl
@[simp] theorem putBytes_baud : (putBytes vs s).baud = s.baud := rfl
@[simp] theorem putBytes_f0 : (putBytes vs s).f0 = s.f0 := rfl
@[simp] theorem putBytes_ns : (putBytes vs s).ns = s.ns := rfl
@[simp] theorem putBytes_byteLen : (putBytes vs s).byteLen = BitVec.ofNat 32 vs.length := rfl
@[simp] theorem putBytes_bitLen : (putBytes vs s).bitLen = s.bitLen := rfl
@[simp] theorem putBytes_sampLen : (putBytes vs s).sampLen = s.sampLen := rfl
@[simp] theorem putBytes_fileLen : (putBytes vs s).fileLen = s.fileLen := rfl
@[simp] theorem putBytes_valid : (putBytes vs s).valid = setValidFlag s.valid .byte true := rfl
@[simp] theorem putBytes_bufSel : (putBytes vs s).bufSel = s.bufSel := rfl
@[simp] theorem putBytes_bufAddr : (putBytes vs s).bufAddr = s.bufAddr := rfl
@[simp] theorem putBytes_errInfo : (putBytes vs s).errInfo = s.errInfo := rfl
@[simp] theorem putBytes_byteBuf : (putBytes vs s).byteBuf = bufOfList vs := rfl
@[simp] theorem putBytes_bitBuf : (putBytes vs s).bitBuf = s.bitBuf := rfl
@[simp] theorem putBytes_sampBuf : (putBytes vs s).sampBuf = s.sampBuf := rfl
@[simp] theorem putBytes_fileBuf : (putBytes vs s).fileBuf = s.fileBuf := rfl
@[simp] theorem putBytes_caps : (putBytes vs s).caps = s.caps := rfl
@[simp] theorem putBytes_queue : (putBytes vs s).queue = s.queue := rfl
@[simp] theorem putBytes_reads : (putBytes vs s).reads = s.reads := rfl
@[simp] theorem putBytes_draws : (putBytes vs s).draws = s.draws := rfl

end

/-! ## putBits -/

section
variable (vs : List Bit) (s : State)

@[simp] theorem putBits_status : (putBits vs s).status = { s.status with done := true } := rfl
@[simp] theorem putBits_fs : (putBits vs s).fs = s.fs := rfl
@[simp] theorem putBits_baud : (putBits vs s).baud = s.baud := rfl
@[simp] theorem putBits_f0 : (putBits vs s).f0 = s.f0 := rfl
@[simp] theorem putBits_ns : (putBits vs s).ns = s.ns := rfl
@[simp] theorem putBits_byteLen : (putBits vs s).byteLen = s.byteLen := rfl
@[simp] theorem putBits_bitLen : (putBits vs s).bitLen = BitVec.ofNat 32 vs.length := rfl
@[simp] theorem putBits_sampLen : (putBits vs s).sampLen = s.sampLen := rfl
@[simp] theorem putBits_fileLen : (putBits vs s).fileLen = s.fileLen := rfl
@[simp] theorem putBits_valid : (putBits vs s).valid = setValidFlag s.valid .bit true := rfl
@[simp] theorem putBits_bufSel : (putBits vs s).bufSel = s.bufSel := rfl
@[simp] theorem putBits_bufAddr : (putBits vs s).bufAddr = s.bufAddr := rfl
@[simp] theorem putBits_errInfo : (putBits vs s).errInfo = s.errInfo := rfl
@[simp] theorem putBits_byteBuf : (putBits vs s).byteBuf = s.byteBuf := rfl
@[simp] theorem putBits_bitBuf : (putBits vs s).bitBuf = bufOfList vs := rfl
@[simp] theorem putBits_sampBuf : (putBits vs s).sampBuf = s.sampBuf := rfl
@[simp] theorem putBits_fileBuf : (putBits vs s).fileBuf = s.fileBuf := rfl
@[simp] theorem putBits_caps : (putBits vs s).caps = s.caps := rfl
@[simp] theorem putBits_queue : (putBits vs s).queue = s.queue := rfl
@[simp] theorem putBits_reads : (putBits vs s).reads = s.reads := rfl
@[simp] theorem putBits_draws : (putBits vs s).draws = s.draws := rfl

end

/-! ## putSamples -/

section
variable (vs : List Sample) (s : State)

@[simp] theorem putSamples_status : (putSamples vs s).status = { s.status with done := true } := rfl
@[simp] theorem putSamples_fs : (putSamples vs s).fs = s.fs := rfl
@[simp] theorem putSamples_baud : (putSamples vs s).baud = s.baud := rfl
@[simp] theorem putSamples_f0 : (putSamples vs s).f0 = s.f0 := rfl
@[simp] theorem putSamples_ns : (putSamples vs s).ns = s.ns := rfl
@[simp] theorem putSamples_byteLen : (putSamples vs s).byteLen = s.byteLen := rfl
@[simp] theorem putSamples_bitLen : (putSamples vs s).bitLen = s.bitLen := rfl
@[simp] theorem putSamples_sampLen : (putSamples vs s).sampLen = BitVec.ofNat 32 vs.length := rfl
@[simp] theorem putSamples_fileLen : (putSamples vs s).fileLen = s.fileLen := rfl
@[simp] theorem putSamples_valid : (putSamples vs s).valid = setValidFlag s.valid .samp true := rfl
@[simp] theorem putSamples_bufSel : (putSamples vs s).bufSel = s.bufSel := rfl
@[simp] theorem putSamples_bufAddr : (putSamples vs s).bufAddr = s.bufAddr := rfl
@[simp] theorem putSamples_errInfo : (putSamples vs s).errInfo = s.errInfo := rfl
@[simp] theorem putSamples_byteBuf : (putSamples vs s).byteBuf = s.byteBuf := rfl
@[simp] theorem putSamples_bitBuf : (putSamples vs s).bitBuf = s.bitBuf := rfl
@[simp] theorem putSamples_sampBuf : (putSamples vs s).sampBuf = bufOfList vs := rfl
@[simp] theorem putSamples_fileBuf : (putSamples vs s).fileBuf = s.fileBuf := rfl
@[simp] theorem putSamples_caps : (putSamples vs s).caps = s.caps := rfl
@[simp] theorem putSamples_queue : (putSamples vs s).queue = s.queue := rfl
@[simp] theorem putSamples_reads : (putSamples vs s).reads = s.reads := rfl
@[simp] theorem putSamples_draws : (putSamples vs s).draws = s.draws := rfl

end

/-! ## putFile -/

section
variable (vs : List Byte) (s : State)

@[simp] theorem putFile_status : (putFile vs s).status = { s.status with done := true } := rfl
@[simp] theorem putFile_fs : (putFile vs s).fs = s.fs := rfl
@[simp] theorem putFile_baud : (putFile vs s).baud = s.baud := rfl
@[simp] theorem putFile_f0 : (putFile vs s).f0 = s.f0 := rfl
@[simp] theorem putFile_ns : (putFile vs s).ns = s.ns := rfl
@[simp] theorem putFile_byteLen : (putFile vs s).byteLen = s.byteLen := rfl
@[simp] theorem putFile_bitLen : (putFile vs s).bitLen = s.bitLen := rfl
@[simp] theorem putFile_sampLen : (putFile vs s).sampLen = s.sampLen := rfl
@[simp] theorem putFile_fileLen : (putFile vs s).fileLen = BitVec.ofNat 32 vs.length := rfl
@[simp] theorem putFile_valid : (putFile vs s).valid = setValidFlag s.valid .file true := rfl
@[simp] theorem putFile_bufSel : (putFile vs s).bufSel = s.bufSel := rfl
@[simp] theorem putFile_bufAddr : (putFile vs s).bufAddr = s.bufAddr := rfl
@[simp] theorem putFile_errInfo : (putFile vs s).errInfo = s.errInfo := rfl
@[simp] theorem putFile_byteBuf : (putFile vs s).byteBuf = s.byteBuf := rfl
@[simp] theorem putFile_bitBuf : (putFile vs s).bitBuf = s.bitBuf := rfl
@[simp] theorem putFile_sampBuf : (putFile vs s).sampBuf = s.sampBuf := rfl
@[simp] theorem putFile_fileBuf : (putFile vs s).fileBuf = bufOfList vs := rfl
@[simp] theorem putFile_caps : (putFile vs s).caps = s.caps := rfl
@[simp] theorem putFile_queue : (putFile vs s).queue = s.queue := rfl
@[simp] theorem putFile_reads : (putFile vs s).reads = s.reads := rfl
@[simp] theorem putFile_draws : (putFile vs s).draws = s.draws := rfl

end

/-! ## invalidate -/

section
variable (x : BufId) (s : State)

@[simp] theorem invalidate_status : (invalidate x s).status = s.status := by cases x <;> rfl
@[simp] theorem invalidate_fs : (invalidate x s).fs = s.fs := by cases x <;> rfl
@[simp] theorem invalidate_baud : (invalidate x s).baud = s.baud := by cases x <;> rfl
@[simp] theorem invalidate_f0 : (invalidate x s).f0 = s.f0 := by cases x <;> rfl
@[simp] theorem invalidate_ns : (invalidate x s).ns = s.ns := by cases x <;> rfl
@[simp] theorem invalidate_byteLen : (invalidate x s).byteLen = s.byteLen := by cases x <;> rfl
@[simp] theorem invalidate_bitLen : (invalidate x s).bitLen = s.bitLen := by cases x <;> rfl
@[simp] theorem invalidate_sampLen : (invalidate x s).sampLen = s.sampLen := by cases x <;> rfl
@[simp] theorem invalidate_fileLen : (invalidate x s).fileLen = s.fileLen := by cases x <;> rfl
@[simp] theorem invalidate_valid : (invalidate x s).valid = setValidFlag s.valid x false := by cases x <;> rfl
@[simp] theorem invalidate_bufSel : (invalidate x s).bufSel = s.bufSel := by cases x <;> rfl
@[simp] theorem invalidate_bufAddr : (invalidate x s).bufAddr = s.bufAddr := by cases x <;> rfl
@[simp] theorem invalidate_errInfo : (invalidate x s).errInfo = s.errInfo := by cases x <;> rfl
@[simp] theorem invalidate_byteBuf : (invalidate x s).byteBuf = if x = .byte then [] else s.byteBuf := by cases x <;> rfl
@[simp] theorem invalidate_bitBuf : (invalidate x s).bitBuf = if x = .bit then [] else s.bitBuf := by cases x <;> rfl
@[simp] theorem invalidate_sampBuf : (invalidate x s).sampBuf = if x = .samp then [] else s.sampBuf := by cases x <;> rfl
@[simp] theorem invalidate_fileBuf : (invalidate x s).fileBuf = if x = .file then [] else s.fileBuf := by cases x <;> rfl
@[simp] theorem invalidate_caps : (invalidate x s).caps = s.caps := by cases x <;> rfl
@[simp] theorem invalidate_queue : (invalidate x s).queue = s.queue := by cases x <;> rfl
@[simp] theorem invalidate_reads : (invalidate x s).reads = s.reads := by cases x <;> rfl
@[simp] theorem invalidate_draws : (invalidate x s).draws = s.draws := by cases x <;> rfl

end

/-! ## raise -/

section
variable (k : ErrKind) (info : Word) (out : Option BufId) (s : State)

@[simp] theorem raise_status : (raise k info out s).status = faultStatus k s.status := by cases out <;> simp [raise]
@[simp] theorem raise_fs : (raise k info out s).fs = s.fs := by cases out <;> simp [raise]
@[simp] theorem raise_baud : (raise k info out s).baud = s.baud := by cases out <;> simp [raise]
@[simp] theorem raise_f0 : (raise k info out s).f0 = s.f0 := by cases out <;> simp [raise]
@[simp] theorem raise_ns : (raise k info out s).ns = s.ns := by cases out <;> simp [raise]
@[simp] theorem raise_byteLen : (raise k info out s).byteLen = s.byteLen := by cases out <;> simp [raise]
@[simp] theorem raise_bitLen : (raise k info out s).bitLen = s.bitLen := by cases out <;> simp [raise]
@[simp] theorem raise_sampLen : (raise k info out s).sampLen = s.sampLen := by cases out <;> simp [raise]
@[simp] theorem raise_fileLen : (raise k info out s).fileLen = s.fileLen := by cases out <;> simp [raise]
@[simp] theorem raise_valid : (raise k info out s).valid = match out with | some x => setValidFlag s.valid x false | none => s.valid := by
  cases out <;> simp [raise]
@[simp] theorem raise_bufSel : (raise k info out s).bufSel = s.bufSel := by cases out <;> simp [raise]
@[simp] theorem raise_bufAddr : (raise k info out s).bufAddr = s.bufAddr := by cases out <;> simp [raise]
@[simp] theorem raise_errInfo : (raise k info out s).errInfo = info := by cases out <;> simp [raise]
@[simp] theorem raise_byteBuf : (raise k info out s).byteBuf = if out = some .byte then [] else s.byteBuf := by
  cases out <;> simp [raise]
@[simp] theorem raise_bitBuf : (raise k info out s).bitBuf = if out = some .bit then [] else s.bitBuf := by
  cases out <;> simp [raise]
@[simp] theorem raise_sampBuf : (raise k info out s).sampBuf = if out = some .samp then [] else s.sampBuf := by
  cases out <;> simp [raise]
@[simp] theorem raise_fileBuf : (raise k info out s).fileBuf = if out = some .file then [] else s.fileBuf := by
  cases out <;> simp [raise]
@[simp] theorem raise_caps : (raise k info out s).caps = s.caps := by cases out <;> simp [raise]
@[simp] theorem raise_queue : (raise k info out s).queue = s.queue := by cases out <;> simp [raise]
@[simp] theorem raise_reads : (raise k info out s).reads = s.reads := by cases out <;> simp [raise]
@[simp] theorem raise_draws : (raise k info out s).draws = s.draws := by cases out <;> simp [raise]

end

/-! ## portWrite -/

section
variable (w : Word) (s : State)

@[simp] theorem portWrite_status : (portWrite w s).status = s.status := by
  simp only [portWrite]; repeat' split
  all_goals rfl
@[simp] theorem portWrite_fs : (portWrite w s).fs = s.fs := by
  simp only [portWrite]; repeat' split
  all_goals rfl
@[simp] theorem portWrite_baud : (portWrite w s).baud = s.baud := by
  simp only [portWrite]; repeat' split
  all_goals rfl
@[simp] theorem portWrite_f0 : (portWrite w s).f0 = s.f0 := by
  simp only [portWrite]; repeat' split
  all_goals rfl
@[simp] theorem portWrite_ns : (portWrite w s).ns = s.ns := by
  simp only [portWrite]; repeat' split
  all_goals rfl
@[simp] theorem portWrite_byteLen : (portWrite w s).byteLen = s.byteLen := by
  simp only [portWrite]; repeat' split
  all_goals rfl
@[simp] theorem portWrite_bitLen : (portWrite w s).bitLen = s.bitLen := by
  simp only [portWrite]; repeat' split
  all_goals rfl
@[simp] theorem portWrite_sampLen : (portWrite w s).sampLen = s.sampLen := by
  simp only [portWrite]; repeat' split
  all_goals rfl
@[simp] theorem portWrite_fileLen : (portWrite w s).fileLen = s.fileLen := by
  simp only [portWrite]; repeat' split
  all_goals rfl
@[simp] theorem portWrite_valid : (portWrite w s).valid = s.valid := by
  simp only [portWrite]; repeat' split
  all_goals rfl
@[simp] theorem portWrite_bufSel : (portWrite w s).bufSel = s.bufSel := by
  simp only [portWrite]; repeat' split
  all_goals rfl
@[simp] theorem portWrite_bufAddr : (portWrite w s).bufAddr = s.bufAddr := by
  simp only [portWrite]; repeat' split
  all_goals rfl
@[simp] theorem portWrite_errInfo : (portWrite w s).errInfo = s.errInfo := by
  simp only [portWrite]; repeat' split
  all_goals rfl
@[simp] theorem portWrite_caps : (portWrite w s).caps = s.caps := by
  simp only [portWrite]; repeat' split
  all_goals rfl
@[simp] theorem portWrite_queue : (portWrite w s).queue = s.queue := by
  simp only [portWrite]; repeat' split
  all_goals rfl
@[simp] theorem portWrite_reads : (portWrite w s).reads = s.reads := by
  simp only [portWrite]; repeat' split
  all_goals rfl
@[simp] theorem portWrite_draws : (portWrite w s).draws = s.draws := by
  simp only [portWrite]; repeat' split
  all_goals rfl

end

/-! ## recordRead -/

section
variable (w : Word) (s : State)

@[simp] theorem recordRead_status : (recordRead w s).status = s.status := rfl
@[simp] theorem recordRead_fs : (recordRead w s).fs = s.fs := rfl
@[simp] theorem recordRead_baud : (recordRead w s).baud = s.baud := rfl
@[simp] theorem recordRead_f0 : (recordRead w s).f0 = s.f0 := rfl
@[simp] theorem recordRead_ns : (recordRead w s).ns = s.ns := rfl
@[simp] theorem recordRead_byteLen : (recordRead w s).byteLen = s.byteLen := rfl
@[simp] theorem recordRead_bitLen : (recordRead w s).bitLen = s.bitLen := rfl
@[simp] theorem recordRead_sampLen : (recordRead w s).sampLen = s.sampLen := rfl
@[simp] theorem recordRead_fileLen : (recordRead w s).fileLen = s.fileLen := rfl
@[simp] theorem recordRead_valid : (recordRead w s).valid = s.valid := rfl
@[simp] theorem recordRead_bufSel : (recordRead w s).bufSel = s.bufSel := rfl
@[simp] theorem recordRead_bufAddr : (recordRead w s).bufAddr = s.bufAddr := rfl
@[simp] theorem recordRead_errInfo : (recordRead w s).errInfo = s.errInfo := rfl
@[simp] theorem recordRead_byteBuf : (recordRead w s).byteBuf = s.byteBuf := rfl
@[simp] theorem recordRead_bitBuf : (recordRead w s).bitBuf = s.bitBuf := rfl
@[simp] theorem recordRead_sampBuf : (recordRead w s).sampBuf = s.sampBuf := rfl
@[simp] theorem recordRead_fileBuf : (recordRead w s).fileBuf = s.fileBuf := rfl
@[simp] theorem recordRead_caps : (recordRead w s).caps = s.caps := rfl
@[simp] theorem recordRead_queue : (recordRead w s).queue = s.queue := rfl
@[simp] theorem recordRead_reads : (recordRead w s).reads = s.reads ++ [w] := rfl
@[simp] theorem recordRead_draws : (recordRead w s).draws = s.draws := rfl

end

/-! ## resetBlock -/

section
variable (s : State)

@[simp] theorem resetBlock_status : (resetBlock s).status = State.reset.status := rfl
@[simp] theorem resetBlock_fs : (resetBlock s).fs = State.reset.fs := rfl
@[simp] theorem resetBlock_baud : (resetBlock s).baud = State.reset.baud := rfl
@[simp] theorem resetBlock_f0 : (resetBlock s).f0 = State.reset.f0 := rfl
@[simp] theorem resetBlock_ns : (resetBlock s).ns = State.reset.ns := rfl
@[simp] theorem resetBlock_byteLen : (resetBlock s).byteLen = State.reset.byteLen := rfl
@[simp] theorem resetBlock_bitLen : (resetBlock s).bitLen = State.reset.bitLen := rfl
@[simp] theorem resetBlock_sampLen : (resetBlock s).sampLen = State.reset.sampLen := rfl
@[simp] theorem resetBlock_fileLen : (resetBlock s).fileLen = State.reset.fileLen := rfl
@[simp] theorem resetBlock_valid : (resetBlock s).valid = State.reset.valid := rfl
@[simp] theorem resetBlock_bufSel : (resetBlock s).bufSel = State.reset.bufSel := rfl
@[simp] theorem resetBlock_bufAddr : (resetBlock s).bufAddr = State.reset.bufAddr := rfl
@[simp] theorem resetBlock_errInfo : (resetBlock s).errInfo = State.reset.errInfo := rfl
@[simp] theorem resetBlock_byteBuf : (resetBlock s).byteBuf = State.reset.byteBuf := rfl
@[simp] theorem resetBlock_bitBuf : (resetBlock s).bitBuf = State.reset.bitBuf := rfl
@[simp] theorem resetBlock_sampBuf : (resetBlock s).sampBuf = State.reset.sampBuf := rfl
@[simp] theorem resetBlock_fileBuf : (resetBlock s).fileBuf = State.reset.fileBuf := rfl
@[simp] theorem resetBlock_caps : (resetBlock s).caps = s.caps := rfl
@[simp] theorem resetBlock_queue : (resetBlock s).queue = s.queue := rfl
@[simp] theorem resetBlock_reads : (resetBlock s).reads = s.reads := rfl
@[simp] theorem resetBlock_draws : (resetBlock s).draws = s.draws := rfl

end

end Sys2Proof.Machine
end

