-- ==== Sys2Proof/Laws/Commands.lean ====
section
/-! SUPPORT. What the shared operations of the commands do: the input check, the symbol period, issue, fault entry; and, said once for
all commands, how each can end (`exec_ends`). -/

namespace Sys2Proof.Machine

/-! ## Elements -/

theorem holdsValue_byte (s : State) (i : Nat) : holdsValue .byte s i = (bufGet s.byteBuf i).isSome := by
  simp [holdsValue, element]

theorem holdsValue_bit (s : State) (i : Nat) : holdsValue .bit s i = (bufGet s.bitBuf i).isSome := by
  simp [holdsValue, element]

theorem holdsValue_samp (s : State) (i : Nat) : holdsValue .samp s i = (bufGet s.sampBuf i).isSome := by
  simp [holdsValue, element]

theorem holdsValue_file (s : State) (i : Nat) : holdsValue .file s i = (bufGet s.fileBuf i).isSome := by
  simp [holdsValue, element]

/-! ## The input check (R233) -/

theorem inputBytes_isSome_iff (s : State) : (inputBytes s).isSome ↔ InputReady .byte s := by
  cases h : s.valid.byteV <;>
    simp [inputBytes, InputReady, validFlag, lengthOf, holdsValue_byte, bufSlice_isSome_iff, h]

theorem inputBits_isSome_iff (s : State) : (inputBits s).isSome ↔ InputReady .bit s := by
  cases h : s.valid.bitV <;>
    simp [inputBits, InputReady, validFlag, lengthOf, holdsValue_bit, bufSlice_isSome_iff, h]

theorem inputSamples_isSome_iff (s : State) : (inputSamples s).isSome ↔ InputReady .samp s := by
  cases h : s.valid.sampV <;>
    simp [inputSamples, InputReady, validFlag, lengthOf, holdsValue_samp, bufSlice_isSome_iff, h]

theorem inputFile_isSome_iff (s : State) : (inputFile s).isSome ↔ InputReady .file s := by
  cases h : s.valid.fileV <;>
    simp [inputFile, InputReady, validFlag, lengthOf, holdsValue_file, bufSlice_isSome_iff, h]

theorem inputBytes_spec {s : State} {vs : List Byte} (h : inputBytes s = some vs) :
    vs.length = s.byteLen.toNat ∧ ∀ i, i < s.byteLen.toNat → vs[i]? = bufGet s.byteBuf i := by
  unfold inputBytes at h
  split at h
  · exact ⟨bufSlice_length h, fun _ => bufSlice_getElem? h⟩
  · cases h

theorem inputBits_spec {s : State} {vs : List Bit} (h : inputBits s = some vs) :
    vs.length = s.bitLen.toNat ∧ ∀ i, i < s.bitLen.toNat → vs[i]? = bufGet s.bitBuf i := by
  unfold inputBits at h
  split at h
  · exact ⟨bufSlice_length h, fun _ => bufSlice_getElem? h⟩
  · cases h

theorem inputSamples_spec {s : State} {vs : List Sample} (h : inputSamples s = some vs) :
    vs.length = s.sampLen.toNat ∧ ∀ i, i < s.sampLen.toNat → vs[i]? = bufGet s.sampBuf i := by
  unfold inputSamples at h
  split at h
  · exact ⟨bufSlice_length h, fun _ => bufSlice_getElem? h⟩
  · cases h

theorem inputFile_spec {s : State} {vs : List Byte} (h : inputFile s = some vs) :
    vs.length = s.fileLen.toNat ∧ ∀ i, i < s.fileLen.toNat → vs[i]? = bufGet s.fileBuf i := by
  unfold inputFile at h
  split at h
  · exact ⟨bufSlice_length h, fun _ => bufSlice_getElem? h⟩
  · cases h

/-- Clearing or setting DONE does not touch the operands. -/
@[simp] theorem inputBytes_setDone (b : Bool) (s : State) : inputBytes (setDone b s) = inputBytes s := rfl
@[simp] theorem inputBits_setDone (b : Bool) (s : State) : inputBits (setDone b s) = inputBits s := rfl
@[simp] theorem inputSamples_setDone (b : Bool) (s : State) : inputSamples (setDone b s) = inputSamples s := rfl
@[simp] theorem inputFile_setDone (b : Bool) (s : State) : inputFile (setDone b s) = inputFile s := rfl
@[simp] theorem symbolPeriod_setDone (b : Bool) (s : State) : symbolPeriod (setDone b s) = symbolPeriod s := rfl

/-! ## The symbol period (R152) -/

theorem symbolPeriod_eq_some_iff (s : State) (n : Nat) : symbolPeriod s = some n ↔ ParametersOk s ∧ n = period s := by
  unfold symbolPeriod ParametersOk period
  split
  · simp_all
  · split
    · simp_all
    · rw [Option.some.injEq, eq_comm (b := n)]
      simp_all

theorem symbolPeriod_eq_none_iff (s : State) :
    symbolPeriod s = none ↔ s.baud = 0 ∨ s.fs.toNat / s.baud.toNat = 0 := by
  unfold symbolPeriod
  split
  · simp_all
  · split <;> simp_all

/-- Good parameters have a sample rate and a period of at least 1. -/
theorem ParametersOk.pos {s : State} (h : ParametersOk s) : 0 < s.fs.toNat ∧ 0 < period s := by
  refine ⟨Nat.pos_of_ne_zero fun h0 => h.2 (by simp [h0]), Nat.pos_of_ne_zero h.2⟩

theorem period_lt (s : State) : period s < 2 ^ 32 := Nat.lt_of_le_of_lt (Nat.div_le_self _ _) s.fs.isLt

/-! ## Issue (R230) and fault entry (R272) -/

theorem issue_halted {s : State} (rule : State → Result) (h : s.status.halt = true) : issue s rule = .next s := by
  simp [issue, h]

theorem issue_running {s : State} (rule : State → Result) (h : s.status.halt = false) :
    issue s rule = rule (setDone false s) := by
  simp [issue, h]

/-- What fault entry leaves, from the state DONE was cleared in. -/
theorem faulted_raise (k : ErrKind) (info : Word) (out : Option BufId) (s : State) :
    Faulted s k info out (raise k info out (setDone false s)) where
  status := by simp [faultStatus]
  errInfo := by simp
  flags x := by
    cases out with
    | none => simp
    | some y =>
      by_cases h : x = y
      · subst h; simp
      · simp [validFlag_setValidFlag_of_ne _ _ h, Ne.symm h]
  emptied x i h := by
    subst h
    cases x <;> simp [holdsValue, element]
  byteBuf h := by simp [h]
  bitBuf h := by simp [h]
  sampBuf h := by simp [h]
  fileBuf h := by simp [h]
  rest := by
    rcases out with - | ⟨-⟩ | ⟨-⟩ | ⟨-⟩ | ⟨-⟩ <;> rfl

/-! ## How each command ends -/

/-- The fault kinds a command can raise (60_exceptions.md R266). -/
def faultsOf : Instr → List ErrKind
  | .nop => []
  | .bitx | .wavwr | .pack => [.ioError, .allocationError]
  | .mod | .demod => [.ioError, .invalidParameter, .allocationError]
  | .wavrd => [.ioError, .malformedContainer, .allocationError]

/-- `t` is what successful completion of a command (R234) makes of `s`, the output being some list within the capacity. -/
inductive Completed (s : State) : Instr → State → Prop
  | nop : Completed s .nop (setDone true s)
  | bitx (vs : List Bit) (h : vs.length ≤ s.caps.bits.val) : Completed s .bitx (putBits vs s)
  | mod (vs : List Sample) (n : Word) (h : vs.length ≤ s.caps.samples.val) :
      Completed s .mod (putSamples vs { s with ns := n })
  | wavwr (vs : List Byte) (h : vs.length ≤ s.caps.file.val) : Completed s .wavwr (putFile vs s)
  | wavrd (vs : List Sample) (rate : Word) (h : vs.length ≤ s.caps.samples.val) :
      Completed s .wavrd (putSamples vs { s with fs := rate })
  | demod (vs : List Bit) (n : Word) (h : vs.length ≤ s.caps.bits.val) :
      Completed s .demod (putBits vs { s with ns := n })
  | pack (vs : List Byte) (h : vs.length ≤ s.caps.bytes.val) : Completed s .pack (putBytes vs s)

/-- How a command ends where the block is not halted: a fault of its own kinds, or its completion. -/
theorem exec_ends (i : Instr) (s : State) (h : s.status.halt = false) :
    (∃ k info, k ∈ faultsOf i ∧ exec i s = .next (raise k info (outputOf i) (setDone false s))) ∨
      ∃ t, exec i s = .next t ∧ Completed (setDone false s) i t := by
  cases i with
  | nop => exact .inr ⟨_, by rw [exec, execNop, issue_running _ h], .nop⟩
  | bitx =>
    simp only [exec, execBitx, issue_running _ h, inputBytes_setDone]
    cases hin : inputBytes s with
    | none => exact .inl ⟨_, _, by simp [faultsOf], rfl⟩
    | some bytes =>
      simp only
      split
      · exact .inl ⟨_, _, by simp [faultsOf], rfl⟩
      · rename_i hc
        refine .inr ⟨_, rfl, .bitx _ ?_⟩
        rw [bitsOfBytes_length, (inputBytes_spec hin).1]
        simpa using hc
  | mod =>
    simp only [exec, execMod, issue_running _ h, inputBits_setDone, symbolPeriod_setDone]
    cases hin : inputBits s with
    | none => exact .inl ⟨_, _, by simp [faultsOf], rfl⟩
    | some bits =>
      cases hns : symbolPeriod s with
      | none => exact .inl ⟨_, _, by simp [faultsOf], rfl⟩
      | some ns =>
        simp only
        split
        · exact .inl ⟨_, _, by simp [faultsOf], rfl⟩
        · rename_i hc
          have hok := ((symbolPeriod_eq_some_iff s ns).mp hns).1
          obtain ⟨vs, hvs, hlen, -, -⟩ := samplesOfInts_modulatedValues hok.pos.1 s.f0.toNat ns bits
          simp only [setDone_fs, setDone_f0, hvs]
          refine .inr ⟨_, rfl, .mod _ _ ?_⟩
          rw [hlen, (inputBits_spec hin).1]
          simpa using hc
  | wavwr =>
    simp only [exec, execWavwr, issue_running _ h, inputSamples_setDone]
    cases hin : inputSamples s with
    | none => exact .inl ⟨_, _, by simp [faultsOf], rfl⟩
    | some samples =>
      simp only
      split
      · exact .inl ⟨_, _, by simp [faultsOf], rfl⟩
      · rename_i hc
        refine .inr ⟨_, rfl, .wavwr _ ?_⟩
        rw [List.length_append, headerBytes_length, payloadBytes_length, (inputSamples_spec hin).1]
        simpa using hc
  | wavrd =>
    simp only [exec, execWavrd, issue_running _ h, inputFile_setDone]
    cases hin : inputFile s with
    | none => exact .inl ⟨_, _, by simp [faultsOf], rfl⟩
    | some image =>
      simp only
      split
      · exact .inl ⟨_, _, by simp [faultsOf], rfl⟩
      split
      · exact .inl ⟨_, _, by simp [faultsOf], rfl⟩
      split
      · exact .inl ⟨_, _, by simp [faultsOf], rfl⟩
      rename_i hc
      split
      · exact .inl ⟨_, _, by simp [faultsOf], rfl⟩
      · exact .inr ⟨_, rfl, .wavrd _ _ ((payloadSamples_length_le _ _).trans (not_lt.mp hc))⟩
  | demod =>
    simp only [exec, execDemod, issue_running _ h, inputSamples_setDone, symbolPeriod_setDone]
    cases hin : inputSamples s with
    | none => exact .inl ⟨_, _, by simp [faultsOf], rfl⟩
    | some samples =>
      cases hns : symbolPeriod s with
      | none => exact .inl ⟨_, _, by simp [faultsOf], rfl⟩
      | some ns =>
        simp only
        split
        · exact .inl ⟨_, _, by simp [faultsOf], rfl⟩
        · rename_i hc
          refine .inr ⟨_, rfl, .demod _ _ ?_⟩
          rw [demodulatedBits_length]
          simpa using hc
  | pack =>
    simp only [exec, execPack, issue_running _ h, inputBits_setDone]
    cases hin : inputBits s with
    | none => exact .inl ⟨_, _, by simp [faultsOf], rfl⟩
    | some bits =>
      simp only
      split
      · exact .inl ⟨_, _, by simp [faultsOf], rfl⟩
      · rename_i hc
        refine .inr ⟨_, rfl, .pack _ ?_⟩
        rw [packBits_length]
        simpa using hc

theorem exec_halted (i : Instr) {s : State} (h : s.status.halt = true) : exec i s = .next s := by
  cases i <;>
    simp only [exec, execNop, execBitx, execMod, execWavwr, execWavrd, execDemod, execPack, issue_halted _ h]

/-- Inversion: a command that answers a next state was ignored, faulted, or completed. -/
theorem exec_next_cases {i : Instr} {s t : State} (h : exec i s = .next t) :
    (s.status.halt = true ∧ t = s) ∨
    (s.status.halt = false ∧ ∃ k info, k ∈ faultsOf i ∧ t = raise k info (outputOf i) (setDone false s)) ∨
    (s.status.halt = false ∧ Completed (setDone false s) i t) := by
  cases hh : s.status.halt with
  | true =>
    rw [exec_halted i hh] at h
    exact .inl ⟨rfl, (Host.Outcome.next.inj h).symm⟩
  | false =>
    rcases exec_ends i s hh with ⟨k, info, hk, he⟩ | ⟨u, he, hc⟩
    · rw [he] at h
      exact .inr (.inl ⟨rfl, k, info, hk, (Host.Outcome.next.inj h).symm⟩)
    · rw [he] at h
      exact .inr (.inr ⟨rfl, Host.Outcome.next.inj h ▸ hc⟩)

/-- No fault kind a command raises is `none`. -/
theorem ne_none_of_mem_faultsOf {i : Instr} {k : ErrKind} (h : k ∈ faultsOf i) : k ≠ .none := by
  rintro rfl
  cases i <;> simp [faultsOf] at h

end Sys2Proof.Machine
end

