-- ==== Sys2Proof/Laws/AnyNumerics.lean ====
section
/-! SUPPORT. The block under an arbitrary numerics record: at the ideal instance the signal path is the model's own, an admissible
record keeps the quantizer in its range, and a command ends as under the ideal instance or stops in the quantizer. -/

namespace Sys2Proof.Machine

theorem symbolValuesWith_ideal {fs : ℕ} (h : 0 < fs) (f0 : ℕ) (b : Bit) (n idx : ℕ) :
    symbolValuesWith Num.ideal fs f0 b n idx = symbolValues fs f0 b n idx := by
  induction n generalizing idx with
  | zero => rfl
  | succ n ih => rw [symbolValuesWith, symbolValues, ih, quantize_eq h]

theorem modulatedValuesWith_ideal {fs : ℕ} (h : 0 < fs) (f0 ns idx : ℕ) (bs : List Bit) :
    modulatedValuesWith Num.ideal fs f0 ns idx bs = modulatedValues fs f0 ns idx bs := by
  induction bs generalizing idx with
  | nil => rfl
  | cons b bs ih => rw [modulatedValuesWith, modulatedValues, ih, symbolValuesWith_ideal h]

theorem decideWindowWith_ideal {fs : ℕ} (h : 0 < fs) (f0 idx : ℕ) (w : List Sample) :
    decideWindowWith Num.ideal fs f0 idx w = decideWindow fs f0 idx w := by
  unfold decideWindowWith
  split
  · rename_i h1
    exact ((decideWindow_eq_one_iff h f0 idx w).mpr h1).symm
  · rename_i h1
    exact ((decideWindow_eq_zero_iff h f0 idx w).mpr (not_lt.mp h1)).symm

theorem demodulatedBitsWith_ideal {fs : ℕ} (h : 0 < fs) (f0 ns l idx : ℕ) (w : List Sample) :
    demodulatedBitsWith Num.ideal fs f0 ns l idx w = demodulatedBits fs f0 ns l idx w := by
  induction l generalizing idx w with
  | zero => rfl
  | succ l ih => rw [demodulatedBitsWith, demodulatedBits, ih, decideWindowWith_ideal h]

/-- P1 of R133 bounds the quantizer (R126). -/
theorem abs_quantized_le {N : Sys2Proof.Num} (hN : N.Admissible) {fs : ℕ} (h : 0 < fs) (f0 idx : ℕ) (b : Bit) :
    |N.quantized fs f0 idx b| ≤ 32767 := by
  have hc := hN.carr_bounded fs f0 idx h
  exact abs_realTrunc_le (n := 32767) (by simpa using hN.scale_bounded _ _ (amp_eq_one_or b) (abs_le.mpr hc))

theorem abs_modulatedValuesWith_le {N : Sys2Proof.Num} (hN : N.Admissible) {fs : ℕ} (h : 0 < fs) (f0 ns idx : ℕ)
    (bs : List Bit) : ∀ m ∈ modulatedValuesWith N fs f0 ns idx bs, |m| ≤ 32767 := by
  have hs : ∀ (b : Bit) (n idx : ℕ), ∀ m ∈ symbolValuesWith N fs f0 b n idx, |m| ≤ 32767 := by
    intro b n
    induction n with
    | zero => simp [symbolValuesWith]
    | succ n ih =>
      intro idx m hm
      rw [symbolValuesWith, List.mem_cons] at hm
      rcases hm with rfl | hm
      · exact abs_quantized_le hN h _ _ _
      · exact ih _ m hm
  induction bs generalizing idx with
  | nil => simp [modulatedValuesWith]
  | cons b bs ih =>
    intro m hm
    rw [modulatedValuesWith, List.mem_append] at hm
    exact hm.elim (hs _ _ _ m) (ih _ m)

/-! ## The quantizer's range -/

/-- A magnitude at or beyond a whole number is one that truncation keeps there. -/
theorem natCast_le_abs_realTrunc_iff (x : ℝ) (n : ℕ) : (n : ℤ) ≤ |realTrunc x| ↔ (n : ℝ) ≤ |x| := by
  have hf : |realTrunc x| = ⌊|x|⌋ := by
    unfold realTrunc
    split
    · rename_i h
      rw [abs_of_nonneg h, abs_of_nonneg (Int.floor_nonneg.mpr h)]
    · rename_i h
      have h' : 0 ≤ -x := by linarith
      rw [abs_neg, abs_of_nonneg (Int.floor_nonneg.mpr h'), abs_of_neg (by linarith)]
  rw [hf, Int.le_floor, Int.cast_natCast]

theorem sampleOfInt_eq_none_iff (n : ℤ) : sampleOfInt n = none ↔ 32768 ≤ |n| := by
  unfold sampleOfInt
  rw [le_abs]
  split <;> simp <;> omega

theorem samplesOfInts_eq_none_iff (ns : List ℤ) : samplesOfInts ns = none ↔ ∃ n ∈ ns, 32768 ≤ |n| := by
  induction ns with
  | nil => simp [samplesOfInts]
  | cons n ns ih =>
    rw [List.exists_mem_cons_iff, ← ih, ← sampleOfInt_eq_none_iff, samplesOfInts]
    cases sampleOfInt n <;> cases samplesOfInts ns <;> simp

theorem samplesOfInts_length {ns : List ℤ} {vs : List Sample} (h : samplesOfInts ns = some vs) :
    vs.length = ns.length := by
  induction ns generalizing vs with
  | nil => cases h; rfl
  | cons n ns ih =>
    rw [samplesOfInts] at h
    cases h1 : sampleOfInt n <;> cases h2 : samplesOfInts ns <;> simp only [h1, h2] at h <;> cases h
    simp [ih h2]

theorem symbolValuesWith_length (N : Sys2Proof.Num) (fs f0 : ℕ) (b : Bit) (n idx : ℕ) :
    (symbolValuesWith N fs f0 b n idx).length = n := by
  induction n generalizing idx with
  | zero => rfl
  | succ n ih => simp [symbolValuesWith, ih]

theorem modulatedValuesWith_length (N : Sys2Proof.Num) (fs f0 ns idx : ℕ) (bs : List Bit) :
    (modulatedValuesWith N fs f0 ns idx bs).length = bs.length * ns := by
  induction bs generalizing idx with
  | nil => simp [modulatedValuesWith]
  | cons b bs ih => simp [modulatedValuesWith, ih, symbolValuesWith_length]; ring

theorem mem_symbolValuesWith (N : Sys2Proof.Num) (fs f0 : ℕ) (b : Bit) (n idx : ℕ) (m : ℤ) :
    m ∈ symbolValuesWith N fs f0 b n idx ↔ ∃ j, j < n ∧ m = N.quantized fs f0 (idx + j) b := by
  induction n generalizing idx with
  | zero => simp [symbolValuesWith]
  | succ n ih =>
    rw [symbolValuesWith, List.mem_cons, ih, Nat.exists_lt_succ_left]
    simp only [Nat.add_zero, Nat.add_assoc, Nat.add_comm 1]

theorem mem_modulatedValuesWith (N : Sys2Proof.Num) (fs f0 ns idx : ℕ) (bs : List Bit) (m : ℤ) :
    m ∈ modulatedValuesWith N fs f0 ns idx bs ↔
      ∃ i j b, bs[i]? = some b ∧ j < ns ∧ m = N.quantized fs f0 (idx + (i * ns + j)) b := by
  induction bs generalizing idx with
  | nil => simp [modulatedValuesWith]
  | cons c bs ih =>
    rw [modulatedValuesWith, List.mem_append, mem_symbolValuesWith, ih]
    constructor
    · rintro (⟨j, hj, rfl⟩ | ⟨i, j, b, hb, hj, rfl⟩)
      · exact ⟨0, j, c, rfl, hj, by rw [Nat.zero_mul, Nat.zero_add]⟩
      · exact ⟨i + 1, j, b, hb, hj, by rw [Nat.succ_mul]; congr 1; omega⟩
    · rintro ⟨i, j, b, hb, hj, rfl⟩
      cases i with
      | zero => cases hb; exact .inl ⟨j, hj, by rw [Nat.zero_mul, Nat.zero_add]⟩
      | succ i => exact .inr ⟨i, j, b, hb, hj, by rw [Nat.succ_mul]; congr 1; omega⟩

theorem demodulatedBitsWith_length (N : Sys2Proof.Num) (fs f0 ns l idx : ℕ) (w : List Sample) :
    (demodulatedBitsWith N fs f0 ns l idx w).length = l := by
  induction l generalizing idx w with
  | zero => rfl
  | succ l ih => simp [demodulatedBitsWith, ih]

/-! ## How a command ends -/

theorem execWith_halted (N : Sys2Proof.Num) (i : Instr) {s : State} (h : s.status.halt = true) :
    execWith N i s = .next s := by
  cases i <;> simp only [execWith, exec_halted _ h, execModWith, execDemodWith, issue_halted _ h]

/-- MOD past its checks, under any record: its samples, or the stop where a value is out of range. -/
theorem execWith_mod_eq (N : Sys2Proof.Num) {s : State} {bits : List Bit} (hs : s.status.halt = false)
    (hin : inputBits s = some bits) (hp : ParametersOk s) (hc : s.bitLen.toNat * period s ≤ s.caps.samples.val) :
    execWith N .mod s =
      match samplesOfInts (modulatedValuesWith N s.fs.toNat s.f0.toNat (period s) 0 bits) with
      | none => .fault .quantizerRange
      | some vs => .next (putSamples vs { setDone false s with ns := BitVec.ofNat 32 (period s) }) := by
  simp only [execWith, execModWith, issue_running _ hs, inputBits_setDone, hin, symbolPeriod_setDone,
    (symbolPeriod_eq_some_iff s _).mpr ⟨hp, rfl⟩, setDone_caps, setDone_bitLen]
  exact (if_neg (Nat.not_lt.mpr hc)).trans rfl

/-- How a command ends under any record where the block is not halted: as under the ideal instance, or, MOD only, in the
quantizer's stop, and that only under a record that is not admissible. -/
theorem execWith_ends (N : Sys2Proof.Num) (i : Instr) (s : State) (h : s.status.halt = false) :
    (∃ k info, k ∈ faultsOf i ∧ execWith N i s = .next (raise k info (outputOf i) (setDone false s))) ∨
      (∃ t, execWith N i s = .next t ∧ Completed (setDone false s) i t) ∨
      (i = .mod ∧ ¬ N.Admissible ∧ execWith N i s = .fault .quantizerRange) := by
  cases i with
  | mod =>
    simp only [execWith, execModWith, issue_running _ h, inputBits_setDone, symbolPeriod_setDone]
    cases hin : inputBits s with
    | none => exact .inl ⟨_, _, by simp [faultsOf], rfl⟩
    | some bits =>
      cases hns : symbolPeriod s with
      | none => exact .inl ⟨_, _, by simp [faultsOf], rfl⟩
      | some ns =>
        simp only
        split
        · exact .inl ⟨_, _, by simp [faultsOf], rfl⟩
        · rename_i hc
          have hok := ((symbolPeriod_eq_some_iff s ns).mp hns).1
          cases hv : samplesOfInts (modulatedValuesWith N (setDone false s).fs.toNat (setDone false s).f0.toNat ns 0 bits) with
          | none =>
            refine .inr (.inr ⟨trivial, fun hN => ?_, rfl⟩)
            obtain ⟨m, hm, hm'⟩ := (samplesOfInts_eq_none_iff _).mp hv
            have := abs_modulatedValuesWith_le hN hok.pos.1 _ _ _ _ m hm
            omega
          | some vs =>
            refine .inr (.inl ⟨_, rfl, .mod _ _ ?_⟩)
            rw [samplesOfInts_length hv, modulatedValuesWith_length, (inputBits_spec hin).1]
            simpa using hc
  | demod =>
    simp only [execWith, execDemodWith, issue_running _ h, inputSamples_setDone, symbolPeriod_setDone]
    cases hin : inputSamples s with
    | none => exact .inl ⟨_, _, by simp [faultsOf], rfl⟩
    | some samples =>
      cases hns : symbolPeriod s with
      | none => exact .inl ⟨_, _, by simp [faultsOf], rfl⟩
      | some ns =>
        simp only
        split
        · exact .inl ⟨_, _, by simp [faultsOf], rfl⟩
        · rename_i hc
          refine .inr (.inl ⟨_, rfl, .demod _ _ ?_⟩)
          rw [demodulatedBitsWith_length]
          simpa using hc
  | nop | bitx | wavwr | wavrd | pack => exact (exec_ends _ s h).imp_right .inl

/-- Inversion: a command that answers a next state under any record was ignored, faulted, or completed. -/
theorem execWith_next_cases {N : Sys2Proof.Num} {i : Instr} {s t : State} (h : execWith N i s = .next t) :
    (s.status.halt = true ∧ t = s) ∨
    (s.status.halt = false ∧ ∃ k info, k ∈ faultsOf i ∧ t = raise k info (outputOf i) (setDone false s)) ∨
    (s.status.halt = false ∧ Completed (setDone false s) i t) := by
  cases hh : s.status.halt with
  | true =>
    rw [execWith_halted N i hh] at h
    exact .inl ⟨rfl, (Host.Outcome.next.inj h).symm⟩
  | false =>
    rcases execWith_ends N i s hh with ⟨k, info, hk, he⟩ | ⟨u, he, hc⟩ | ⟨-, -, he⟩
    · rw [he] at h
      exact .inr (.inl ⟨rfl, k, info, hk, (Host.Outcome.next.inj h).symm⟩)
    · rw [he] at h
      exact .inr (.inr ⟨rfl, Host.Outcome.next.inj h ▸ hc⟩)
    · rw [he] at h
      cases h

end Sys2Proof.Machine
end

