-- ==== Sys2Proof/Laws/Completion.lean ====
section
/-! SUPPORT. One equation per command: what it answers where its checks pass, in terms of its input operand; and what a field of a
ready image reads as. -/

namespace Sys2Proof.Machine

theorem exec_bitx_eq {s : State} {bytes : List Byte} (hs : s.status.halt = false) (hin : inputBytes s = some bytes)
    (hc : 8 * s.byteLen.toNat ≤ s.caps.bits.val) :
    exec .bitx s = .next (putBits (bitsOfBytes bytes) (setDone false s)) := by
  simp [exec, execBitx, issue_running _ hs, hin, Nat.not_lt.mpr hc]

theorem exec_mod_eq {s : State} {bits : List Bit} (hs : s.status.halt = false) (hin : inputBits s = some bits)
    (hp : ParametersOk s) (hc : s.bitLen.toNat * period s ≤ s.caps.samples.val) :
    ∃ vs, exec .mod s = .next (putSamples vs { setDone false s with ns := BitVec.ofNat 32 (period s) }) ∧
      vs.length = s.bitLen.toNat * period s ∧ (∀ v ∈ vs, |v.toInt| ≤ 32767) ∧
      ∀ i j b, bits[i]? = some b → j < period s →
        ∃ v, vs[i * period s + j]? = some v ∧
          v.toInt = Num.ideal.quantized s.fs.toNat s.f0.toNat (i * period s + j) b := by
  obtain ⟨vs, h1, h2, h3, h4⟩ := samplesOfInts_modulatedValues hp.pos.1 s.f0.toNat (period s) bits
  refine ⟨vs, ?_, by rw [h2, (inputBits_spec hin).1], h3, h4⟩
  simp [exec, execMod, issue_running _ hs, hin, (symbolPeriod_eq_some_iff s _).mpr ⟨hp, rfl⟩, hc, h1]

theorem exec_wavwr_eq {s : State} {samples : List Sample} (hs : s.status.halt = false)
    (hin : inputSamples s = some samples) (hc : 44 + 2 * s.sampLen.toNat ≤ s.caps.file.val) :
    exec .wavwr s
      = .next (putFile (headerBytes s.fs.toNat s.sampLen.toNat ++ payloadBytes samples) (setDone false s)) := by
  simp [exec, execWavwr, issue_running _ hs, hin, Nat.not_lt.mpr hc]

theorem exec_wavrd_eq {s : State} {image : List Byte} (hs : s.status.halt = false) (hin : inputFile s = some image)
    (h44 : 44 ≤ s.fileLen.toNat) (h0 : 0 < memRead image 40 4) (h1 : memRead image 40 4 < 2 ^ 31)
    (hc : memRead image 40 4 / 2 ≤ s.caps.samples.val) (hl : 44 + 2 * (memRead image 40 4 / 2) ≤ s.fileLen.toNat) :
    exec .wavrd s = .next (putSamples (payloadSamples (memRead image 40 4 / 2) (image.drop 44))
      { setDone false s with fs := BitVec.ofNat 32 (memRead image 24 4) }) := by
  have hlt := memRead_lt image 40 4
  have htn : (BitVec.ofNat 32 (memRead image 40 4)).toNat = memRead image 40 4 := by
    rw [BitVec.toNat_ofNat]; omega
  have n1 : ¬ (setDone false s).fileLen.toNat < 44 := not_lt.mpr h44
  have n2 : ¬ (BitVec.ofNat 32 (memRead image 40 4)).toInt ≤ 0 := by rw [toInt_ofNat_nonpos_iff hlt]; omega
  have n3 : ¬ (setDone false s).caps.samples.val < memRead image 40 4 / 2 := not_lt.mpr hc
  have n4 : ¬ (setDone false s).fileLen.toNat < 44 + 2 * (memRead image 40 4 / 2) := not_lt.mpr hl
  simp only [exec, execWavrd, issue_running _ hs, inputFile_setDone, hin]
  rw [if_neg n1, if_neg n2, htn, if_neg n3, if_neg n4]

theorem exec_demod_eq {s : State} {samples : List Sample} (hs : s.status.halt = false)
    (hin : inputSamples s = some samples) (hp : ParametersOk s) (hc : s.sampLen.toNat / period s ≤ s.caps.bits.val) :
    exec .demod s = .next (putBits
      (demodulatedBits s.fs.toNat s.f0.toNat (period s) (s.sampLen.toNat / period s) 0 samples)
      { setDone false s with ns := BitVec.ofNat 32 (period s) }) := by
  simp [exec, execDemod, issue_running _ hs, hin, (symbolPeriod_eq_some_iff s _).mpr ⟨hp, rfl⟩, Nat.not_lt.mpr hc]

theorem exec_pack_eq {s : State} {bits : List Bit} (hs : s.status.halt = false) (hin : inputBits s = some bits)
    (hc : ceil8 s.bitLen.toNat ≤ s.caps.bytes.val) :
    exec .pack s = .next (putBytes (packBits (ceil8 s.bitLen.toNat) bits) (setDone false s)) := by
  simp [exec, execPack, issue_running _ hs, hin, Nat.not_lt.mpr hc]

/-! ## The inputs read back what a command wrote -/

theorem inputBits_putBits (vs : List Bit) (s : State) (h : vs.length < 2 ^ 32) : inputBits (putBits vs s) = some vs := by
  have hl : (putBits vs s).bitLen.toNat = vs.length := by rw [putBits_bitLen, BitVec.toNat_ofNat, Nat.mod_eq_of_lt h]
  have hv : (putBits vs s).valid.bitV = true := rfl
  rw [inputBits, if_pos hv, hl, putBits_bitBuf, bufSlice_bufOfList]

theorem inputBytes_putBytes (vs : List Byte) (s : State) (h : vs.length < 2 ^ 32) :
    inputBytes (putBytes vs s) = some vs := by
  have hl : (putBytes vs s).byteLen.toNat = vs.length := by
    rw [putBytes_byteLen, BitVec.toNat_ofNat, Nat.mod_eq_of_lt h]
  have hv : (putBytes vs s).valid.byteV = true := rfl
  rw [inputBytes, if_pos hv, hl, putBytes_byteBuf, bufSlice_bufOfList]

theorem inputSamples_putSamples (vs : List Sample) (s : State) (h : vs.length < 2 ^ 32) :
    inputSamples (putSamples vs s) = some vs := by
  have hl : (putSamples vs s).sampLen.toNat = vs.length := by
    rw [putSamples_sampLen, BitVec.toNat_ofNat, Nat.mod_eq_of_lt h]
  have hv : (putSamples vs s).valid.sampV = true := rfl
  rw [inputSamples, if_pos hv, hl, putSamples_sampBuf, bufSlice_bufOfList]

theorem inputFile_putFile (vs : List Byte) (s : State) (h : vs.length < 2 ^ 32) : inputFile (putFile vs s) = some vs := by
  have hl : (putFile vs s).fileLen.toNat = vs.length := by
    rw [putFile_fileLen, BitVec.toNat_ofNat, Nat.mod_eq_of_lt h]
  have hv : (putFile vs s).valid.fileV = true := rfl
  rw [inputFile, if_pos hv, hl, putFile_fileBuf, bufSlice_bufOfList]

/-- A field of a ready image, read from its bytes (R63). -/
theorem fileField_eq_memRead {s : State} {image : List Byte} (h : inputFile s = some image) {addr n : Nat}
    (hn : addr + n ≤ s.fileLen.toNat) : fileField s addr n = some (memRead image addr n) := by
  unfold inputFile at h
  split at h
  · rw [fileField, bufSlice_part h hn]
    rfl
  · cases h

end Sys2Proof.Machine
end

