-- ==== Sys2Proof/Laws/HostAccess.lean ====
section
/-! SUPPORT. What the host's accesses do to the buffers, and that every operation that writes buffers keeps their canonical form
and their capacities. -/

namespace Sys2Proof.Machine

/-! ## VALID and BUF_SEL (R32, R33) -/

/-- Reading VALID after writing it gives the word's four low bits. -/
theorem validWord_validOfWord (w : Word) : validWord (validOfWord w) = w &&& 0xF := by
  have h : ∀ lo : BitVec 4, validWord ⟨lo.getLsbD 0, lo.getLsbD 1, lo.getLsbD 2, lo.getLsbD 3⟩
      = lo.setWidth 32 := by decide
  have hw : w &&& 0xF = (w.extractLsb' 0 4).setWidth 32 := by
    apply BitVec.eq_of_toNat_eq
    have hn := Nat.and_two_pow_sub_one_eq_mod w.toNat 4
    norm_num at hn
    simp [hn]
    omega
  rw [hw, ← h]
  simp [validOfWord]

/-- Reading BUF_SEL after writing it gives the word's two low bits. -/
theorem bufIndex_bufOfWord (w : Word) : bufIndex (bufOfWord w) = w &&& 0x3 := by
  have h : ∀ lo : BitVec 2, bufIndex (match lo.toNat with | 0 => .byte | 1 => .bit | 2 => .samp | _ => .file)
      = lo.setWidth 32 := by decide
  have hw : w &&& 0x3 = (w.extractLsb' 0 2).setWidth 32 := by
    apply BitVec.eq_of_toNat_eq
    have hn := Nat.and_two_pow_sub_one_eq_mod w.toNat 2
    norm_num at hn
    simp [hn]
    omega
  rw [hw, ← h]
  rfl

@[simp] theorem validOfWord_validWord (v : Valid) : validOfWord (validWord v) = v := by
  rcases v with ⟨a, b, c, d⟩
  cases a <;> cases b <;> cases c <;> cases d <;> rfl

@[simp] theorem bufOfWord_bufIndex (x : BufId) : bufOfWord (bufIndex x) = x := by
  cases x <;> rfl

/-! ## The access port (R35) -/

/-- The index the port names lies below the capacity of the selected buffer. -/
abbrev PortOpen (s : State) : Prop := s.bufAddr.toNat < capacity s.caps s.bufSel

theorem portWrite_closed (w : Word) {s : State} (h : ¬ PortOpen s) : portWrite w s = s := by
  simp only [portWrite, if_pos (not_lt.mp h)]

theorem element_portWrite_self (w : Word) {s : State} (h : PortOpen s) :
    element s.bufSel (portWrite w s) s.bufAddr.toNat = some (elementWord s.bufSel w) := by
  have h' : ¬ capacity s.caps s.bufSel ≤ s.bufAddr.toNat := not_le.mpr h
  unfold portWrite
  cases hx : s.bufSel <;> simp only [hx] at h' ⊢ <;> simp [h', element, elementWord, bufGet_bufSet_self]

theorem element_portWrite_other (w : Word) (s : State) (x : BufId) (i : Nat)
    (h : x ≠ s.bufSel ∨ i ≠ s.bufAddr.toNat) : element x (portWrite w s) i = element x s i := by
  by_cases ho : PortOpen s
  · have h' : ¬ capacity s.caps s.bufSel ≤ s.bufAddr.toNat := not_le.mpr ho
    unfold portWrite
    simp only [if_neg h']
    cases hx : s.bufSel <;> simp only [hx] at h <;> cases x <;> simp_all [element, bufGet_bufSet_of_ne]
  · rw [portWrite_closed w ho]

theorem portWrite_rest (w : Word) (s : State) :
    { portWrite w s with byteBuf := s.byteBuf, bitBuf := s.bitBuf, sampBuf := s.sampBuf, fileBuf := s.fileBuf } = s := by
  unfold portWrite
  simp only
  repeat' split
  all_goals rfl

/-- The port reads the selected element below the capacity, and gives no word elsewhere. -/
theorem portRead_eq (s : State) : portRead s = if PortOpen s then element s.bufSel s s.bufAddr.toNat else none := by
  unfold portRead element
  by_cases h : PortOpen s
  · refine (if_neg (not_le.mpr h)).trans (Eq.trans ?_ (if_pos h).symm)
    cases s.bufSel <;> rfl
  · rw [if_neg h, if_pos (not_lt.mp h)]

/-! ## The canonical form and the capacities are kept -/

/-- Every buffer is in canonical form and within its capacity: the memory clauses of the invariant. -/
structure MemoryOk (s : State) : Prop where
  wf : Memory.wf s = true
  byte : bufWithin s.caps.bytes.val s.byteBuf = true
  bit : bufWithin s.caps.bits.val s.bitBuf = true
  samp : bufWithin s.caps.samples.val s.sampBuf = true
  file : bufWithin s.caps.file.val s.fileBuf = true

theorem Memory.wf_iff (s : State) : Memory.wf s = true ↔
    bufWf s.byteBuf = true ∧ bufWf s.bitBuf = true ∧ bufWf s.sampBuf = true ∧ bufWf s.fileBuf = true := by
  simp [Memory.wf, and_assoc]

theorem memory_wf_reset : Memory.wf State.reset = true := by decide

theorem memoryOk_resetBlock (s : State) : MemoryOk (resetBlock s) := by
  constructor <;> rfl

theorem memoryOk_portWrite (w : Word) {s : State} (h : MemoryOk s) : MemoryOk (portWrite w s) := by
  by_cases ho : PortOpen s
  · have h' : ¬ capacity s.caps s.bufSel ≤ s.bufAddr.toNat := not_le.mpr ho
    obtain ⟨hw, h1, h2, h3, h4⟩ := h
    rw [Memory.wf_iff] at hw
    unfold portWrite
    simp only [if_neg h']
    cases hx : s.bufSel <;> simp only [PortOpen, hx, capacity] at ho <;> constructor <;>
      simp_all [Memory.wf_iff, bufWf_bufSet, bufWithin_bufSet]
  · rwa [portWrite_closed w ho]

theorem memoryOk_raise (k : ErrKind) (info : Word) (out : Option BufId) {s : State} (h : MemoryOk s) :
    MemoryOk (raise k info out s) := by
  obtain ⟨hw, h1, h2, h3, h4⟩ := h
  rw [Memory.wf_iff] at hw
  constructor
  · rw [Memory.wf_iff]
    rcases out with - | ⟨-⟩ | ⟨-⟩ | ⟨-⟩ | ⟨-⟩ <;> simp [hw]
  all_goals rcases out with - | ⟨-⟩ | ⟨-⟩ | ⟨-⟩ | ⟨-⟩ <;> simp [*]

theorem memoryOk_setDone (b : Bool) {s : State} (h : MemoryOk s) : MemoryOk (setDone b s) := ⟨h.1, h.2, h.3, h.4, h.5⟩

/-- A command's completion keeps the form and the capacities. -/
theorem Completed.memoryOk {i : Instr} {s t : State} (hc : Completed s i t) (h : MemoryOk s) : MemoryOk t := by
  obtain ⟨hw, h1, h2, h3, h4⟩ := h
  rw [Memory.wf_iff] at hw
  cases hc <;> constructor <;> simp_all [Memory.wf_iff, bufWithin_bufOfList]

end Sys2Proof.Machine
end

