-- ==== Sys2Proof/Laws/PerInstr.lean ====
section
/-! SUPPORT. The per-instruction family EncodedOk: the command word of every command has its opcode in bits 3:0, passes R93's checks,
and is the number of its opcode-table row. -/

namespace Sys2Proof.Laws.EncodedOk

/-- What the encoding of a command is (R90, R91, R93). -/
def Statement (i : Instr) : Prop :=
  i.wellFormed = true ∧ opField (encode i) = opcode i ∧ zeroField (encode i) = 0 ∧ commandWordOk (encode i) = true ∧
    decodeTableWord 32 (opcode i).toNat = some i

theorem nop : Statement .nop := by unfold Statement; decide
theorem bitx : Statement .bitx := by unfold Statement; decide
theorem mod : Statement .mod := by unfold Statement; decide
theorem wavwr : Statement .wavwr := by unfold Statement; decide
theorem wavrd : Statement .wavrd := by unfold Statement; decide
theorem demod : Statement .demod := by unfold Statement; decide
theorem pack : Statement .pack := by unfold Statement; decide

end Sys2Proof.Laws.EncodedOk
end

