-- ==== Sys2Proof/Laws/Run.lean ====
section
/-! SUPPORT. Steps that take one access of the host, and runs of several steps. -/

namespace Sys2Proof.Machine

/-- A step that takes the write of a register other than CMD. -/
theorem step_write {s : State} (off : Nat) (w : Word) (rest : List HostAction) (hb : s.status.busy = false)
    (ho : off % 4 = 0) (h0 : off ≠ 0) :
    step { s with queue := .write off w :: rest } = .next (writeRegister off w { s with queue := rest }) := by
  simp [step, takeAction, hostAct, ho, hb, hostWrite, h0]

/-- A step that takes a read. -/
theorem step_read {s : State} (off : Nat) (rest : List HostAction) (hb : s.status.busy = false) (ho : off % 4 = 0) :
    step { s with queue := .read off :: rest } = .next (hostRead off { s with queue := rest }) := by
  simp [step, takeAction, hostAct, ho, hb]

/-- Putting back the queue a state has changes nothing. -/
theorem queue_self {s : State} {q : List HostAction} (h : s.queue = q) : { s with queue := q } = s := by
  subst h; rfl

/-- A run of one step. -/
theorem run_one {M : Host.Core} {s t : M.State} (h : M.step s = .next t) : M.run 1 s = .next t := by
  rw [Host.Core.run, h]
  rfl

/-- A run of `m` steps and then `n` more. -/
theorem run_add {M : Host.Core} (m n : Nat) {s t : M.State} (h : M.run m s = .next t) :
    M.run (m + n) s = M.run n t := by
  induction m generalizing s with
  | zero => cases h; simp
  | succ m ih =>
    rw [Nat.succ_add, Host.Core.run]
    rw [Host.Core.run] at h
    cases hs : M.step s with
    | next u => rw [hs] at h; exact ih h
    | fault f => rw [hs] at h; cases h
    | refused f => rw [hs] at h; cases h

end Sys2Proof.Machine
end

