-- ==== Sys2Proof/Tests/Slice0.lean ====
section
/-! SUPPORT. Tests: decoding and well-formedness from the words of 30_encoding.md R91, one-step tests from the vectors of
95_test_vectors.md (each names its vector), and for each obligation a witness that its hypotheses can be met. -/

namespace Sys2Proof.Tests

open Sys2Proof.Machine

set_option Elab.async false

/-! ## Small states -/

/-- Capacities for bytes, bits, samples and file bytes. -/
def capsOf (b c d e : Nat) : Capacities :=
  ⟨⟨b % 2 ^ 32, Nat.mod_lt _ (by decide)⟩, ⟨c % 2 ^ 32, Nat.mod_lt _ (by decide)⟩,
   ⟨d % 2 ^ 30, Nat.mod_lt _ (by decide)⟩, ⟨e % 2 ^ 32, Nat.mod_lt _ (by decide)⟩⟩

/-- The reset state of an instance with these capacities. -/
def machine (b c d e : Nat) : State := { State.reset with caps := capsOf b c d e }

/-- A small instance after reset. -/
def small : State := machine 4 32 64 64

/-- The same, halted by the word 7 (V-CTL-2). -/
def halted : State :=
  { small with status := { busy := false, done := false, halt := true, err := .illegalCommand }, errInfo := 7 }

/-- The same while a command executes. -/
def busy : State := { small with status := { small.status with busy := true } }

/-- FS, BAUD and F0 written. -/
def tuned (fs baud f0 : Word) (s : State) : State := { s with fs := fs, baud := baud, f0 := f0 }

/-- BYTEBUF loaded (R101). -/
def withBytes (vs : List Byte) (s : State) : State :=
  { s with byteBuf := bufOfList vs, byteLen := BitVec.ofNat 32 vs.length, valid := setValidFlag s.valid .byte true }

/-- BITBUF loaded. -/
def withBits (vs : List Bit) (s : State) : State :=
  { s with bitBuf := bufOfList vs, bitLen := BitVec.ofNat 32 vs.length, valid := setValidFlag s.valid .bit true }

/-- SAMPBUF loaded. -/
def withSamples (vs : List Int) (s : State) : State :=
  { s with sampBuf := bufOfList (vs.map (BitVec.ofInt 16)), sampLen := BitVec.ofNat 32 vs.length,
           valid := setValidFlag s.valid .samp true }

/-- FILEBUF loaded. -/
def withFile (vs : List Byte) (s : State) : State :=
  { s with fileBuf := bufOfList vs, fileLen := BitVec.ofNat 32 vs.length, valid := setValidFlag s.valid .file true }

/-- The step answers a next state of which `p` holds. -/
def leads (r : Result) (p : State → Bool) : Bool :=
  match r with
  | .next t => p t
  | .fault _ => false
  | .refused _ => false

theorem next_of_leads {r : Result} {p : State → Bool} (h : leads r p = true) : ∃ t, r = .next t ∧ p t = true := by
  cases r with
  | next t => exact ⟨t, rfl, h⟩
  | fault f => cases h
  | refused f => cases h

/-- STATUS and ERR_INFO read as these words. -/
def reads (status errInfo : Word) (t : State) : Bool := statusWord t.status == status && t.errInfo == errInfo

/-- The image of V-WAVWR-4 with these bytes at 40 to 43. -/
def imageWithSize (size : List Byte) : List Byte :=
  [0x52, 0x49, 0x46, 0x46, 0x2c, 0x00, 0x00, 0x00, 0x57, 0x41, 0x56, 0x45, 0x66, 0x6d, 0x74, 0x20] ++
  [0x10, 0x00, 0x00, 0x00, 0x01, 0x00, 0x01, 0x00, 0x44, 0xac, 0x00, 0x00, 0x88, 0x58, 0x01, 0x00] ++
  [0x02, 0x00, 0x10, 0x00, 0x64, 0x61, 0x74, 0x61] ++ size ++ [0x01, 0x00, 0xff, 0xff, 0xff, 0x7f, 0x00, 0x80]

/-- The image of V-WAVWR-4. -/
def image : List Byte := imageWithSize [0x08, 0x00, 0x00, 0x00]

/-- The image of V-WAVRD-7, no header byte of which but those at 24 to 27 and 40 to 43 is as R96 says. -/
def strangeImage : List Byte :=
  List.replicate 24 0xee ++ [0x11, 0x2b, 0x00, 0x00] ++ List.replicate 12 0xee ++ [0x04, 0x00, 0x00, 0x00] ++
  [0x34, 0x12, 0xff, 0xff]

/-- For each command a state in which it completes. -/
def ready : Instr → State
  | .nop => small
  | .bitx => withBytes [0xA5] small
  | .mod => withBits [0, 1] (tuned 8000 4000 1000 small)
  | .wavwr => withSamples [1, -1, 32767, -32768] { small with fs := 44100 }
  | .wavrd => withFile image small
  | .demod => withSamples [1, 1, 2, 1, 1, 2, 5] (tuned 2 1 1 small)
  | .pack => withBits [1, 0, 1] small

/-! ## Decoding and well-formedness -/

/-- The words of R91, written out bit by bit. -/
theorem test_decode_nop : (decode 0b00000000000000000000000000000000#32).toOption = some .nop := by decide
theorem test_decode_bitx : (decode 0b00000000000000000000000000000001#32).toOption = some .bitx := by decide
theorem test_decode_mod : (decode 0b00000000000000000000000000000010#32).toOption = some .mod := by decide
theorem test_decode_wavwr : (decode 0b00000000000000000000000000000011#32).toOption = some .wavwr := by decide
theorem test_decode_wavrd : (decode 0b00000000000000000000000000000100#32).toOption = some .wavrd := by decide
theorem test_decode_demod : (decode 0b00000000000000000000000000000101#32).toOption = some .demod := by decide
theorem test_decode_pack : (decode 0b00000000000000000000000000000110#32).toOption = some .pack := by decide

/-- Each reserved opcode of R91, and a set bit in each half of the zero field (V-CTL-2 to V-CTL-4), is refused by name. -/
theorem test_decode_reserved :
    [7, 8, 9, 10, 11, 12, 13, 14, 15].all (fun w => match decode w with
      | .error .reservedOpcode => true
      | _ => false) = true := by decide
theorem test_decode_zeroField :
    [0x00000010, 0x80000001].all (fun w => match decode w with
      | .error .zeroFieldSet => true
      | _ => false) = true := by decide

/-- Each check of R93 refuses an ill-formed word; every command is well formed. -/
theorem test_wellFormed_zeroField : zeroFieldOk 0x10 = false ∧ opcodeOk 0x10 = true ∧ commandWordOk 0x10 = false := by decide
theorem test_wellFormed_opcode : zeroFieldOk 7 = true ∧ opcodeOk 7 = false ∧ commandWordOk 7 = false := by decide
theorem test_wellFormed_words : [0, 1, 2, 3, 4, 5, 6].all commandWordOk = true := by decide
theorem test_wellFormed_commands : ∀ i : Instr, i.wellFormed = true := by
  intro i; cases i <;> rfl

/-- The opcode-table word: 32 bits, and nothing above them. -/
theorem test_tableWord : decodeTableWord 32 6 = some .pack ∧ decodeTableWord 32 7 = none ∧ decodeTableWord 40 (2 ^ 32) = none := by
  decide

/-- The word placed for the host is the command the next step issues. -/
theorem test_fetchWord : leads (step (State.reset.withFetchWord 32 0)) (fun t => t.status.done && t.queue == []) = true := by
  decide +kernel

theorem test_reset_memory_wf : Memory.wf State.reset = true := by decide

/-! ## One step of each command -/

/-- V-CTL-1. -/
theorem test_nop : leads (exec .nop State.reset)
    (fun t => t == { State.reset with status := { State.reset.status with done := true } }) = true := by decide +kernel

/-- V-BITX-1. -/
theorem test_bitx : leads (exec .bitx (ready .bitx)) (fun t =>
    t.bitLen == 8 && bufSlice t.bitBuf 0 8 == some [1, 0, 1, 0, 0, 1, 0, 1] && t.valid.bitV && reads 2 0 t) = true := by
  decide +kernel

/-- V-BITX-10. -/
theorem test_bitx_capacity : leads (exec .bitx (withBytes [1, 2, 3] (machine 3 16 0 0))) (reads 0x24 24) = true := by
  decide +kernel

/-- V-MOD-7. -/
theorem test_mod : leads (exec .mod (ready .mod)) (fun t =>
    t.ns == 2 && t.sampLen == 4 && (List.range 4).map (sampleValue t) == [-32767, -23169, 0, -23169] && reads 2 0 t) = true := by
  decide +kernel

/-- V-MOD-12 (c). -/
theorem test_mod_parameter : leads (exec .mod (withBits [1] (tuned 8000 8001 1000 small))) (reads 0x54 8001) = true := by
  decide +kernel

/-- R126, 93 U3: the samples are -32767 to 32767, and a value of magnitude 32768 is none. -/
theorem test_quantizer_range : sampleOfInt 32767 = some 0x7FFF ∧ sampleOfInt (-32767) = some 0x8001 ∧
    sampleOfInt 32768 = none ∧ sampleOfInt (-32768) = none := by decide +kernel

/-- V-WAVWR-4. -/
theorem test_wavwr : leads (exec .wavwr (ready .wavwr)) (fun t =>
    t.fileLen == 52 && bufSlice t.fileBuf 0 52 == some image && reads 2 0 t) = true := by
  decide +kernel

/-- V-WAVWR-6 (c). -/
theorem test_wavwr_capacity : leads (exec .wavwr (withSamples [] (machine 0 0 0 43))) (reads 0x24 44) = true := by
  decide +kernel

/-- V-WAVRD-7. -/
theorem test_wavrd : leads (exec .wavrd (withFile strangeImage small)) (fun t =>
    t.fs == 11025 && t.sampLen == 2 && (List.range 2).map (sampleValue t) == [4660, -1] && reads 2 0 t) = true := by
  decide +kernel

/-- V-WAVRD-4: the declared size is read as a signed number. -/
theorem test_wavrd_size : leads (exec .wavrd (withFile (imageWithSize [0x00, 0x00, 0x00, 0x80]) small))
    (reads 0x34 0x80000000) = true := by decide +kernel

/-- V-DEMOD-4 (a): windows whose sums are 0, 1 and -1, and a trailing sample. -/
theorem test_demod : leads (exec .demod (ready .demod)) (fun t =>
    t.ns == 2 && t.bitLen == 3 && bufSlice t.bitBuf 0 3 == some [0, 1, 0] && reads 2 0 t) = true := by
  decide +kernel

/-- V-DEMOD-9, its first window: a sum that is exactly 0. -/
theorem test_demod_cancels : leads (exec .demod (withSamples [32767, 23169, 0, -23169, -32767, -23169, 0, 23169]
      (tuned 8000 1000 2000 small))) (fun t => bufSlice t.bitBuf 0 1 == some [0] && reads 2 0 t) = true := by
  decide +kernel

/-- V-PACK-4. -/
theorem test_pack : leads (exec .pack (ready .pack)) (fun t =>
    t.byteLen == 1 && bufSlice t.byteBuf 0 1 == some [0xA0] && reads 2 0 t) = true := by
  decide +kernel

/-- V-PACK-11. -/
theorem test_pack_capacity : leads (exec .pack (withBits [1, 1, 1, 1, 1, 1, 1, 1, 1] (machine 1 9 0 0))) (reads 0x24 2) = true := by
  decide +kernel

/-! ## Accesses of the host -/

/-- V-CTL-3, V-CTL-6. -/
theorem test_illegal_word : leads (hostAct (.write 0x00 0x10) State.reset) (reads 0x44 0x10) = true := by decide +kernel
theorem test_halted_ignores : leads (hostAct (.write 0x00 0) halted) (fun t => t == halted) = true := by decide +kernel

/-- V-CTL-13: a sample reads sign-extended. -/
theorem test_port_read : leads (hostAct (.read 0x34) { withSamples [32767, 23169, 0, -23169] small with
    bufSel := .samp, bufAddr := 3 }) (fun t => t.reads == [0xFFFFA57F]) = true := by decide +kernel

/-- V-CTL-14: the low bits of the word are stored. -/
theorem test_port_write :
    leads (hostAct (.write 0x34 0xFFFFFFFF) { small with bufSel := .bit }) (fun t => t.bitBuf == [(0, 1)]) = true ∧
    leads (hostAct (.write 0x34 0xFFFFFFFF) { small with bufSel := .samp }) (fun t => t.sampBuf == [(0, 0xFFFF)]) = true := by
  constructor <;> decide +kernel

/-! ## Witnesses: encoding and issue -/

theorem witness_DecodeOfEncode : Instr.demod.wellFormed = true := by decide

theorem witness_OnlyTheSevenWordsDecode : decode 6 = .ok .pack ∧ decode 7 ≠ .ok .pack := by
  constructor
  · rfl
  · intro h; cases h

theorem witness_IllegalWordRaisesIllegalCommand :
    small.status.halt = false ∧ zeroField 0x10 ≠ 0 ∧ opField 0x10 = 0 ∧ 7 ≤ (opField 7).toNat ∧ zeroField 7 = 0 ∧
      7 ≤ (opField 15).toNat ∧ ¬ 7 ≤ (opField 6).toNat := by decide

theorem witness_StepRunsTheIssuedCommand :
    small.status.busy = false ∧ decode 1 = .ok .bitx ∧ Instr.bitx.wellFormed = true := ⟨rfl, rfl, rfl⟩

theorem witness_HaltedBlockIgnoresCommands : halted.status.halt = true := rfl

/-- The three ends of CommandStepIsTotal. -/
theorem witness_CommandStepIsTotal_done : small.status.halt = false ∧
    leads (hostWrite 0x00 0 small) (fun t => t.status.done && !t.status.halt) = true := by decide +kernel
theorem witness_CommandStepIsTotal_fault : small.status.halt = false ∧
    leads (hostWrite 0x00 7 small) (fun t => !t.status.done && t.status.halt) = true := by decide +kernel
theorem witness_CommandStepIsTotal_halted : halted.status.halt = true := rfl

theorem witness_FaultRecordIsSticky : halted.status.halt = true ∧ HostAction.write 0x08 8000 ≠ .rst ∧
    ∃ t, hostAct (.write 0x08 8000) halted = .next t ∧ (t.fs == 8000) = true :=
  ⟨rfl, by decide, next_of_leads (by decide +kernel)⟩

/-- From the reset state each command but NOP faults (NOP never does). -/
theorem witness_CommandsRaiseOnlyTheirFaults (i : Instr) (h : i ≠ .nop) : small.status.halt = false ∧
    ∃ t, exec i small = .next t ∧ t.status.halt = true := by
  refine ⟨rfl, next_of_leads ?_⟩
  cases i
  · exact absurd rfl h
  all_goals decide +kernel

/-- Every command completes from its ready state: the hypotheses of InputsAreReadOnly, CommandFrame and ReissueChangesNothing. -/
theorem witness_completes (i : Instr) : (ready i).status.halt = false ∧
    ∃ t, exec i (ready i) = .next t ∧ (t.status.done && !t.status.halt) = true := by
  refine ⟨by cases i <;> rfl, next_of_leads ?_⟩
  cases i <;> decide +kernel

theorem witness_ReissueChangesNothing : (ready .mod).status.halt = false ∧
    ∃ t, exec .mod (ready .mod) = .next t ∧ t.status.done = true :=
  ⟨rfl, next_of_leads (by decide +kernel)⟩

theorem witness_InputsAreReadOnly_wavrd : inputOf .wavrd = some .file ∧
    ∃ t, exec .wavrd (ready .wavrd) = .next t ∧ (t.fs != (ready .wavrd).fs) = true :=
  ⟨rfl, next_of_leads (by decide +kernel)⟩
theorem witness_InputsAreReadOnly : Instr.pack ≠ .wavrd ∧ inputOf .pack = some .bit ∧
    ∃ t, exec .pack (ready .pack) = .next t ∧ t.status.done = true :=
  ⟨by decide, rfl, next_of_leads (by decide +kernel)⟩

theorem witness_CommandFrame : outputOf .wavwr ≠ some .samp ∧ Instr.wavwr ≠ .mod ∧ Instr.wavwr ≠ .demod ∧
    ∃ t, exec .wavwr (ready .wavwr) = .next t ∧ (!t.status.halt) = true :=
  ⟨by decide, by decide, by decide, next_of_leads (by decide +kernel)⟩

theorem witness_NopSetsDone : small.status.halt = false ∧ halted.status.halt = true := ⟨rfl, rfl⟩

/-! ## Witnesses: the commands -/

theorem witness_BitxFaults_flag : small.status.halt = false ∧ ¬ InputReady .byte small := by decide +kernel
/-- V-BITX-9: the last element holds no value. -/
theorem witness_BitxFaults_hole : ¬ InputReady .byte { withBytes [0xA5] small with byteLen := 2 } := by decide +kernel
/-- One bit too few. -/
theorem witness_BitxFaults_capacity : InputReady .byte (withBytes [0xA5] (machine 1 7 0 0)) ∧
    (withBytes [0xA5] (machine 1 7 0 0)).caps.bits.val < 8 * (withBytes [0xA5] (machine 1 7 0 0)).byteLen.toNat := by
  decide +kernel

/-- Exactly enough bits. -/
theorem witness_BitxExtractsBits : (withBytes [0xA5] (machine 1 8 0 0)).status.halt = false ∧
    InputReady .byte (withBytes [0xA5] (machine 1 8 0 0)) ∧
    8 * (withBytes [0xA5] (machine 1 8 0 0)).byteLen.toNat = (withBytes [0xA5] (machine 1 8 0 0)).caps.bits.val ∧
    bufGet (withBytes [0xA5] (machine 1 8 0 0)).byteBuf 0 = some 0xA5 := by decide +kernel

theorem witness_ModFaults_flag : small.status.halt = false ∧ ¬ InputReady .bit small := by decide +kernel
theorem witness_ModFaults_hole : ¬ InputReady .bit { withBits [1] small with bitLen := 2 } := by decide +kernel
/-- BAUD = 0, and FS one below BAUD. -/
theorem witness_ModFaults_parameter : InputReady .bit (withBits [1] (tuned 8000 0 0 small)) ∧
    (withBits [1] (tuned 8000 0 0 small)).baud = 0 ∧ InputReady .bit (withBits [1] (tuned 8000 8001 0 small)) ∧
    (withBits [1] (tuned 8000 8001 0 small)).fs.toNat / (withBits [1] (tuned 8000 8001 0 small)).baud.toNat = 0 := by
  decide +kernel
/-- Three samples of room for two bits of two samples. -/
theorem witness_ModFaults_capacity : InputReady .bit (withBits [0, 1] (tuned 8000 4000 1000 (machine 0 2 3 0))) ∧
    ParametersOk (withBits [0, 1] (tuned 8000 4000 1000 (machine 0 2 3 0))) ∧
    (machine 0 2 3 0).caps.samples.val < 2 * period (withBits [0, 1] (tuned 8000 4000 1000 (machine 0 2 3 0))) := by
  decide +kernel

/-- Exactly four samples of room. -/
def modState : State := withBits [0, 1] (tuned 8000 4000 1000 (machine 0 2 4 0))
theorem witness_ModWritesTheQuantizedCarrier : modState.status.halt = false ∧ InputReady .bit modState ∧
    ParametersOk modState ∧ modState.bitLen.toNat * period modState = modState.caps.samples.val ∧ 1 < period modState ∧
    bufGet modState.bitBuf 1 = some 1 := by decide +kernel
theorem witness_ModSamplesAreBounded : modState.status.halt = false ∧
    ∃ t, exec .mod modState = .next t ∧ (t.status.done && decide (3 < t.sampLen.toNat)) = true :=
  ⟨rfl, next_of_leads (by decide +kernel)⟩
/-- The first bit 0, and the first bit 1. -/
theorem witness_ModSamplesAreSignedCarrier : modState.status.halt = false ∧
    (∃ t, exec .mod modState = .next t ∧ (t.status.done && decide (0 < t.sampLen.toNat)) = true) ∧
    bufGet modState.bitBuf 0 = some 0 ∧
    (∃ t, exec .mod (withBits [1] modState) = .next t ∧ (t.status.done && decide (0 < t.sampLen.toNat)) = true) ∧
    bufGet (withBits [1] modState).bitBuf 0 = some 1 :=
  ⟨rfl, next_of_leads (by decide +kernel), by decide +kernel, next_of_leads (by decide +kernel), by decide +kernel⟩
theorem witness_AliasedCarrierModulatesAlike : (9000 : Word).toNat % modState.fs.toNat = modState.f0.toNat % modState.fs.toNat ∧
    ∃ t, exec .mod modState = .next t ∧ t.status.done = true :=
  ⟨by decide +kernel, next_of_leads (by decide +kernel)⟩

theorem witness_WavwrFaults_flag : small.status.halt = false ∧ ¬ InputReady .samp small := by decide +kernel
theorem witness_WavwrFaults_hole : ¬ InputReady .samp { withSamples [7] small with sampLen := 2 } := by decide +kernel
theorem witness_WavwrFaults_capacity : InputReady .samp (withSamples [7] (machine 0 0 1 45)) ∧
    (machine 0 0 1 45).caps.file.val < 44 + 2 * (withSamples [7] (machine 0 0 1 45)).sampLen.toNat := by decide +kernel
theorem witness_WavwrWritesTheContainer : (withSamples [7] (machine 0 0 1 46)).status.halt = false ∧
    InputReady .samp (withSamples [7] (machine 0 0 1 46)) ∧
    44 + 2 * (withSamples [7] (machine 0 0 1 46)).sampLen.toNat = (machine 0 0 1 46).caps.file.val ∧
    bufGet (withSamples [7] (machine 0 0 1 46)).sampBuf 0 = some 7 := by decide +kernel

theorem witness_WavrdFaults_flag : small.status.halt = false ∧ ¬ InputReady .file small := by decide +kernel
theorem witness_WavrdFaults_hole : ¬ InputReady .file { withFile [1] small with fileLen := 2 } := by decide +kernel
theorem witness_WavrdFaults_short : InputReady .file (withFile (image.take 43) small) ∧
    (withFile (image.take 43) small).fileLen.toNat < 44 := by decide +kernel
/-- The declared sizes 0 and 2^31, in images of at least 44 bytes. -/
theorem witness_WavrdFaults_size : InputReady .file (withFile (imageWithSize [0, 0, 0, 0]) small) ∧
    44 ≤ (withFile ((imageWithSize [0, 0, 0, 0]).take 44) small).fileLen.toNat ∧
    fileField (withFile (imageWithSize [0, 0, 0, 0]) small) 40 4 = some 0 ∧
    InputReady .file (withFile (imageWithSize [0, 0, 0, 0x80]) small) ∧
    fileField (withFile (imageWithSize [0, 0, 0, 0x80]) small) 40 4 = some (2 ^ 31) := by decide +kernel
/-- Four samples declared, room for three. -/
theorem witness_WavrdFaults_capacity : InputReady .file (withFile image (machine 0 0 3 64)) ∧
    44 ≤ (withFile image (machine 0 0 3 64)).fileLen.toNat ∧
    fileField (withFile image (machine 0 0 3 64)) 40 4 = some 8 ∧ (machine 0 0 3 64).caps.samples.val < 8 / 2 := by
  decide +kernel
/-- V-WAVRD-5 (c): one payload byte missing. -/
theorem witness_WavrdFaults_payload : InputReady .file (withFile (image.take 51) (machine 0 0 4 64)) ∧
    fileField (withFile (image.take 51) (machine 0 0 4 64)) 40 4 = some 8 ∧ 8 / 2 ≤ (machine 0 0 4 64).caps.samples.val ∧
    (withFile (image.take 51) (machine 0 0 4 64)).fileLen.toNat < 44 + 2 * (8 / 2) := by decide +kernel

/-- The image exactly as long as it declares, the samples exactly fitting. -/
theorem witness_WavrdReadsTheContainer : (withFile image (machine 0 0 4 64)).status.halt = false ∧
    InputReady .file (withFile image (machine 0 0 4 64)) ∧
    fileField (withFile image (machine 0 0 4 64)) 24 4 = some 44100 ∧
    fileField (withFile image (machine 0 0 4 64)) 40 4 = some 8 ∧ 8 / 2 ≤ (machine 0 0 4 64).caps.samples.val ∧
    44 + 2 * (8 / 2) = (withFile image (machine 0 0 4 64)).fileLen.toNat ∧
    bufGet (withFile image (machine 0 0 4 64)).fileBuf 50 = some 0 ∧
    bufGet (withFile image (machine 0 0 4 64)).fileBuf 51 = some 0x80 := by decide +kernel

/-- An image and the same with its first byte another. -/
theorem witness_WavrdIgnoresOtherHeaderBytes : InputReady .file (ready .wavrd) ∧
    InputReady .file { ready .wavrd with fileBuf := bufSet (ready .wavrd).fileBuf 0 0xEE } ∧
    (∀ i, i < (ready .wavrd).fileLen.toNat → (24 ≤ i ∧ i < 28 ∨ 40 ≤ i) →
      bufGet (bufSet (ready .wavrd).fileBuf 0 0xEE) i = bufGet (ready .wavrd).fileBuf i) ∧
    bufGet (bufSet (ready .wavrd).fileBuf 0 0xEE) 0 ≠ bufGet (ready .wavrd).fileBuf 0 := by decide +kernel

theorem witness_ContainerFidelity : (withSamples [7] (machine 0 0 1 46)).status.halt = false ∧
    InputReady .samp (withSamples [7] (machine 0 0 1 46)) ∧ 1 = (withSamples [7] (machine 0 0 1 46)).sampLen.toNat ∧
    1 ≤ (machine 0 0 1 46).caps.samples.val ∧ 44 + 2 * 1 ≤ (machine 0 0 1 46).caps.file.val := by decide +kernel

theorem witness_EmptyContainerCannotBeReadBack : (withSamples [] (machine 0 0 0 44)).status.halt = false ∧
    (withSamples [] (machine 0 0 0 44)).valid.sampV = true ∧ (withSamples [] (machine 0 0 0 44)).sampLen = 0 ∧
    44 ≤ (machine 0 0 0 44).caps.file.val := by decide +kernel

theorem witness_DemodFaults_flag : small.status.halt = false ∧ ¬ InputReady .samp small := by decide +kernel
theorem witness_DemodFaults_hole : ¬ InputReady .samp { withSamples [7] small with sampLen := 2 } := by decide +kernel
theorem witness_DemodFaults_parameter : InputReady .samp (withSamples [7] (tuned 8000 0 0 small)) ∧
    (withSamples [7] (tuned 8000 0 0 small)).baud = 0 ∧ InputReady .samp (withSamples [7] (tuned 8000 8001 0 small)) ∧
    (withSamples [7] (tuned 8000 8001 0 small)).fs.toNat / (withSamples [7] (tuned 8000 8001 0 small)).baud.toNat = 0 := by
  decide +kernel
/-- Three windows, room for two bits. -/
theorem witness_DemodFaults_capacity : InputReady .samp (withSamples [1, 1, 2, 1, 1, 2, 5] (tuned 2 1 1 (machine 0 2 7 0))) ∧
    ParametersOk (tuned 2 1 1 (machine 0 2 7 0)) ∧
    (machine 0 2 7 0).caps.bits.val < 7 / period (tuned 2 1 1 (machine 0 2 7 0)) := by decide +kernel

/-- Three windows, room for three bits. -/
def demodState : State := withSamples [1, 1, 2, 1, 0, 0, 5] (tuned 2 1 1 (machine 0 3 7 0))
theorem witness_DemodDecidesEachWindow : demodState.status.halt = false ∧ InputReady .samp demodState ∧
    ParametersOk demodState ∧ demodState.sampLen.toNat / period demodState = demodState.caps.bits.val ∧
    0 < demodState.caps.bits.val := by decide +kernel
theorem witness_ZeroWindowDecidesZero : demodState.status.halt = false ∧
    (∃ t, exec .demod demodState = .next t ∧ (t.status.done && decide (2 < t.bitLen.toNat)) = true) ∧
    ∀ j, j < period demodState → sampleValue demodState (2 * period demodState + j) = 0 :=
  ⟨rfl, next_of_leads (by decide +kernel), by decide +kernel⟩

/-- Two bits of two samples, exactly fitting; bit 1 is a 1. -/
theorem witness_ModemRoundTrip : modState.status.halt = false ∧ InputReady .bit modState ∧ ParametersOk modState ∧
    modState.bitLen.toNat * period modState = modState.caps.samples.val ∧
    modState.bitLen.toNat = modState.caps.bits.val := by decide +kernel

/-- A record other than the ideal one: its carrier is constantly 1, its other fields are exact. -/
noncomputable def constantCarrier : Sys2Proof.Num where
  carr _ _ _ := 1
  scale a c := 32767 * a * c
  mul s c := s * c
  acc l := l.sum
theorem witness_AdmissibleNumericsNeverStop_numerics : constantCarrier.Admissible where
  carr_bounded _ _ _ _ := by norm_num [constantCarrier]
  scale_bounded a c ha hc := by
    have : |(a : ℝ)| = 1 := by rcases ha with rfl | rfl <;> simp
    simp only [constantCarrier, abs_mul, this]
    norm_num
    linarith
  scale_odd c := by simp [constantCarrier]
  mul_neg_left s c := by simp [constantCarrier]
  mul_neg_right s c := by simp [constantCarrier]
  mul_zero s c := by simp [constantCarrier]
  mul_sign s c := ⟨Iff.rfl, Iff.rfl⟩
  acc_nonneg l h := by
    induction l with
    | nil => simp [constantCarrier]
    | cons x l ih =>
      have hx := h x (by simp)
      have := ih fun y hy => h y (by simp [hy])
      simp only [constantCarrier, List.sum_cons, List.exists_mem_cons_iff] at this ⊢
      refine ⟨by linarith [this.1], ?_⟩
      rw [← this.2]
      constructor
      · intro hp
        by_contra hn
        push Not at hn
        linarith [hn.1, hn.2]
      · rintro (hp | hp) <;> linarith [this.1]
  acc_nonpos l h := by
    induction l with
    | nil => simp [constantCarrier]
    | cons x l ih =>
      have hx := h x (by simp)
      have := ih fun y hy => h y (by simp [hy])
      simp only [constantCarrier, List.sum_cons, List.exists_mem_cons_iff] at this ⊢
      refine ⟨by linarith [this.1], ?_⟩
      rw [← this.2]
      constructor
      · intro hp
        by_contra hn
        push Not at hn
        linarith [hn.1, hn.2]
      · rintro (hp | hp) <;> linarith [this.1]
  acc_nil := rfl
/-- MOD under it with BAUD = 0 takes its fault. -/
theorem witness_AdmissibleNumericsNeverStop_fault :
    ∃ t, execWith constantCarrier .mod (withBits [1] small) = .next t ∧ t.status.err = .invalidParameter := ⟨_, rfl, rfl⟩
/-- One bit at one sample a bit under it: MOD succeeds with one sample. -/
def oneBit : State := withBits [1] (tuned 8 8 1 small)
theorem witness_AdmissibleNumericsNeverStop_done : oneBit.status.halt = false ∧
    ∃ t, execWith constantCarrier .mod oneBit = .next t ∧ t.status.done = true ∧ t.sampLen.toNat = 1 := by
  have hq : constantCarrier.quantized 8 1 0 1 = 32767 := by
    have h : (32767 * ((1 : ℤ) : ℝ) * 1) = ((32767 : ℤ) : ℝ) := by norm_num
    simp only [Num.quantized, constantCarrier, Num.amp, if_true, h, realTrunc_intCast]
  have hm : modulatedValuesWith constantCarrier 8 1 1 0 [1] = [32767] := by
    show [constantCarrier.quantized 8 1 0 1] ++ [] = _
    rw [hq]
    rfl
  have hi : inputBits (setDone false oneBit) = some [1] := by decide +kernel
  have hp : symbolPeriod (setDone false oneBit) = some 1 := by decide +kernel
  have hf : (setDone false oneBit).fs.toNat = 8 := by decide +kernel
  have hg : (setDone false oneBit).f0.toNat = 1 := by decide +kernel
  have hs : samplesOfInts [32767] = some [32767] := by decide +kernel
  have hc : ¬ (setDone false oneBit).caps.samples.val < (setDone false oneBit).bitLen.toNat * 1 := by decide +kernel
  refine ⟨rfl, putSamples [32767] { setDone false oneBit with ns := 1 }, ?_, rfl, rfl⟩
  simp only [execWith, execModWith, issue_running _ (show oneBit.status.halt = false from rfl), hi, hp, hf, hg, hm, hs,
    if_neg hc]
  rfl

/-- Any record: MOD past its checks. -/
theorem witness_AdmissibleNumericsNeverStop_checks : modState.status.halt = false ∧ InputReady .bit modState ∧
    ParametersOk modState ∧ modState.bitLen.toNat * period modState ≤ modState.caps.samples.val ∧
    0 < modState.bitLen.toNat ∧ 0 < period modState := by decide +kernel
/-- A record without P1, whose scaled values are all just out of range; and the ideal one, none of whose is. -/
noncomputable def outOfRange : Sys2Proof.Num := { constantCarrier with scale := fun _ _ => -32768 }
theorem witness_AdmissibleNumericsNeverStop_range (a : ℤ) (c : ℝ) : 32768 ≤ |outOfRange.scale a c| := by
  norm_num [outOfRange]
theorem witness_AdmissibleNumericsNeverStop_inRange (a : ℤ) (ha : a = 1 ∨ a = -1) :
    ¬ 32768 ≤ |constantCarrier.scale a (constantCarrier.carr 8 1 0)| := by
  rcases ha with rfl | rfl <;> norm_num [constantCarrier]

theorem witness_PackFaults_flag : small.status.halt = false ∧ ¬ InputReady .bit small := by decide +kernel
theorem witness_PackFaults_hole : ¬ InputReady .bit { withBits [1] small with bitLen := 2 } := by decide +kernel
/-- Nine bits, room for one byte. -/
theorem witness_PackFaults_capacity : InputReady .bit (withBits [1, 1, 1, 1, 1, 1, 1, 1, 1] (machine 1 9 0 0)) ∧
    (machine 1 9 0 0).caps.bytes.val < ((withBits [1, 1, 1, 1, 1, 1, 1, 1, 1] (machine 1 9 0 0)).bitLen.toNat + 7) / 8 := by
  decide +kernel

/-- Nine bits, room for two bytes and sixteen bits. -/
def packState : State := withBits [1, 1, 1, 1, 1, 1, 1, 1, 1] (machine 2 16 0 0)
theorem witness_PackPacksBits : packState.status.halt = false ∧ InputReady .bit packState ∧
    (packState.bitLen.toNat + 7) / 8 = packState.caps.bytes.val := by decide +kernel
theorem witness_BitxOfPackPadsWithZeros : packState.status.halt = false ∧ InputReady .bit packState ∧
    (packState.bitLen.toNat + 7) / 8 ≤ packState.caps.bytes.val ∧
    8 * ((packState.bitLen.toNat + 7) / 8) = packState.caps.bits.val ∧
    packState.bitLen.toNat < 8 * ((packState.bitLen.toNat + 7) / 8) := by decide +kernel
theorem witness_PackUndoesBitx : (withBytes [0xA5] (machine 1 8 0 0)).status.halt = false ∧
    InputReady .byte (withBytes [0xA5] (machine 1 8 0 0)) ∧ 8 * 1 ≤ (machine 1 8 0 0).caps.bits.val ∧
    1 ≤ (machine 1 8 0 0).caps.bytes.val ∧ (withBytes [0xA5] (machine 1 8 0 0)).byteLen.toNat = 1 := by decide +kernel

/-! ## Witnesses: the pseudo-commands -/

/-- One byte at one sample a bit, every capacity exactly met. -/
def byteState : State := withBytes [0xA5] (tuned 8000 8000 1000 (machine 1 8 8 60))
theorem witness_byteState : byteState.status.halt = false ∧ InputReady .byte byteState ∧ ParametersOk byteState ∧
    byteState.byteLen.toNat = byteState.caps.bytes.val ∧ 8 * byteState.byteLen.toNat = byteState.caps.bits.val ∧
    8 * byteState.byteLen.toNat * period byteState = byteState.caps.samples.val ∧
    44 + 16 * byteState.byteLen.toNat * period byteState = byteState.caps.file.val ∧ 1 ≤ byteState.byteLen.toNat := by
  decide +kernel
theorem witness_ModulateLength : byteState.status.halt = false ∧ InputReady .byte byteState ∧ ParametersOk byteState ∧
    8 * byteState.byteLen.toNat ≤ byteState.caps.bits.val ∧
    8 * byteState.byteLen.toNat * period byteState ≤ byteState.caps.samples.val := by decide +kernel
theorem witness_EncodeLength : byteState.status.halt = false ∧ InputReady .byte byteState ∧ ParametersOk byteState ∧
    8 * byteState.byteLen.toNat ≤ byteState.caps.bits.val ∧
    8 * byteState.byteLen.toNat * period byteState ≤ byteState.caps.samples.val ∧
    44 + 16 * byteState.byteLen.toNat * period byteState ≤ byteState.caps.file.val := by decide +kernel
theorem witness_DemodulateLength : (withSamples [1, 1, 2, 1, 1, 2, 5] (tuned 2 1 1 (machine 1 3 7 0))).status.halt = false ∧
    InputReady .samp (withSamples [1, 1, 2, 1, 1, 2, 5] (tuned 2 1 1 (machine 1 3 7 0))) ∧
    ParametersOk (tuned 2 1 1 (machine 1 3 7 0)) ∧
    7 / period (tuned 2 1 1 (machine 1 3 7 0)) = (machine 1 3 7 0).caps.bits.val ∧
    (7 / period (tuned 2 1 1 (machine 1 3 7 0)) + 7) / 8 = (machine 1 3 7 0).caps.bytes.val := by decide +kernel
theorem witness_ByteRoundTrip : byteState.status.halt = false ∧ InputReady .byte byteState ∧ ParametersOk byteState ∧
    byteState.byteLen.toNat ≤ byteState.caps.bytes.val ∧ 8 * byteState.byteLen.toNat ≤ byteState.caps.bits.val ∧
    8 * byteState.byteLen.toNat * period byteState ≤ byteState.caps.samples.val ∧
    bufGet byteState.byteBuf 0 = some 0xA5 := by decide +kernel
theorem witness_ContainerRoundTrip : byteState.status.halt = false ∧ InputReady .byte byteState ∧
    ParametersOk byteState ∧ byteState.byteLen.toNat ≤ byteState.caps.bytes.val ∧
    8 * byteState.byteLen.toNat ≤ byteState.caps.bits.val ∧
    8 * byteState.byteLen.toNat * period byteState ≤ byteState.caps.samples.val ∧
    44 + 16 * byteState.byteLen.toNat * period byteState ≤ byteState.caps.file.val ∧
    1 ≤ byteState.byteLen.toNat := by decide +kernel

/-! ## Witnesses: the host's accesses -/

/-- Every case of RegisterReads: the registers, CMD and a reserved offset. -/
theorem witness_RegisterReads : small.status.busy = false ∧
    ∀ off ∈ [0x04, 0x08, 0x0C, 0x10, 0x14, 0x18, 0x1C, 0x20, 0x24, 0x28, 0x2C, 0x30, 0x38, 0x00, 0x3C],
      off % 4 = 0 ∧ off ≠ 0x34 := by decide

/-- Every case of RegisterWrites: the read-write registers, VALID, BUF_SEL, the read-only registers and a reserved offset. -/
theorem witness_RegisterWrites : small.status.busy = false ∧
    ∀ off ∈ [0x08, 0x0C, 0x10, 0x30, 0x28, 0x2C, 0x04, 0x14, 0x38, 0x3C],
      off % 4 = 0 ∧ off ∉ [0x00, 0x18, 0x1C, 0x20, 0x24, 0x34] := by decide

/-- V-CTL-11 and its neighbour: a length equal to the capacity, and one more. -/
theorem witness_LengthWrites : small.status.busy = false ∧ (4 : Word).toNat = capacity small.caps .byte ∧
    ¬ (5 : Word).toNat ≤ capacity small.caps .byte ∧ BufId.bit ≠ .byte := by decide +kernel

/-- The last element, and the one beyond it. -/
theorem witness_PortWrites : small.status.busy = false ∧ (3 : Word).toNat < capacity small.caps .byte ∧
    { small with bufAddr := 3 }.status.busy = false ∧ ¬ { small with bufAddr := 4 }.bufAddr.toNat < capacity small.caps .byte := by
  decide +kernel

/-- A written element, an unwritten one below the capacity, and one beyond the capacity. -/
theorem witness_PortReads : (withBytes [0xA5] small).status.busy = false ∧
    (withBytes [0xA5] small).bufAddr.toNat < capacity small.caps .byte ∧
    element .byte (withBytes [0xA5] small) 0 = some 0xA5 ∧ element .byte (withBytes [0xA5] small) 1 = none ∧
    1 < capacity small.caps .byte ∧ capacity small.caps .byte ≤ { small with bufAddr := 4 }.bufAddr.toNat := by
  decide +kernel

theorem witness_OddAccessesAreRefused : 0x05 % 4 ≠ 0 := by decide
theorem witness_BusyBlockRefusesAccesses : busy.status.busy = true ∧ 0x08 % 4 = 0 ∧ 0x08 ≠ 0x04 := by decide

/-- As many elements as there is room for. -/
theorem witness_LoadFillsTheBuffer : small.status.busy = false ∧
    [0xA5#32, 0x5A#32, 0x00#32, 0xFF#32].length = capacity small.caps .byte ∧ BufId.bit ≠ .byte := by decide +kernel
theorem witness_ReadReturnsTheBuffer : (withBytes [1, 2, 3, 4] small).status.busy = false ∧
    4 = capacity small.caps .byte ∧ ∀ i, i < 4 → holdsValue .byte (withBytes [1, 2, 3, 4] small) i = true := by
  decide +kernel

/-! ## Witnesses: reset and the invariant -/

theorem witness_IdleBlockHoldsItsState : small.queue = [] := rfl

/-- A state that meets the invariant and has a command to take. -/
def running : State := { withBytes [0xA5] small with queue := [.write 0x00 1] }
theorem witness_inv_running : Inv running := by constructor <;> decide +kernel
theorem witness_inv_halted : Inv halted := by constructor <;> decide +kernel
theorem witness_StepKeepsTheInvariant : Inv running ∧ ∃ t, step running = .next t ∧ t.status.done = true :=
  ⟨witness_inv_running, next_of_leads (by decide +kernel)⟩

/-- A step under another record, admissible (constantCarrier) or not (outOfRange). -/
theorem witness_StepKeepsTheInvariant_anyNumerics (N : Sys2Proof.Num) : Inv running ∧
    ∃ t, stepWith N running = .next t ∧ t.status.done = true :=
  ⟨witness_inv_running, witness_StepKeepsTheInvariant.2⟩

/-- A write, a read, the reset input, and no action. (An admissible record is witness_AdmissibleNumericsNeverStop_numerics.) -/
theorem witness_StepStopsOnlyOutsideTheInterface : Inv running ∧
    ∀ q ∈ [[HostAction.write 0x00 1], [.read 0x04], [.rst], []], ∀ a ∈ { running with queue := q }.queue.head?, match a with
      | .write off _ => off % 4 = 0
      | .read off => off % 4 = 0
      | .otherWidth _ _ => False
      | .rst => True := by
  refine ⟨witness_inv_running, ?_⟩
  intro q hq a ha
  simp only [List.mem_cons, List.not_mem_nil, or_false] at hq
  rcases hq with rfl | rfl | rfl | rfl <;> simp_all <;> subst ha <;> trivial

end Sys2Proof.Tests
end

section
/-! The invariant of 10_state.md R47 is kept by every step: first by each operation of the block, then by each access of the
host, for whatever the commands mean as long as they keep it, and so for exec and for execWith. -/

namespace Sys2Proof.Machine

/-! ## The invariant in three parts: lengths, fault record, memory -/

/-- Every length register is within its buffer's capacity (R28 to R31, R47). -/
def LengthsOk (s : State) : Prop := ∀ x, lengthOf x s ≤ capacity s.caps x

/-- STATUS and ERR_INFO agree on whether a fault is recorded, and the block is not busy (R36, R47). -/
structure FaultRecordOk (r : Status) (info : Word) : Prop where
  haltIffErr : r.halt = true ↔ r.err ≠ .none
  doneNotHalt : r.done = true → r.halt = false
  notBusy : r.busy = false
  errInfoZero : r.err = .none → info = 0

theorem inv_iff (s : State) : Inv s ↔ LengthsOk s ∧ FaultRecordOk s.status s.errInfo ∧ MemoryOk s where
  mp h := by
    refine ⟨fun x => ?_, ⟨h.haltIffErr, h.doneNotHalt, h.notBusy, h.errInfoZero⟩,
      ⟨h.memoryWf, h.byteWithin, h.bitWithin, h.sampWithin, h.fileWithin⟩⟩
    cases x with
    | byte => exact h.byteLen
    | bit => exact h.bitLen
    | samp => exact h.sampLen
    | file => exact h.fileLen
  mpr := fun ⟨hl, hr, hm⟩ =>
    { byteLen := hl .byte, bitLen := hl .bit, sampLen := hl .samp, fileLen := hl .file
      haltIffErr := hr.haltIffErr, doneNotHalt := hr.doneNotHalt, notBusy := hr.notBusy, errInfoZero := hr.errInfoZero
      memoryWf := hm.wf, byteWithin := hm.byte, bitWithin := hm.bit, sampWithin := hm.samp, fileWithin := hm.file }

/-! ## The fault record -/

theorem faultRecordOk_reset : FaultRecordOk State.reset.status State.reset.errInfo := by
  constructor <;> decide

theorem FaultRecordOk.setDone {r : Status} {info : Word} (h : FaultRecordOk r info) (hh : r.halt = false) (b : Bool) :
    FaultRecordOk { r with done := b } info :=
  { h with doneNotHalt := fun _ => hh }

theorem FaultRecordOk.faultStatus {r : Status} {info : Word} (h : FaultRecordOk r info) {k : ErrKind} (hk : k ≠ .none)
    (info' : Word) : FaultRecordOk (faultStatus k r) info' where
  haltIffErr := ⟨fun _ => hk, fun _ => rfl⟩
  doneNotHalt := nofun
  notBusy := h.notBusy
  errInfoZero hn := absurd hn hk

/-! ## The lengths -/

@[simp] theorem lengthOf_portWrite (x : BufId) (w : Word) (s : State) : lengthOf x (portWrite w s) = lengthOf x s := by
  cases x <;> simp [lengthOf]

@[simp] theorem lengthOf_raise (x : BufId) (k : ErrKind) (info : Word) (out : Option BufId) (s : State) :
    lengthOf x (raise k info out s) = lengthOf x s := by
  cases x <;> simp [lengthOf]

/-- A length register that takes the length of an output within the capacity stays within it. -/
theorem toNat_ofNat_le {n cap : Nat} (h : n ≤ cap) : (BitVec.ofNat 32 n).toNat ≤ cap :=
  (BitVec.toNat_ofNat n 32).trans_le ((Nat.mod_le _ _).trans h)

section
variable {s : State} (h : LengthsOk s)
include h

theorem LengthsOk.putBytes {vs : List Byte} (hv : vs.length ≤ s.caps.bytes.val) : LengthsOk (putBytes vs s)
  | .byte => toNat_ofNat_le hv
  | .bit => h .bit
  | .samp => h .samp
  | .file => h .file

theorem LengthsOk.putBits {vs : List Bit} (hv : vs.length ≤ s.caps.bits.val) : LengthsOk (putBits vs s)
  | .byte => h .byte
  | .bit => toNat_ofNat_le hv
  | .samp => h .samp
  | .file => h .file

theorem LengthsOk.putSamples {vs : List Sample} (hv : vs.length ≤ s.caps.samples.val) : LengthsOk (putSamples vs s)
  | .byte => h .byte
  | .bit => h .bit
  | .samp => toNat_ofNat_le hv
  | .file => h .file

theorem LengthsOk.putFile {vs : List Byte} (hv : vs.length ≤ s.caps.file.val) : LengthsOk (putFile vs s)
  | .byte => h .byte
  | .bit => h .bit
  | .samp => h .samp
  | .file => toNat_ofNat_le hv

theorem Completed.lengthsOk {i : Instr} {t : State} (hc : Completed s i t) : LengthsOk t := by
  cases hc with
  | nop => exact h
  | bitx vs hv => exact h.putBits hv
  | mod vs n hv => exact LengthsOk.putSamples (s := { s with ns := n }) h hv
  | wavwr vs hv => exact h.putFile hv
  | wavrd vs rate hv => exact LengthsOk.putSamples (s := { s with fs := rate }) h hv
  | demod vs n hv => exact LengthsOk.putBits (s := { s with ns := n }) h hv
  | pack vs hv => exact h.putBytes hv

end

/-! ## The operations of the block -/

theorem inv_setDone {s : State} (hs : Inv s) (hh : s.status.halt = false) (b : Bool) : Inv (setDone b s) := by
  obtain ⟨hl, hr, hm⟩ := (inv_iff s).mp hs
  exact (inv_iff _).mpr ⟨hl, hr.setDone hh b, memoryOk_setDone b hm⟩

theorem inv_raise {k : ErrKind} (hk : k ≠ .none) (info : Word) (out : Option BufId) {s : State} (hs : Inv s) :
    Inv (raise k info out s) := by
  obtain ⟨hl, hr, hm⟩ := (inv_iff s).mp hs
  refine (inv_iff _).mpr ⟨fun x => by simpa using hl x, ?_, memoryOk_raise k info out hm⟩
  simpa using hr.faultStatus hk info

theorem Completed.status_eq {i : Instr} {s t : State} (hc : Completed s i t) :
    t.status = { s.status with done := true } ∧ t.errInfo = s.errInfo := by
  cases hc <;> exact ⟨rfl, rfl⟩

theorem Completed.inv {i : Instr} {s t : State} (hc : Completed s i t) (hh : s.status.halt = false) (hs : Inv s) :
    Inv t := by
  obtain ⟨hl, hr, hm⟩ := (inv_iff s).mp hs
  obtain ⟨hst, hei⟩ := hc.status_eq
  refine (inv_iff t).mpr ⟨hc.lengthsOk hl, ?_, hc.memoryOk hm⟩
  rw [hst, hei]
  exact hr.setDone hh true

theorem inv_resetBlock (s : State) : Inv (resetBlock s) :=
  (inv_iff _).mpr ⟨fun x => by cases x <;> exact Nat.zero_le _, faultRecordOk_reset, memoryOk_resetBlock s⟩

theorem inv_portWrite (w : Word) {s : State} (hs : Inv s) : Inv (portWrite w s) := by
  obtain ⟨hl, hr, hm⟩ := (inv_iff s).mp hs
  exact (inv_iff _).mpr ⟨fun x => by simpa using hl x, by simpa using hr, memoryOk_portWrite w hm⟩

/-! ## The commands -/

/-- `run`, the meaning of the commands, keeps the invariant where it answers a next state. -/
def KeepsInv (run : Instr → State → Result) : Prop := ∀ (i : Instr) (s t : State), Inv s → run i s = .next t → Inv t

/-- A command that was ignored, faulted, or completed kept the invariant: the ends of exec_next_cases and
execWith_next_cases. -/
theorem inv_of_command_ends {i : Instr} {s t : State} (hs : Inv s)
    (h : (s.status.halt = true ∧ t = s) ∨
      (s.status.halt = false ∧ ∃ k info, k ∈ faultsOf i ∧ t = raise k info (outputOf i) (setDone false s)) ∨
      (s.status.halt = false ∧ Completed (setDone false s) i t)) : Inv t := by
  rcases h with ⟨-, rfl⟩ | ⟨hh, k, info, hk, rfl⟩ | ⟨hh, hc⟩
  · exact hs
  · exact inv_raise (ne_none_of_mem_faultsOf hk) info _ (inv_setDone hs hh false)
  · exact hc.inv hh (inv_setDone hs hh false)

theorem exec_keepsInv : KeepsInv exec := fun _ _ _ hs h => inv_of_command_ends hs (exec_next_cases h)

theorem execWith_keepsInv (N : Sys2Proof.Num) : KeepsInv (execWith N) := fun _ _ _ hs h =>
  inv_of_command_ends hs (execWith_next_cases h)

theorem inv_illegalCommand {w : Word} {s t : State} (hs : Inv s) (h : illegalCommand w s = .next t) : Inv t := by
  unfold illegalCommand at h
  cases hh : s.status.halt with
  | true =>
    rw [issue_halted _ hh] at h
    cases h
    exact hs
  | false =>
    rw [issue_running _ hh] at h
    cases h
    exact inv_raise (by decide) w none (inv_setDone hs hh false)

/-! ## The host's accesses -/

/-- A write of a register keeps the invariant: a length above the capacity is ignored (R28 to R31), and the port writes below
the capacity only (R35). -/
theorem inv_writeRegister (off : Nat) (w : Word) {s : State} (hs : Inv s) : Inv (writeRegister off w s) := by
  unfold writeRegister
  split
  -- the four length registers, then BUF_DATA
  case h_4 => split; exacts [{ hs with byteLen := ‹_› }, hs]
  case h_5 => split; exacts [{ hs with bitLen := ‹_› }, hs]
  case h_6 => split; exacts [{ hs with sampLen := ‹_› }, hs]
  case h_7 => split; exacts [{ hs with fileLen := ‹_› }, hs]
  case h_11 => exact inv_portWrite w hs
  all_goals exact { hs with }

/-- A read changes the host's side only (log 3, log 4). -/
theorem inv_hostRead (off : Nat) {s : State} (hs : Inv s) : Inv (hostRead off s) := by
  unfold hostRead
  repeat' split
  all_goals exact { hs with }

section
variable {run : Instr → State → Result} (hrun : KeepsInv run)
include hrun

theorem inv_hostWrite {off : Nat} {w : Word} {s t : State} (hs : Inv s) (h : hostWrite off w s run = .next t) : Inv t := by
  unfold hostWrite issueWord at h
  split at h
  · split at h
    · exact hrun _ s t hs h
    · exact inv_illegalCommand hs h
  · cases h
    exact inv_writeRegister off w hs

theorem inv_hostAct {a : HostAction} {s t : State} (hs : Inv s) (h : hostAct a s run = .next t) : Inv t := by
  cases a with
  | rst => cases h; exact inv_resetBlock s
  | otherWidth off bits => cases h
  | read off =>
    simp only [hostAct] at h
    split at h
    · cases h
    split at h
    · cases h
    · cases h
      exact inv_hostRead off hs
  | write off w =>
    simp only [hostAct] at h
    split at h
    · cases h
    split at h
    · cases h
    · exact inv_hostWrite hrun hs h

theorem inv_takeAction {s t : State} (hs : Inv s) (h : takeAction s run = .next t) : Inv t := by
  unfold takeAction at h
  split at h
  · cases h
    exact hs
  · next a rest _ =>
    exact inv_hostAct hrun (s := { s with queue := rest }) { hs with } h

end

/-- Settles O59: a step takes one access of the host, which keeps the invariant whatever the commands mean as long as they
keep it; exec does, and so does execWith for every record. -/
theorem stepKeepsTheInvariant : Obligations.StepKeepsTheInvariant :=
  ⟨fun _ _ hs h => inv_takeAction exec_keepsInv hs h,
    fun N _ _ hs h => inv_takeAction (execWith_keepsInv N) hs h⟩

end Sys2Proof.Machine
end

section
/-! The host's accesses (10_state.md R21 to R37): what one read or write answers while the block is not busy, register by
register, and the access port. -/

namespace Sys2Proof.Machine

/-! ## One access while BUSY is 0 -/

section
variable {s : State} (hb : s.status.busy = false)
include hb

theorem hostAct_read {off : Nat} (ho : off % 4 = 0) : hostAct (.read off) s = .next (hostRead off s) := by
  simp [hostAct, ho, hb]

theorem hostAct_write {off : Nat} (w : Word) (ho : off % 4 = 0) (h0 : off ≠ 0) :
    hostAct (.write off w) s = .next (writeRegister off w s) := by
  simp [hostAct, ho, hb, hostWrite, h0]

/-- R22: a write of a command's word to CMD is the command. -/
theorem hostAct_write_cmd {w : Word} {i : Instr} (hw : decode w = .ok i) : hostAct (.write 0x00 w) s = exec i s := by
  simp [hostAct, hb, hostWrite, issueWord, hw]

end

/-- Settles O5: the step takes the write, and a write of a command's word to CMD is the command. -/
theorem stepRunsTheIssuedCommand : Obligations.StepRunsTheIssuedCommand := fun s _ _ rest hb hw _ =>
  hostAct_write_cmd (s := { s with queue := rest }) hb hw

/-! ## The register window (R21) -/

theorem hostRead_register {off : Nat} (h : off ≠ 0x34) (s : State) :
    hostRead off s = recordRead (registerWord off s) s := if_neg h

/-- Settles O45: a read of any register but BUF_DATA records that register's word, which `registerWord` lists by offset. -/
theorem registerReads : Obligations.RegisterReads := by
  intro s off hb ho hport
  rw [hostAct_read hb ho, hostRead_register hport]
  unfold recordRead registerWord
  split
  -- CMD and the reserved offsets
  case h_14 => repeat rw [if_neg ‹_›]
  all_goals rfl

/-- Settles O47: each writable register of the window takes the word, and every other offset leaves the state. -/
theorem registerWrites : Obligations.RegisterWrites := by
  intro s off w hb ho hoff
  simp only [List.mem_cons, List.not_mem_nil, or_false, not_or] at hoff
  obtain ⟨hcmd, hbyte, hbit, hsamp, hfile, hport⟩ := hoff
  refine ⟨_, hostAct_write hb w ho hcmd, ?_⟩
  generalize ht : writeRegister off w s = t
  unfold writeRegister at ht
  split at ht <;> subst ht
  -- the lengths and BUF_DATA, which the statement leaves out
  case h_4 | h_5 | h_6 | h_7 | h_11 => contradiction
  -- VALID and BUF_SEL
  case h_8 => exact ⟨rfl, validWord_validOfWord w⟩
  case h_9 => exact ⟨rfl, bufIndex_bufOfWord w⟩
  -- STATUS, NS, ERR_INFO and the reserved offsets
  case h_12 => repeat rw [if_neg ‹_›]
  all_goals rfl

/-! ## The length registers (R28 to R31) -/

/-- A buffer's length register with a word in it. -/
def setLength (x : BufId) (w : Word) (s : State) : State :=
  match x with
  | .byte => { s with byteLen := w }
  | .bit => { s with bitLen := w }
  | .samp => { s with sampLen := w }
  | .file => { s with fileLen := w }

theorem writeRegister_lenOffset (x : BufId) (w : Word) (s : State) :
    writeRegister (lenOffset x) w s = if w.toNat ≤ capacity s.caps x then setLength x w s else s := by
  cases x <;> rfl

@[simp] theorem lengthOf_setLength_self (x : BufId) (w : Word) (s : State) : lengthOf x (setLength x w s) = w.toNat := by
  cases x <;> rfl

theorem lengthOf_setLength_of_ne {x y : BufId} (h : y ≠ x) (w : Word) (s : State) :
    lengthOf y (setLength x w s) = lengthOf y s := by
  cases x <;> cases y <;> simp [setLength, lengthOf] at h ⊢

theorem setLength_rest (x : BufId) (w : Word) (s : State) :
    { setLength x w s with byteLen := s.byteLen, bitLen := s.bitLen, sampLen := s.sampLen, fileLen := s.fileLen } = s := by
  cases x <;> rfl

theorem lenOffset_aligned (x : BufId) : lenOffset x % 4 = 0 := by cases x <;> rfl

theorem lenOffset_ne_zero (x : BufId) : lenOffset x ≠ 0 := by cases x <;> decide

/-- Settles O48: a write of a length is `setLength` up to the capacity and is ignored above it. -/
theorem lengthWrites : Obligations.LengthWrites := by
  intro s x w hb
  refine ⟨_, hostAct_write hb w (lenOffset_aligned x) (lenOffset_ne_zero x), ?_⟩
  rw [writeRegister_lenOffset]
  split
  · exact ⟨lengthOf_setLength_self x w s, fun _ hy => lengthOf_setLength_of_ne hy w s, setLength_rest x w s⟩
  · rfl

/-! ## The access port (R35) -/

theorem writeRegister_port (w : Word) (s : State) : writeRegister 0x34 w s = portWrite w s := rfl

/-- Settles O49: the write is `portWrite`, whose laws say what it stores and what it leaves. -/
theorem portWrites : Obligations.PortWrites := by
  intro s w hb
  refine ⟨_, hostAct_write hb w (by decide) (by decide), ?_⟩
  rw [writeRegister_port]
  split
  · next hopen => exact ⟨element_portWrite_self w hopen, element_portWrite_other w s, portWrite_rest w s⟩
  · next hclosed => exact portWrite_closed w hclosed

theorem hostRead_port_of_some {s : State} {v : Word} (hopen : PortOpen s)
    (hv : element s.bufSel s s.bufAddr.toNat = some v) : hostRead 0x34 s = recordRead v s := by
  simp [hostRead, portRead_eq, hopen, hv]

theorem hostRead_port_of_none {s : State}
    (h : capacity s.caps s.bufSel ≤ s.bufAddr.toNat ∨ element s.bufSel s s.bufAddr.toNat = none) :
    hostRead 0x34 s = recordRead (Config.portDraw s.draws) { s with draws := s.draws + 1 } := by
  have hnone : portRead s = none := by
    rw [portRead_eq]
    rcases h with hclosed | hempty
    · exact if_neg (not_lt.mpr hclosed)
    · rw [hempty, ite_self]
  simp [hostRead, hnone]

/-- Settles O50: the port reads the selected element where there is one, else the next free value (log 4). -/
theorem portReads : Obligations.PortReads := by
  intro s hb
  rw [hostAct_read hb (by decide)]
  exact ⟨fun v hopen hv => congrArg _ (hostRead_port_of_some hopen hv), fun h => congrArg _ (hostRead_port_of_none h)⟩

end Sys2Proof.Machine
end

section
/-! The reset state (10_state.md R48): its values, and that it meets the invariant. -/

namespace Sys2Proof.Machine

theorem lengthOf_reset (x : BufId) : lengthOf x State.reset = 0 := by cases x <;> rfl

theorem holdsValue_reset (x : BufId) (i : Nat) : holdsValue x State.reset i = false := by cases x <;> rfl

/-- Settles O55: the registers by the definition of the reset state, the lengths and the elements buffer by buffer. -/
theorem resetStateValues : Obligations.ResetStateValues :=
  ⟨rfl, by decide, rfl, rfl, rfl, rfl, lengthOf_reset, by decide, rfl, rfl, rfl, holdsValue_reset⟩

/-- Settles O58: the reset state is what `rst` makes of it, and `rst` leaves the invariant. -/
theorem resetMeetsTheInvariant : Obligations.ResetMeetsTheInvariant := inv_resetBlock State.reset

end Sys2Proof.Machine
end

section
/-! LOAD and READ (30_encoding.md R101) as runs: what a write or a read at the head of the host's queue leaves to the rest of
the run, then the runs of consecutive element accesses, by induction on their number. -/

namespace Sys2Proof.Machine

/-! ## Runs that start with one access -/

/-- A run of the machine, on the model's states. -/
def runSteps (n : Nat) (s : State) : Result := Host.Core.run Sys2Proof.core n s

theorem runSteps_succ {s t : State} (n : Nat) (h : step s = .next t) : runSteps (n + 1) s = runSteps n t := by
  rw [Nat.add_comm]
  exact run_add (M := Sys2Proof.core) 1 n (run_one h)

@[simp] theorem writeRegister_status (off : Nat) (w : Word) (s : State) : (writeRegister off w s).status = s.status := by
  unfold writeRegister
  split
  case h_4 | h_5 | h_6 | h_7 => split <;> rfl
  case h_11 => exact portWrite_status w s
  all_goals rfl

theorem portWrite_withQueue (w : Word) (s : State) (q : List HostAction) :
    portWrite w { s with queue := q } = { portWrite w s with queue := q } := by
  unfold portWrite
  by_cases h : capacity s.caps s.bufSel ≤ s.bufAddr.toNat
  · simp only [if_pos h]
  · simp only [if_neg h]
    cases s.bufSel <;> rfl

/-- A write does not look at the host's queue. -/
theorem writeRegister_withQueue (off : Nat) (w : Word) (s : State) (q : List HostAction) :
    writeRegister off w { s with queue := q } = { writeRegister off w s with queue := q } := by
  unfold writeRegister
  split
  case h_4 | h_5 | h_6 | h_7 => split <;> rfl
  case h_11 => exact portWrite_withQueue w s q
  all_goals rfl

theorem element_withQueue (x : BufId) (s : State) (q : List HostAction) (i : Nat) :
    element x { s with queue := q } i = element x s i := by cases x <;> rfl

theorem lengthOf_withQueue (x : BufId) (s : State) (q : List HostAction) :
    lengthOf x { s with queue := q } = lengthOf x s := by cases x <;> rfl

theorem runSteps_write {s : State} (off : Nat) (w : Word) (q : List HostAction) (n : Nat) (hb : s.status.busy = false)
    (ho : off % 4 = 0) (h0 : off ≠ 0) :
    runSteps (n + 1) { s with queue := .write off w :: q } = runSteps n { writeRegister off w s with queue := q } := by
  rw [runSteps_succ n (step_write off w q hb ho h0), writeRegister_withQueue]

theorem runSteps_read_port {s : State} {v : Word} (q : List HostAction) (n : Nat) (hb : s.status.busy = false)
    (hopen : PortOpen s) (hv : element s.bufSel s s.bufAddr.toNat = some v) :
    runSteps (n + 1) { s with queue := .read 0x34 :: q }
      = runSteps n { recordRead v s with queue := q } := by
  have hr : hostRead 0x34 { s with queue := q } = recordRead v { s with queue := q } := hostRead_port_of_some hopen hv
  rw [runSteps_succ n (step_read 0x34 q hb (by decide)), hr]
  rfl

/-! ## The port at a buffer and an index -/

/-- The state with a buffer selected. -/
def selectBuf (x : BufId) (s : State) : State := { s with bufSel := x }

theorem writeRegister_bufSel (x : BufId) (s : State) : writeRegister 0x2C (bufIndex x) s = selectBuf x s :=
  congrArg (selectBuf · s) (bufOfWord_bufIndex x)

theorem element_selectBuf (x y : BufId) (i : Nat) (s : State) : element y (selectBuf x s) i = element y s i := by
  cases y <;> rfl

theorem lengthOf_selectBuf (x y : BufId) (s : State) : lengthOf y (selectBuf x s) = lengthOf y s := by
  cases y <;> rfl

/-- The state with an index in BUF_ADDR. -/
def pointPort (i : Nat) (s : State) : State := { s with bufAddr := BitVec.ofNat 32 i }

theorem writeRegister_bufAddr (i : Nat) (s : State) : writeRegister 0x30 (BitVec.ofNat 32 i) s = pointPort i s := rfl

theorem element_pointPort (x : BufId) (i j : Nat) (s : State) : element x (pointPort i s) j = element x s j := by
  cases x <;> rfl

theorem capacity_lt (c : Capacities) (x : BufId) : capacity c x < 2 ^ 32 := by
  cases x with
  | byte => exact c.bytes.isLt
  | bit => exact c.bits.isLt
  | samp => exact c.samples.isLt.trans (by decide)
  | file => exact c.file.isLt

section
variable {i : Nat} {s : State} (h : i < capacity s.caps s.bufSel)
include h

/-- An index below a capacity fits in BUF_ADDR. -/
theorem bufAddr_pointPort : (pointPort i s).bufAddr.toNat = i :=
  (BitVec.toNat_ofNat i 32).trans (Nat.mod_eq_of_lt (h.trans (capacity_lt _ _)))

theorem portOpen_pointPort : PortOpen (pointPort i s) := (bufAddr_pointPort h).trans_lt h

end

/-! ## LOAD -/

/-- The state after consecutive elements are written through the port, from an index on. -/
def storeElements : (start : Nat) → List Word → State → State
  | _, [], s => s
  | i, w :: ws, s => storeElements (i + 1) ws (portWrite w (pointPort i s))

theorem runSteps_elementWrites {s : State} (start : Nat) (els : List Word) (rest : List HostAction) (n : Nat)
    (hb : s.status.busy = false) :
    runSteps ((elementWrites start els).length + n) { s with queue := elementWrites start els ++ rest }
      = runSteps n { storeElements start els s with queue := rest } := by
  induction els generalizing start s with
  | nil => simp [elementWrites, storeElements]
  | cons w ws ih =>
    have hlen : (elementWrites start (w :: ws)).length + n = (elementWrites (start + 1) ws).length + n + 1 + 1 := by
      simp only [elementWrites, List.length_cons]
      omega
    have hb' : (portWrite w (pointPort start s)).status.busy = false := by rw [portWrite_status]; exact hb
    rw [hlen, elementWrites, List.cons_append, List.cons_append,
      runSteps_write 0x30 _ _ _ hb (by decide) (by decide), writeRegister_bufAddr,
      runSteps_write (s := pointPort start s) 0x34 _ _ _ hb (by decide) (by decide), writeRegister_port,
      ih _ hb', storeElements]

/-- `t` with the port's index and the buffers of `s`. -/
def withPortOf (s t : State) : State :=
  { t with bufAddr := s.bufAddr, byteBuf := s.byteBuf, bitBuf := s.bitBuf, sampBuf := s.sampBuf, fileBuf := s.fileBuf }

/-- Storing elements changes the port's index and the buffers only. -/
theorem storeElements_rest (start : Nat) (els : List Word) (s : State) :
    withPortOf s (storeElements start els s) = s := by
  induction els generalizing start s with
  | nil => rfl
  | cons w ws ih =>
    let u := portWrite w (pointPort start s)
    have hone : withPortOf s u = s :=
      congrArg (fun t : State => { t with bufAddr := s.bufAddr }) (portWrite_rest w (pointPort start s))
    calc withPortOf s (storeElements (start + 1) ws u)
        = withPortOf s (withPortOf u (storeElements (start + 1) ws u)) := rfl
      _ = withPortOf s u := congrArg (withPortOf s) (ih (start + 1) u)
      _ = s := hone

@[simp] theorem storeElements_status (start : Nat) (els : List Word) (s : State) :
    (storeElements start els s).status = s.status := (congrArg State.status (storeElements_rest start els s) :)

@[simp] theorem storeElements_caps (start : Nat) (els : List Word) (s : State) :
    (storeElements start els s).caps = s.caps := (congrArg State.caps (storeElements_rest start els s) :)

@[simp] theorem lengthOf_storeElements (x : BufId) (start : Nat) (els : List Word) (s : State) :
    lengthOf x (storeElements start els s) = lengthOf x s := by
  have h := congrArg (lengthOf x) (storeElements_rest start els s)
  cases x <;> exact h

section
variable {start : Nat} {els : List Word} {s : State} (hcap : start + els.length ≤ capacity s.caps s.bufSel)
include hcap

theorem element_storeElements_other (y : BufId) (i : Nat)
    (h : y ≠ s.bufSel ∨ i < start ∨ start + els.length ≤ i) :
    element y (storeElements start els s) i = element y s i := by
  induction els generalizing start s with
  | nil => rfl
  | cons w ws ih =>
    rw [List.length_cons] at hcap h
    have hstart : start < capacity s.caps s.bufSel := by omega
    have hi : y ≠ s.bufSel ∨ i ≠ start := h.imp_right (by omega)
    rw [storeElements, ih, element_portWrite_other, element_pointPort]
    · rwa [bufAddr_pointPort hstart]
    · rw [portWrite_caps, portWrite_bufSel]
      exact (by omega : start + 1 + ws.length ≤ capacity s.caps s.bufSel)
    · rw [portWrite_bufSel]
      exact h.imp_right (by omega)

theorem element_storeElements_stored {i : Nat} {v : Word} (hv : els[i]? = some v) :
    element s.bufSel (storeElements start els s) (start + i) = some (elementWord s.bufSel v) := by
  induction els generalizing start s i with
  | nil => simp at hv
  | cons w ws ih =>
    rw [List.length_cons] at hcap
    have hstart : start < capacity s.caps s.bufSel := by omega
    let u := portWrite w (pointPort start s)
    have hsel : u.bufSel = s.bufSel := portWrite_bufSel _ _
    have hcap' : start + 1 + ws.length ≤ capacity u.caps u.bufSel := by
      rw [hsel, show u.caps = s.caps from portWrite_caps _ _]
      omega
    change element s.bufSel (storeElements (start + 1) ws u) (start + i) = _
    cases i with
    | zero =>
      have hvw : w = v := by simpa using hv
      have hself := element_portWrite_self w (portOpen_pointPort hstart)
      rw [bufAddr_pointPort hstart] at hself
      rw [element_storeElements_other hcap' _ _ (by omega), ← hvw]
      exact hself
    | succ i =>
      have hrest := ih hcap' (i := i) (by simpa using hv)
      rwa [hsel, Nat.add_assoc, Nat.add_comm 1] at hrest

end

@[simp] theorem setLength_status (x : BufId) (w : Word) (s : State) : (setLength x w s).status = s.status := by
  cases x <;> rfl

/-- The state with the flags of VALID set to these. -/
def setFlags (v : Valid) (s : State) : State := { s with valid := v }

theorem writeRegister_valid (v : Valid) (s : State) : writeRegister 0x28 (validWord v) s = setFlags v s :=
  congrArg (setFlags · s) (validOfWord_validWord v)

/-- What LOAD leaves: the elements, the length, and VALID as it was told with the buffer's flag set. -/
def loaded (x : BufId) (els : List Word) (flags : Valid) (s : State) : State :=
  setFlags (setValidFlag flags x true)
    (setLength x (BitVec.ofNat 32 els.length) (storeElements 0 els (selectBuf x s)))

theorem runSteps_load {x : BufId} {els : List Word} {s : State} (flags : Valid) (rest : List HostAction)
    (hb : s.status.busy = false) (hcap : els.length ≤ capacity s.caps x) :
    runSteps (loadActions x els flags).length { s with queue := loadActions x els flags ++ rest }
      = .next { loaded x els flags s with queue := rest } := by
  have hlen : (loadActions x els flags).length = (elementWrites 0 els).length + 2 + 1 := by
    simp only [loadActions, List.length_append, List.length_cons, List.length_nil]
  have hfits : (BitVec.ofNat 32 els.length).toNat ≤ capacity (storeElements 0 els (selectBuf x s)).caps x := by
    rw [storeElements_caps]
    exact toNat_ofNat_le hcap
  have hb' : (selectBuf x s).status.busy = false := hb
  rw [hlen, loadActions, List.cons_append, List.cons_append, List.append_assoc,
    runSteps_write 0x2C _ _ _ hb (by decide) (by decide), writeRegister_bufSel,
    runSteps_elementWrites 0 els _ 2 hb', List.cons_append,
    runSteps_write _ _ _ 1 (by simpa using hb') (lenOffset_aligned x) (lenOffset_ne_zero x),
    writeRegister_lenOffset, if_pos hfits, List.cons_append,
    runSteps_write 0x28 _ _ 0 (by simpa using hb') (by decide) (by decide), writeRegister_valid]
  rfl

theorem element_loaded (x y : BufId) (els : List Word) (flags : Valid) (s : State) (i : Nat) :
    element y (loaded x els flags s) i = element y (storeElements 0 els (selectBuf x s)) i := by
  cases x <;> cases y <;> rfl

theorem lengthOf_loaded_self {x : BufId} {els : List Word} {s : State} (flags : Valid)
    (hcap : els.length ≤ capacity s.caps x) : lengthOf x (loaded x els flags s) = els.length := by
  have h : lengthOf x (loaded x els flags s) = (BitVec.ofNat 32 els.length).toNat := by cases x <;> rfl
  rw [h, BitVec.toNat_ofNat, Nat.mod_eq_of_lt (hcap.trans_lt (capacity_lt _ _))]

theorem lengthOf_loaded_of_ne {x y : BufId} (h : y ≠ x) (els : List Word) (flags : Valid) (s : State) :
    lengthOf y (loaded x els flags s) = lengthOf y s :=
  calc lengthOf y (loaded x els flags s)
      = lengthOf y (setLength x (BitVec.ofNat 32 els.length) (storeElements 0 els (selectBuf x s))) := by
        cases y <;> rfl
    _ = lengthOf y s := by rw [lengthOf_setLength_of_ne h, lengthOf_storeElements, lengthOf_selectBuf]

/-- Settles O53: the run of LOAD ends in `loaded`, and its elements are those that `storeElements` leaves. -/
theorem loadFillsTheBuffer : Obligations.LoadFillsTheBuffer := by
  intro x els s rest hb hcap
  have hcap' : 0 + els.length ≤ capacity (selectBuf x s).caps (selectBuf x s).bufSel := (Nat.zero_add _).trans_le hcap
  have hother (y : BufId) (i : Nat) (h : y ≠ x ∨ els.length ≤ i) :
      element y (loaded x els s.valid s) i = element y s i := by
    rw [element_loaded, element_storeElements_other hcap' y i (h.imp_right (by omega)), element_selectBuf]
  have hstored (i : Nat) (w : Word) (hw : els[i]? = some w) :
      element x (loaded x els s.valid s) i = some (elementWord x w) := by
    rw [element_loaded]
    exact Nat.zero_add i ▸ element_storeElements_stored hcap' hw
  refine ⟨_, runSteps_load s.valid rest hb hcap, rfl, validFlag_setValidFlag_self _ _ _,
    fun _ hy => validFlag_setValidFlag_of_ne _ _ hy, ?_⟩
  simp only [element_withQueue, lengthOf_withQueue]
  exact ⟨lengthOf_loaded_self _ hcap, hstored, fun i hi => hother x i (.inr hi),
    fun y i hy => ⟨hother y i (.inl hy), lengthOf_loaded_of_ne hy _ _ _⟩⟩

/-! ## READ -/

/-- The words of consecutive elements as the port reads them, from an index on. -/
def elementWords (x : BufId) (s : State) (start n : Nat) : List Word :=
  (List.range' start n).map fun i => (element x s i).getD 0

theorem elementWords_succ {x : BufId} {s : State} {start : Nat} {v : Word} (n : Nat) (h : element x s start = some v) :
    elementWords x s start (n + 1) = v :: elementWords x s (start + 1) n := by
  simp [elementWords, List.range'_succ, h]

theorem elementWords_congr {x : BufId} {s t : State} (start n : Nat) (h : ∀ i, element x t i = element x s i) :
    elementWords x t start n = elementWords x s start n := by
  simp only [elementWords, h]

/-- Consecutive reads record the elements they name and change nothing else but BUF_ADDR. -/
theorem runSteps_elementReads {s : State} {start n : Nat} (rest : List HostAction) (hb : s.status.busy = false)
    (hcap : start + n ≤ capacity s.caps s.bufSel)
    (hv : ∀ i, start ≤ i → i < start + n → holdsValue s.bufSel s i = true) :
    ∃ a, runSteps (elementReads start n).length { s with queue := elementReads start n ++ rest }
      = .next { s with queue := rest, reads := s.reads ++ elementWords s.bufSel s start n, bufAddr := a } := by
  induction n generalizing start s with
  | zero =>
    refine ⟨s.bufAddr, ?_⟩
    rw [show elementWords s.bufSel s start 0 = [] from rfl, List.append_nil]
    rfl
  | succ n ih =>
    have hstart : start < capacity s.caps s.bufSel := by omega
    obtain ⟨v, hval⟩ := Option.isSome_iff_exists.mp (hv start (by omega) (by omega))
    have hport : element s.bufSel (pointPort start s) (pointPort start s).bufAddr.toNat = some v := by
      rw [bufAddr_pointPort hstart, element_pointPort, hval]
    let u := recordRead v (pointPort start s)
    have hu (i : Nat) : element s.bufSel u i = element s.bufSel s i := by cases s.bufSel <;> rfl
    obtain ⟨a, ha⟩ := ih (s := u) (start := start + 1) hb
      (by rw [Nat.add_assoc, Nat.add_comm 1]; exact hcap)
      (fun i hi hi' => by
        rw [holdsValue, show u.bufSel = s.bufSel from rfl, hu]
        exact hv i (by omega) (by omega))
    have hwords : s.reads ++ elementWords s.bufSel s start (n + 1) = u.reads ++ elementWords s.bufSel u (start + 1) n := by
      rw [elementWords_succ n hval, elementWords_congr _ _ hu]
      exact List.append_cons s.reads v _
    refine ⟨a, ?_⟩
    rw [elementReads, List.length_cons, List.length_cons, List.cons_append, List.cons_append,
      runSteps_write 0x30 _ _ _ hb (by decide) (by decide), writeRegister_bufAddr,
      runSteps_read_port (s := pointPort start s) _ _ hb (portOpen_pointPort hstart) hport, hwords]
    exact ha

/-- Settles O54: the run of READ selects the buffer and reads its elements from index 0 on. -/
theorem readReturnsTheBuffer : Obligations.ReadReturnsTheBuffer := by
  intro x n s rest hb hcap hv
  obtain ⟨a, ha⟩ := runSteps_elementReads (s := selectBuf x s) (start := 0) rest hb ((Nat.zero_add n).trans_le hcap)
    (fun i _ hi => by
      rw [holdsValue, element_selectBuf]
      exact hv i (by omega))
  have hrun := runSteps_write 0x2C (bufIndex x) (elementReads 0 n ++ rest) (elementReads 0 n).length hb (by decide)
    (by decide)
  rw [writeRegister_bufSel, ha] at hrun
  refine ⟨_, hrun, ?_, rfl⟩
  rw [List.range_eq_range']
  exact congrArg (s.reads ++ ·) (elementWords_congr 0 n fun i => element_selectBuf x x i s)

end Sys2Proof.Machine
end

section
/-! What every command leaves as it was (20_memory.md R60, R74; 30_encoding.md R92), said once for its three ends (ignored,
faulted, completed); and the accesses outside the interface (R64). -/

namespace Sys2Proof.Machine

/-! ## One buffer unchanged -/

/-- A buffer has in `t` the length, the flag and the elements it has in `s`. -/
def SameBuffer (x : BufId) (s t : State) : Prop :=
  lengthOf x t = lengthOf x s ∧ validFlag t.valid x = validFlag s.valid x ∧ ∀ n, element x t n = element x s n

section
variable {x : BufId} {s : State}

theorem sameBuffer_setDone (b : Bool) : SameBuffer x s (setDone b s) := ⟨rfl, rfl, fun _ => rfl⟩

theorem sameBuffer_putBytes (vs : List Byte) (hx : x ≠ .byte) : SameBuffer x s (putBytes vs s) := by
  cases x with
  | byte => exact absurd rfl hx
  | _ => exact ⟨rfl, rfl, fun _ => rfl⟩

theorem sameBuffer_putBits (vs : List Bit) (hx : x ≠ .bit) : SameBuffer x s (putBits vs s) := by
  cases x with
  | bit => exact absurd rfl hx
  | _ => exact ⟨rfl, rfl, fun _ => rfl⟩

theorem sameBuffer_putSamples (vs : List Sample) (hx : x ≠ .samp) : SameBuffer x s (putSamples vs s) := by
  cases x with
  | samp => exact absurd rfl hx
  | _ => exact ⟨rfl, rfl, fun _ => rfl⟩

theorem sameBuffer_putFile (vs : List Byte) (hx : x ≠ .file) : SameBuffer x s (putFile vs s) := by
  cases x with
  | file => exact absurd rfl hx
  | _ => exact ⟨rfl, rfl, fun _ => rfl⟩

theorem Faulted.sameBuffer {k : ErrKind} {info : Word} {out : Option BufId} {t : State} (hf : Faulted s k info out t)
    (hx : out ≠ some x) : SameBuffer x s t := by
  refine ⟨(congrArg (lengthOf x) hf.rest :), (hf.flags x).trans (if_neg hx), fun n => ?_⟩
  cases x with
  | byte => simp only [element, hf.byteBuf hx]
  | bit => simp only [element, hf.bitBuf hx]
  | samp => simp only [element, hf.sampBuf hx]
  | file => simp only [element, hf.fileBuf hx]

theorem Completed.sameBuffer {i : Instr} {t : State} (hc : Completed s i t) (hx : outputOf i ≠ some x) :
    SameBuffer x s t := by
  have hne {y : BufId} (hy : outputOf i = some y) : x ≠ y := fun h => hx (h ▸ hy)
  cases hc with
  | nop => exact sameBuffer_setDone true
  | bitx vs _ => exact sameBuffer_putBits vs (hne rfl)
  | mod vs _ _ => exact sameBuffer_putSamples vs (hne rfl)
  | wavwr vs _ => exact sameBuffer_putFile vs (hne rfl)
  | wavrd vs _ _ => exact sameBuffer_putSamples vs (hne rfl)
  | demod vs _ _ => exact sameBuffer_putBits vs (hne rfl)
  | pack vs _ => exact sameBuffer_putBytes vs (hne rfl)

end

/-! ## What a command leaves -/

/-- `t` with the fields of `s` wherever some command writes. -/
def withOutputsOf (s t : State) : State :=
  { t with
    status := s.status, fs := s.fs, ns := s.ns, valid := s.valid, errInfo := s.errInfo
    byteLen := s.byteLen, bitLen := s.bitLen, sampLen := s.sampLen, fileLen := s.fileLen
    byteBuf := s.byteBuf, bitBuf := s.bitBuf, sampBuf := s.sampBuf, fileBuf := s.fileBuf }

/-- The frame of a command from `s` to `t`: the buffers it does not write, FS and NS but in the commands that write them, BUSY,
the fault record where no fault is recorded, and the rest of the state. -/
structure CommandKeeps (i : Instr) (s t : State) : Prop where
  buffers : ∀ x, outputOf i ≠ some x → SameBuffer x s t
  fs : i ≠ .wavrd → t.fs = s.fs
  ns : i ≠ .mod → i ≠ .demod → t.ns = s.ns
  busy : t.status.busy = s.status.busy
  faultRecord : t.status.halt = false → t.status.err = s.status.err ∧ t.errInfo = s.errInfo
  rest : withOutputsOf s t = s

/-- An ignored command changes nothing (R231). -/
theorem commandKeeps_refl (i : Instr) (s : State) : CommandKeeps i s s where
  buffers _ _ := ⟨rfl, rfl, fun _ => rfl⟩
  fs _ := rfl
  ns _ _ := rfl
  busy := rfl
  faultRecord _ := ⟨rfl, rfl⟩
  rest := rfl

theorem Faulted.commandKeeps {i : Instr} {s t : State} {k : ErrKind} {info : Word}
    (hf : Faulted s k info (outputOf i) t) : CommandKeeps i s t where
  buffers _ hx := hf.sameBuffer hx
  fs _ := (congrArg State.fs hf.rest :)
  ns _ _ := (congrArg State.ns hf.rest :)
  busy := (congrArg Status.busy hf.status :)
  faultRecord hh := nomatch (congrArg Status.halt hf.status).symm.trans hh
  rest := (congrArg (withOutputsOf s) hf.rest :)

theorem Completed.commandKeeps {i : Instr} {s t : State} (hc : Completed (setDone false s) i t) :
    CommandKeeps i s t where
  buffers _ hx := hc.sameBuffer hx
  fs hi := by
    cases hc with
    | wavrd => exact absurd rfl hi
    | _ => rfl
  ns hm hd := by
    cases hc with
    | mod => exact absurd rfl hm
    | demod => exact absurd rfl hd
    | _ => rfl
  busy := (congrArg Status.busy hc.status_eq.1 :)
  faultRecord _ := ⟨(congrArg Status.err hc.status_eq.1 :), hc.status_eq.2⟩
  rest := by cases hc <;> rfl

theorem exec_commandKeeps {i : Instr} {s t : State} (h : exec i s = .next t) : CommandKeeps i s t := by
  rcases exec_next_cases h with ⟨-, rfl⟩ | ⟨-, k, info, -, rfl⟩ | ⟨-, hc⟩
  · exact commandKeeps_refl i t
  · exact (faulted_raise k info (outputOf i) s).commandKeeps
  · exact hc.commandKeeps

/-- No command writes the buffer it reads (R92). -/
theorem outputOf_ne_of_inputOf {i : Instr} {x : BufId} (h : inputOf i = some x) : outputOf i ≠ some x := by
  cases i with
  | nop => cases h
  | _ => cases h; decide

/-- Settles O10: the input buffer is not the output, so the frame of the command has it. -/
theorem inputsAreReadOnly : Obligations.InputsAreReadOnly := by
  intro i s t h
  have hk := exec_commandKeeps h
  exact ⟨(congrArg State.baud hk.rest :), (congrArg State.f0 hk.rest :), hk.fs,
    fun x hx => hk.buffers x (outputOf_ne_of_inputOf hx)⟩

/-- Settles O11: the frame of the command, whichever of its three ends it takes. -/
theorem commandFrame : Obligations.CommandFrame := by
  intro i s t h
  have hk := exec_commandKeeps h
  exact ⟨hk.buffers, hk.busy, (congrArg State.bufSel hk.rest :), (congrArg State.bufAddr hk.rest :),
    (congrArg State.caps hk.rest :), (congrArg State.queue hk.rest :), (congrArg State.reads hk.rest :),
    (congrArg State.draws hk.rest :), hk.ns, hk.faultRecord⟩

/-! ## Accesses outside the interface (R64) -/

theorem hostAct_read_misaligned {off : Nat} (ho : off % 4 ≠ 0) (s : State) :
    hostAct (.read off) s = .refused .hostAccessMisaligned := if_pos ho

theorem hostAct_write_misaligned {off : Nat} (ho : off % 4 ≠ 0) (w : Word) (s : State) :
    hostAct (.write off w) s = .refused .hostAccessMisaligned := if_pos ho

/-- Settles O51: an access is checked for its width, then for its offset, before anything else. -/
theorem oddAccessesAreRefused : Obligations.OddAccessesAreRefused := fun s _ _ w =>
  ⟨rfl, fun ho => ⟨hostAct_read_misaligned ho s, hostAct_write_misaligned ho w s⟩⟩

end Sys2Proof.Machine
end

section
/-! The command words (30_encoding.md R90 to R93): a word is its two fields, and the decoder reads a command exactly from the word
whose fields are those of its encoding. -/

namespace Sys2Proof

/-! ## The two fields of a command word (R90) -/

theorem toNat_eq_fields (w : Word) : w.toNat = 16 * (zeroField w).toNat + (opField w).toNat := by
  have := w.isLt
  simp only [zeroField, opField, BitVec.extractLsb'_toNat, Nat.shiftRight_eq_div_pow]
  omega

theorem eq_of_fields {v w : Word} (hz : zeroField v = zeroField w) (ho : opField v = opField w) : v = w :=
  BitVec.eq_of_toNat_eq (by rw [toNat_eq_fields, toNat_eq_fields w, hz, ho])

theorem encodedOk : ∀ i : Instr, Laws.EncodedOk.Statement i
  | .nop => Laws.EncodedOk.nop
  | .bitx => Laws.EncodedOk.bitx
  | .mod => Laws.EncodedOk.mod
  | .wavwr => Laws.EncodedOk.wavwr
  | .wavrd => Laws.EncodedOk.wavrd
  | .demod => Laws.EncodedOk.demod
  | .pack => Laws.EncodedOk.pack

@[simp] theorem opField_encode (i : Instr) : opField (encode i) = opcode i := by
  obtain ⟨-, hop, -⟩ := encodedOk i
  exact hop

@[simp] theorem zeroField_encode (i : Instr) : zeroField (encode i) = 0 := by
  obtain ⟨-, -, hzero, -⟩ := encodedOk i
  exact hzero

theorem eq_encode_iff (w : Word) (i : Instr) : w = encode i ↔ zeroField w = 0 ∧ opField w = opcode i where
  mp := by rintro rfl; simp
  mpr := fun ⟨hz, ho⟩ => eq_of_fields (by rw [hz, zeroField_encode]) (by rw [ho, opField_encode])

/-! ## The opcode map (R91) -/

theorem decodeOp_eq_some_iff (op : BitVec 4) (i : Instr) : decodeOp op = some i ↔ op = opcode i := by
  cases i <;> revert op <;> decide

/-- R93: both checks on a word, and its opcode's command. -/
theorem decode_eq_ok_iff (w : Word) (i : Instr) : decode w = .ok i ↔ zeroField w = 0 ∧ decodeOp (opField w) = some i := by
  unfold decode
  split
  · next hz => cases decodeOp (opField w) <;> simp [hz]
  · next hz => exact ⟨nofun, fun h => absurd h.1 hz⟩

/-- Settles O3: the decoder and the encoding ask the same of the two fields, and the fields are the whole word. -/
theorem onlyTheSevenWordsDecode : Obligations.OnlyTheSevenWordsDecode := fun w i => by
  rw [decode_eq_ok_iff, decodeOp_eq_some_iff, eq_encode_iff]

theorem decode_encode (i : Instr) : decode (encode i) = .ok i := (onlyTheSevenWordsDecode _ i).mpr rfl

/-- Settles O2: the encoding of a command is the word that decodes to it. -/
theorem decodeOfEncode : Obligations.DecodeOfEncode := fun i _ => decode_encode i

/-- Settles O1: the words are those of the encoder, which the decoder undoes. -/
theorem sevenWordsAreTheCommands : Obligations.SevenWordsAreTheCommands := by
  have henc : [Instr.nop, .bitx, .mod, .wavwr, .wavrd, .demod, .pack].map encode =
      [0x00000000#32, 0x00000001#32, 0x00000002#32, 0x00000003#32, 0x00000004#32, 0x00000005#32, 0x00000006#32] := rfl
  refine ⟨?_, henc⟩
  rw [← henc]
  simp [decode_encode, Except.toOption]

end Sys2Proof
end

section
/-! STATUS as a word (10_state.md R23; 30_encoding.md R100), bit by bit. -/

namespace Sys2Proof.Machine

theorem getLsbD_flagBit (b : Bool) (pos : Nat) {i : Nat} (hi : i < 32) :
    (flagBit b pos).getLsbD i = (b && decide (i = pos)) := by
  cases b with
  | false => simp [flagBit]
  | true =>
    have htwo : flagBit true pos = BitVec.twoPow 32 pos := rfl
    rw [htwo, BitVec.getLsbD_twoPow]
    by_cases h : i = pos
    · subst h; simp [hi]
    · simp [h, Ne.symm h]

/-- The bits of STATUS: the three flags, and from bit 4 on the fault's code. -/
theorem getLsbD_statusWord (t : Status) {i : Nat} (hi : i < 32) :
    (statusWord t).getLsbD i = (t.busy && decide (i = 0) || t.done && decide (i = 1) || t.halt && decide (i = 2) ||
      decide (4 ≤ i) && (errCode t.err).getLsbD (i - 4)) := by
  have hsub : i - 4 < 32 := by omega
  simp only [statusWord, BitVec.getLsbD_or, getLsbD_flagBit _ _ hi, BitVec.getLsbD_shiftLeft, BitVec.getLsbD_setWidth,
    hi, hsub, decide_true, Bool.true_and, ← decide_not, not_lt]

/-- From bit 4 on STATUS is the fault's code, with 0 above it. -/
theorem getLsbD_statusWord_of_le (t : Status) {i : Nat} (h4 : 4 ≤ i) (hi : i < 32) :
    (statusWord t).getLsbD i = (errCode t.err).getLsbD (i - 4) := by
  have h0 : i ≠ 0 := by omega
  have h1 : i ≠ 1 := by omega
  have h2 : i ≠ 2 := by omega
  rw [getLsbD_statusWord t hi]
  simp [h0, h1, h2, h4]

theorem errField_statusWord (t : Status) : (statusWord t).extractLsb' 4 4 = errCode t.err := by
  apply BitVec.eq_of_getLsbD_eq
  intro i hi
  rw [BitVec.getLsbD_extractLsb', getLsbD_statusWord_of_le t (by omega) (by omega)]
  simp [hi]

theorem highBits_statusWord (t : Status) : (statusWord t).extractLsb' 8 24 = 0 := by
  apply BitVec.eq_of_getLsbD_eq
  intro i hi
  rw [BitVec.getLsbD_extractLsb', getLsbD_statusWord_of_le t (by omega) (by omega), BitVec.getLsbD_of_ge _ _ (by omega)]
  simp

/-- Settles O46: the flags and bit 3 are bits of the word, the code and the high bits its fields from bit 4 on. -/
theorem statusFields : Obligations.StatusFields := by
  intro t
  refine ⟨?_, ?_, ?_, ?_, ?code, highBits_statusWord t⟩
  case code =>
    rw [errField_statusWord]
    cases t.err <;> rfl
  all_goals
    rw [getLsbD_statusWord t (by omega)]
    simp

end Sys2Proof.Machine
end

section
/-! WAVRD depends on its image only through the bytes at 24 to 27 and from 40 on (30_encoding.md R98; 44_container_reader.md
R187). -/

namespace Sys2Proof.Machine

/-! ## Images of the same content -/

/-- A little-endian field is read from its own bytes (R63). -/
theorem memRead_congr {u v : List Byte} {addr n : Nat} (h : ∀ i, addr ≤ i → i < addr + n → u[i]? = v[i]?) :
    memRead u addr n = memRead v addr n := by
  refine congrArg leNat (List.ext_getElem? fun i => ?_)
  simp only [List.getElem?_take, List.getElem?_drop]
  split
  · exact h _ (by omega) (by omega)
  · rfl

/-- The images agree on all that WAVRD reads of them (R98, R187): the bytes at 24 to 27 and from 40 on. -/
def SameContent (u v : List Byte) : Prop := ∀ i, (24 ≤ i ∧ i < 28 ∨ 40 ≤ i) → u[i]? = v[i]?

section
variable {u v : List Byte} (h : SameContent u v)
include h

theorem SameContent.rate : memRead u 24 4 = memRead v 24 4 :=
  memRead_congr fun i h1 h2 => h i (.inl ⟨h1, h2⟩)

theorem SameContent.size : memRead u 40 4 = memRead v 40 4 :=
  memRead_congr fun i h1 _ => h i (.inr h1)

theorem SameContent.payload : u.drop 44 = v.drop 44 :=
  List.ext_getElem? fun i => by simpa using h (44 + i) (.inr (by omega))

end

/-- Ready images of one length that agree in the elements WAVRD reads agree as operands. -/
theorem sameContent_of_bufGet {s : State} {b : Buf 8} {u v : List Byte} (hu : inputFile s = some u)
    (hv : inputFile { s with fileBuf := b } = some v)
    (h : ∀ i, (24 ≤ i ∧ i < 28 ∨ 40 ≤ i) → i < s.fileLen.toNat → bufGet b i = bufGet s.fileBuf i) :
    SameContent u v := by
  obtain ⟨hul, hug⟩ := inputFile_spec hu
  obtain ⟨hvl, hvg⟩ := inputFile_spec hv
  intro i hi
  by_cases hlen : i < s.fileLen.toNat
  · rw [hug i hlen, hvg i hlen, h i hi hlen]
  · rw [List.getElem?_eq_none (by omega), List.getElem?_eq_none (by rw [hvl]; exact not_lt.mp hlen)]

/-! ## WAVRD as a function of its image -/

/-- What WAVRD makes of a state whose image is `image` (R180, R183 to R186). -/
def wavrdEnd (s : State) (image : List Byte) : State :=
  let rawSize : Word := BitVec.ofNat 32 (memRead image 40 4)
  let count := rawSize.toNat / 2
  if s.fileLen.toNat < 44 then raise .malformedContainer s.fileLen (some .samp) s
  else if rawSize.toInt ≤ 0 then raise .malformedContainer rawSize (some .samp) s
  else if s.caps.samples.val < count then raise .allocationError (saturated count) (some .samp) s
  else if s.fileLen.toNat < 44 + 2 * count then raise .malformedContainer rawSize (some .samp) s
  else putSamples (payloadSamples count (image.drop 44)) { s with fs := BitVec.ofNat 32 (memRead image 24 4) }

theorem exec_wavrd_of_input {s : State} {image : List Byte} (hs : s.status.halt = false)
    (hin : inputFile s = some image) : exec .wavrd s = .next (wavrdEnd (setDone false s) image) := by
  simp only [exec, execWavrd, issue_running _ hs, inputFile_setDone, hin, wavrdEnd, apply_ite Host.Outcome.next]

/-- WAVRD uses no more of its image than its content. -/
theorem wavrdEnd_congr {u v : List Byte} (h : SameContent u v) (s : State) : wavrdEnd s u = wavrdEnd s v := by
  simp only [wavrdEnd, h.rate, h.size, h.payload]

/-- WAVRD keeps FILEBUF, and looks at it only through the image. -/
theorem wavrdEnd_withFileBuf (s : State) (b : Buf 8) (image : List Byte) :
    wavrdEnd { s with fileBuf := b } image = { wavrdEnd s image with fileBuf := b } := by
  unfold wavrdEnd
  dsimp only
  repeat' split
  all_goals rfl

/-- Settles O25: a halted block ignores both; else the two images have the same content, on which alone the end depends. -/
theorem wavrdIgnoresOtherHeaderBytes : Obligations.WavrdIgnoresOtherHeaderBytes := by
  intro s t b hs hb hsame h
  cases hh : s.status.halt with
  | true =>
    rw [exec_halted _ hh] at h
    cases h
    exact exec_halted _ hh
  | false =>
    obtain ⟨u, hu⟩ := Option.isSome_iff_exists.mp ((inputFile_isSome_iff s).mpr hs)
    obtain ⟨v, hv⟩ := Option.isSome_iff_exists.mp ((inputFile_isSome_iff _).mpr hb)
    rw [exec_wavrd_of_input hh hu, wavrdEnd_congr (sameContent_of_bufGet hu hv hsame)] at h
    cases h
    exact (exec_wavrd_of_input (s := { s with fileBuf := b }) hh hv).trans
      (congrArg _ (wavrdEnd_withFileBuf (setDone false s) b v))

end Sys2Proof.Machine
end

section
/-! The block with the ideal NUM (40_numerics.md R120) is the model's own block: MOD and DEMOD use NUM only past the parameter
check, and there the sample rate is not 0, so that the integer numerics agree with it. -/

namespace Sys2Proof.Machine

theorem execModWith_ideal (s : State) : execModWith Num.ideal s = execMod s := by
  unfold execModWith execMod
  refine congrArg (issue s) (funext fun s => ?_)
  cases inputBits s with
  | none => rfl
  | some bits =>
    cases hp : symbolPeriod s with
    | none => rfl
    | some ns =>
      have hfs := ((symbolPeriod_eq_some_iff s ns).mp hp).1.pos.1
      -- as modules of their own the two definitions have each its own matcher, equal by rfl
      simp only [modulatedValuesWith_ideal hfs] <;> rfl

theorem execDemodWith_ideal (s : State) : execDemodWith Num.ideal s = execDemod s := by
  unfold execDemodWith execDemod
  refine congrArg (issue s) (funext fun s => ?_)
  cases inputSamples s with
  | none => rfl
  | some samples =>
    cases hp : symbolPeriod s with
    | none => rfl
    | some ns =>
      have hfs := ((symbolPeriod_eq_some_iff s ns).mp hp).1.pos.1
      simp only [demodulatedBitsWith_ideal hfs]

theorem execWith_ideal : execWith Num.ideal = exec := by
  funext i s
  cases i with
  | mod => exact execModWith_ideal s
  | demod => exact execDemodWith_ideal s
  | nop | bitx | wavwr | wavrd | pack => rfl

theorem stepWith_ideal : stepWith Num.ideal = step := by
  funext s
  rw [stepWith, step, execWith_ideal]

/-- Settles O33: MOD and DEMOD are the only commands that use NUM, and a step uses NUM only through its command. -/
theorem execIsTheIdealInstance : Obligations.ExecIsTheIdealInstance :=
  ⟨fun i s => congrFun₂ execWith_ideal i s, congrFun stepWith_ideal⟩

end Sys2Proof.Machine
end

section
/-! The ideal NUM has the properties P1 to P5 (40_numerics.md R133). -/

namespace Sys2Proof

/-- P5 for an exact sum. Stated for any ordered group, so that the reversed order gives the form for terms that are not
positive. -/
theorem sum_nonneg_and_pos_iff {M : Type*} [AddCommGroup M] [LinearOrder M] [IsOrderedAddMonoid M] (l : List M)
    (h : ∀ x ∈ l, 0 ≤ x) : 0 ≤ l.sum ∧ (0 < l.sum ↔ ∃ x ∈ l, 0 < x) := by
  refine ⟨List.sum_nonneg h, fun hpos => ?_, fun ⟨x, hx, hpos⟩ => hpos.trans_le (List.single_le_sum h x hx)⟩
  exact List.exists_lt_of_sum_lt (fun _ => 0) id (by simpa using hpos)

/-- Settles O32: P1 is the bound of the cosine, P3 and P4 are laws of the product, and P5 is that of the sum. -/
theorem idealNumericsAreAdmissible : Obligations.IdealNumericsAreAdmissible where
  carr_bounded _ _ _ _ := Real.cos_mem_Icc _
  scale_bounded a c ha hc := by
    have habs : |(a : ℝ)| = 1 := by rcases ha with rfl | rfl <;> simp
    calc |32767 * (a : ℝ) * c| = 32767 * |c| := by rw [abs_mul, abs_mul, habs]; norm_num
      _ ≤ 32767 := by linarith
  scale_odd c := by simp [Num.ideal]
  mul_neg_left s c := by simp [Num.ideal]
  mul_neg_right s c := by simp [Num.ideal]
  mul_zero s c := by simp [Num.ideal]
  mul_sign _ _ := ⟨Iff.rfl, Iff.rfl⟩
  acc_nonneg := sum_nonneg_and_pos_iff
  acc_nonpos := sum_nonneg_and_pos_iff (M := ℝᵒᵈ)
  acc_nil := rfl

end Sys2Proof
end

section
/-! What success tells: MOD under any record NUM, and DEMOD, succeed only where their checks pass (42_modulator.md R151 to R153;
45_demodulator.md R201 to R203). -/

namespace Sys2Proof.Machine

theorem not_done_raise (k : ErrKind) (info : Word) (out : Option BufId) (s : State) :
    ¬ (raise k info out s).status.done = true := by
  simp [faultStatus]

/-- A state with another carrier frequency. -/
def withF0 (f : Word) (s : State) : State := { s with f0 := f }

section
variable (f : Word) (s : State)

@[simp] theorem withF0_fs : (withF0 f s).fs = s.fs := rfl
@[simp] theorem withF0_f0 : (withF0 f s).f0 = f := rfl
@[simp] theorem inputBits_withF0 : inputBits (withF0 f s) = inputBits s := rfl
@[simp] theorem symbolPeriod_withF0 : symbolPeriod (withF0 f s) = symbolPeriod s := rfl
@[simp] theorem period_withF0 : period (withF0 f s) = period s := rfl

end

/-- MOD either takes a fault, the same whatever NUM and F0 are, or passes its checks. -/
theorem mod_faults_or_checks {s : State} (hs : s.status.halt = false) :
    (∃ k info, ∀ (N : Sys2Proof.Num) (f : Word), execWith N .mod (withF0 f s) =
      .next (withF0 f (raise k info (some .samp) (setDone false s)))) ∨
    ∃ bits, inputBits s = some bits ∧ ParametersOk s ∧ s.bitLen.toNat * period s ≤ s.caps.samples.val := by
  have hissue (f : Word) (rule : State → Result) := issue_running (s := withF0 f s) rule hs
  simp only [execWith, execModWith, hissue, inputBits_setDone, symbolPeriod_setDone, inputBits_withF0,
    symbolPeriod_withF0]
  cases hin : inputBits s with
  | none => exact .inl ⟨_, _, fun _ _ => rfl⟩
  | some bits =>
    cases hns : symbolPeriod s with
    | none => exact .inl ⟨_, _, fun _ _ => rfl⟩
    | some ns =>
      obtain ⟨hp, rfl⟩ := (symbolPeriod_eq_some_iff s ns).mp hns
      by_cases hc : s.caps.samples.val < s.bitLen.toNat * period s
      · refine .inl ⟨.allocationError, saturated (s.bitLen.toNat * period s), fun _ _ => ?_⟩
        dsimp only
        exact if_pos hc
      · exact .inr ⟨bits, rfl, hp, not_lt.mp hc⟩

theorem modChecks_of_done {N : Sys2Proof.Num} {s t : State} (hs : s.status.halt = false)
    (h : execWith N .mod s = .next t) (hd : t.status.done = true) :
    ∃ bits, inputBits s = some bits ∧ ParametersOk s ∧ s.bitLen.toNat * period s ≤ s.caps.samples.val := by
  refine (mod_faults_or_checks hs).resolve_left ?_
  rintro ⟨k, info, hfault⟩
  cases (hfault N s.f0).symm.trans h
  exact not_done_raise _ _ _ _ hd

theorem demodChecks_of_done {s t : State} (hs : s.status.halt = false) (h : exec .demod s = .next t)
    (hd : t.status.done = true) :
    ∃ samples, inputSamples s = some samples ∧ ParametersOk s ∧ s.sampLen.toNat / period s ≤ s.caps.bits.val := by
  simp only [exec, execDemod, issue_running _ hs, inputSamples_setDone, symbolPeriod_setDone] at h
  cases hin : inputSamples s with
  | none => rw [hin] at h; cases h; exact absurd hd (not_done_raise _ _ _ _)
  | some samples =>
    cases hns : symbolPeriod s with
    | none => rw [hin, hns] at h; cases h; exact absurd hd (not_done_raise _ _ _ _)
    | some ns =>
      obtain ⟨hp, rfl⟩ := (symbolPeriod_eq_some_iff s ns).mp hns
      refine ⟨samples, rfl, hp, not_lt.mp fun hc => ?_⟩
      rw [hin, hns] at h
      dsimp only at h
      cases (if_pos hc).symm.trans h
      exact not_done_raise _ _ _ _ hd

/-- An index below a length register that took the length of a list is an index of the list. -/
theorem getElem?_of_lt_toNat_length {α : Type*} {vs : List α} {n : Nat} (h : n < (BitVec.ofNat 32 vs.length).toNat) :
    ∃ v, vs[n]? = some v :=
  ⟨_, List.getElem?_eq_getElem (h.trans_le (toNat_ofNat_le le_rfl))⟩

/-- An element of the input operand is an element of BITBUF below BIT_LEN (R233). -/
theorem inputBits_getElem?_eq_some_iff {s : State} {bits : List Bit} (hin : inputBits s = some bits) (i : Nat) (b : Bit) :
    bits[i]? = some b ↔ i < s.bitLen.toNat ∧ bufGet s.bitBuf i = some b := by
  obtain ⟨hlen, hget⟩ := inputBits_spec hin
  by_cases hi : i < s.bitLen.toNat
  · simp [hget i hi, hi]
  · simp [hi, List.getElem?_eq_none (hlen.trans_le (not_lt.mp hi))]

end Sys2Proof.Machine
end

section
/-! The commands under an admissible record NUM always end, and MOD under any record stops just at a scaled value out of range
(40_numerics.md R126, R133; 93_implementation_defined.md U3; log 6). -/

namespace Sys2Proof.Machine

/-- Admissible records never stop a command (R133, R230). -/
theorem execWith_next_of_admissible {N : Sys2Proof.Num} (hN : N.Admissible) (i : Instr) (s : State) :
    ∃ t, execWith N i s = .next t := by
  cases hs : s.status.halt with
  | true => exact ⟨s, execWith_halted N i hs⟩
  | false =>
    rcases execWith_ends N i s hs with ⟨k, info, -, he⟩ | ⟨t, he, -⟩ | ⟨-, hno, -⟩
    · exact ⟨_, he⟩
    · exact ⟨t, he⟩
    · exact absurd hN hno

/-- R157 for an admissible record. -/
theorem modWith_samples_bounded {N : Sys2Proof.Num} (hN : N.Admissible) {s t : State} (hs : s.status.halt = false)
    (h : execWith N .mod s = .next t) (hd : t.status.done = true) {n : Nat} (hn : n < t.sampLen.toNat) :
    ∃ v : Sample, bufGet t.sampBuf n = some v ∧ |v.toInt| ≤ 32767 := by
  obtain ⟨bits, hin, hp, hc⟩ := modChecks_of_done hs h hd
  have hbound := abs_modulatedValuesWith_le hN hp.pos.1 s.f0.toNat (period s) 0 bits
  obtain ⟨vs, hvs, hmap⟩ := samplesOfInts_of_bounded hbound
  simp only [execWith_mod_eq N hs hin hp hc, hvs] at h
  cases h
  obtain ⟨v, hv⟩ := getElem?_of_lt_toNat_length hn
  exact ⟨v, by simpa using hv, hbound _ (hmap ▸ List.mem_map_of_mem (List.mem_of_getElem? hv))⟩

/-- R126: some number of MOD is no sample exactly where some scaled value it needs has a magnitude of 32768 or more. -/
theorem samplesOfInts_modulatedValuesWith_eq_none_iff (N : Sys2Proof.Num) (fs f0 ns : Nat) (bits : List Bit) :
    samplesOfInts (modulatedValuesWith N fs f0 ns 0 bits) = none ↔
      ∃ i j b, bits[i]? = some b ∧ j < ns ∧ 32768 ≤ |N.scale (Num.amp b) (N.carr fs f0 (i * ns + j))| := by
  have hq (i j : Nat) (b : Bit) : 32768 ≤ |N.quantized fs f0 (0 + (i * ns + j)) b| ↔
      32768 ≤ |N.scale (Num.amp b) (N.carr fs f0 (i * ns + j))| := by
    simpa [Num.quantized] using natCast_le_abs_realTrunc_iff (N.scale (Num.amp b) (N.carr fs f0 (i * ns + j))) 32768
  simp only [samplesOfInts_eq_none_iff, mem_modulatedValuesWith, ← hq]
  constructor
  · rintro ⟨_, ⟨i, j, b, hb, hj, rfl⟩, hm⟩
    exact ⟨i, j, b, hb, hj, hm⟩
  · rintro ⟨i, j, b, hb, hj, hm⟩
    exact ⟨_, ⟨i, j, b, hb, hj, rfl⟩, hm⟩

/-- Settles O34: under an admissible record no command stops and MOD's samples are bounded; under any, MOD past its checks
stops where a number is no sample. -/
theorem admissibleNumericsNeverStop : Obligations.AdmissibleNumericsNeverStop := by
  constructor
  · intro N i s hN
    obtain ⟨t, ht⟩ := execWith_next_of_admissible hN i s
    refine ⟨t, ht, ?_⟩
    rintro rfl hs hd n hn
    obtain ⟨v, hv, hb⟩ := modWith_samples_bounded hN hs ht hd hn
    exact ⟨v, hv, abs_le.mp hb⟩
  · intro N s hs hready hp hc
    obtain ⟨bits, hin⟩ := Option.isSome_iff_exists.mp ((inputBits_isSome_iff s).mpr hready)
    rw [execWith_mod_eq N hs hin hp hc]
    have hrange : samplesOfInts (modulatedValuesWith N s.fs.toNat s.f0.toNat (period s) 0 bits) = none ↔
        ∃ i j b, i < s.bitLen.toNat ∧ j < period s ∧ bufGet s.bitBuf i = some b ∧
          32768 ≤ |N.scale (Num.amp b) (N.carr s.fs.toNat s.f0.toNat (i * period s + j))| := by
      rw [samplesOfInts_modulatedValuesWith_eq_none_iff]
      refine exists₃_congr fun i j b => ?_
      rw [inputBits_getElem?_eq_some_iff hin]
      tauto
    rw [← hrange]
    cases samplesOfInts (modulatedValuesWith N s.fs.toNat s.f0.toNat (period s) 0 bits) with
    | none => exact ⟨iff_of_true rfl rfl, absurd rfl⟩
    | some vs => exact ⟨iff_of_false nofun nofun, fun _ => ⟨_, rfl, rfl⟩⟩

end Sys2Proof.Machine
end

section
/-! The samples of MOD (40_numerics.md R123, R127; 42_modulator.md R158) and the decision of a zero window by DEMOD
(40_numerics.md R131). -/

namespace Sys2Proof.Machine

theorem sampleValue_of_bufGet {s : State} {i : Nat} {v : Sample} (h : bufGet s.sampBuf i = some v) :
    sampleValue s i = v.toInt := by
  simp [sampleValue, h]

/-- After a successful MOD the sample at `n` is that of the ideal NUM for the bit `n / Ns` (R154). -/
theorem mod_sample_of_done {s t : State} (hs : s.status.halt = false) (h : exec .mod s = .next t)
    (hd : t.status.done = true) {n : Nat} (hn : n < t.sampLen.toNat) :
    ∃ b, bufGet s.bitBuf (n / period s) = some b ∧
      sampleValue t n = Num.ideal.quantized s.fs.toNat s.f0.toNat n b := by
  obtain ⟨bits, hin, hp, hc⟩ := modChecks_of_done hs (execWith_ideal ▸ h) hd
  obtain ⟨vs, he, hlen, -, hsample⟩ := exec_mod_eq hs hin hp hc
  rw [he] at h
  cases h
  obtain ⟨v, hv⟩ := getElem?_of_lt_toNat_length hn
  have hlt : n < s.bitLen.toNat * period s := hlen ▸ (List.getElem?_eq_some_iff.mp hv).1
  have hi : n / period s < s.bitLen.toNat := Nat.div_lt_of_lt_mul (by rwa [Nat.mul_comm])
  obtain ⟨hl, hg⟩ := inputBits_spec hin
  obtain ⟨b, hb⟩ : ∃ b, bits[n / period s]? = some b := ⟨_, List.getElem?_eq_getElem (hl ▸ hi)⟩
  refine ⟨b, hg _ hi ▸ hb, ?_⟩
  obtain ⟨u, hu, hq⟩ := hsample _ _ b hb (Nat.mod_lt n hp.pos.2)
  rw [Nat.div_add_mod'] at hu hq
  rw [← hq]
  exact sampleValue_of_bufGet (by simpa using hu)

/-- At index 0 the carrier is 1 (R122, R158). -/
theorem ideal_quantized_zero (fs f0 : Nat) : Num.ideal.quantized fs f0 0 1 = 32767 := by
  have h : Num.ideal.scale (Num.amp 1) (Num.ideal.carr fs f0 0) = ((32767 : ℤ) : ℝ) := by simp [Num.ideal, Num.amp]
  rw [Num.quantized, h, realTrunc_intCast]

/-- Settles O19: the bit's sample is its amplitude times that of a bit 1, and at index 0 the carrier is 1. -/
theorem modSamplesAreSignedCarrier : Obligations.ModSamplesAreSignedCarrier := by
  intro s t hs h hd
  have hsigned (n : Nat) (hn : n < t.sampLen.toNat) : sampleValue t n =
      (if bufGet s.bitBuf (n / period s) = some 1 then 1 else -1) * Num.ideal.quantized s.fs.toNat s.f0.toNat n 1 := by
    obtain ⟨b, hb, hv⟩ := mod_sample_of_done hs h hd hn
    rw [hv, quantized_eq_amp_mul, Num.amp, hb]
    simp only [Option.some.injEq]
  refine ⟨hsigned, fun h0 => ?_⟩
  rw [hsigned 0 h0, ideal_quantized_zero, Nat.zero_div, ite_mul, one_mul, neg_one_mul]

/-- Settles O20: past its checks MOD uses F0 only through the carrier, which depends on it modulo FS. -/
theorem aliasedCarrierModulatesAlike : Obligations.AliasedCarrierModulatesAlike := by
  intro s t g hg h
  cases hs : s.status.halt with
  | true =>
    rw [exec_halted _ hs] at h
    cases h
    exact exec_halted _ hs
  | false =>
    rw [← execWith_ideal] at h ⊢
    rcases mod_faults_or_checks hs with ⟨k, info, hfault⟩ | ⟨bits, hin, hp, hc⟩
    · cases (hfault _ s.f0).symm.trans h
      exact hfault _ g
    · have hfs := hp.pos.1
      obtain ⟨vs, hvs, -⟩ := samplesOfInts_modulatedValues hfs s.f0.toNat (period s) bits
      have hvs' := modulatedValues_mod hfs hg (period s) 0 bits ▸ hvs
      rw [← modulatedValuesWith_ideal hfs] at hvs hvs'
      rw [execWith_mod_eq _ hs hin hp hc, hvs] at h
      cases h
      change execWith _ _ (withF0 g s) = _
      rw [execWith_mod_eq (s := withF0 g s) _ hs hin hp hc, withF0_fs, withF0_f0, period_withF0, hvs']
      rfl

/-- A window of zero samples has the sum 0. -/
theorem windowSum_zeros (fs f0 idx : Nat) {window : List Sample} (h : ∀ v ∈ window, v.toInt = 0) :
    Num.ideal.windowSum fs f0 idx window = 0 := by
  rw [windowSum_eq_sum fs f0 idx window (fun _ => 0) fun j v hv => by simp [h v (List.mem_of_getElem? hv)]]
  simp

/-- Settles O30: the window's sum is 0, which is not strictly positive. -/
theorem zeroWindowDecidesZero : Obligations.ZeroWindowDecidesZero := by
  intro s t hs h hd k hk hzero
  obtain ⟨samples, hin, hp, hc⟩ := demodChecks_of_done hs h hd
  obtain ⟨hlen, hget⟩ := inputSamples_spec hin
  rw [exec_demod_eq hs hin hp hc] at h
  cases h
  have hk' : k < s.sampLen.toNat / period s := by
    simpa [demodulatedBits_length] using hk.trans_le (toNat_ofNat_le le_rfl)
  have hwindow : ∀ v ∈ (samples.drop (k * period s)).take (period s), v.toInt = 0 := by
    intro v hv
    obtain ⟨j, hj⟩ := List.getElem?_of_mem hv
    rw [List.getElem?_take, List.getElem?_drop] at hj
    split at hj
    · next hlt =>
      have hi := (List.getElem?_eq_some_iff.mp hj).1
      rw [hget _ (hlen ▸ hi)] at hj
      rw [← sampleValue_of_bufGet hj, hzero j hlt]
    · cases hj
  rw [putBits_bitBuf, bufGet_bufOfList, demodulatedBits_getElem? _ _ _ _ _ _ _ hk', Option.some.injEq,
    decideWindow_eq_zero_iff hp.pos.1, windowSum_zeros _ _ _ hwindow]

end Sys2Proof.Machine
end

section
/-! BITX and PACK (41_bit_extractor.md; 46_bit_packer.md R224): the faults and the completion of BITX, and the two commands one
after the other, each way round. -/

namespace Sys2Proof.Machine

/-! ## A ready input (R233) -/

theorem inputBytes_of_ready {s : State} (h : InputReady .byte s) :
    ∃ bytes, inputBytes s = some bytes ∧ bytes.length = s.byteLen.toNat ∧
      ∀ i, i < s.byteLen.toNat → bytes[i]? = bufGet s.byteBuf i := by
  obtain ⟨bytes, hin⟩ := Option.isSome_iff_exists.mp ((inputBytes_isSome_iff s).mpr h)
  exact ⟨bytes, hin, inputBytes_spec hin⟩

theorem inputBits_of_ready {s : State} (h : InputReady .bit s) :
    ∃ bits, inputBits s = some bits ∧ bits.length = s.bitLen.toNat ∧
      ∀ i, i < s.bitLen.toNat → bits[i]? = bufGet s.bitBuf i := by
  obtain ⟨bits, hin⟩ := Option.isSome_iff_exists.mp ((inputBits_isSome_iff s).mpr h)
  exact ⟨bits, hin, inputBits_spec hin⟩

/-! ## The faults of BITX (R141, R142) -/

theorem inputBytes_eq_none_iff (s : State) : inputBytes s = none ↔ ¬ InputReady .byte s := by
  rw [← inputBytes_isSome_iff, Option.not_isSome_iff_eq_none]

theorem exec_bitx_of_no_input {s : State} (hs : s.status.halt = false) (hin : inputBytes s = none) :
    exec .bitx s = .next (raise .ioError (bufIndex .byte) (some .bit) (setDone false s)) := by
  simp [exec, execBitx, issue_running _ hs, hin]

theorem exec_bitx_of_no_room {s : State} {bytes : List Byte} (hs : s.status.halt = false)
    (hin : inputBytes s = some bytes) (hc : s.caps.bits.val < 8 * s.byteLen.toNat) :
    exec .bitx s
      = .next (raise .allocationError (saturated (8 * s.byteLen.toNat)) (some .bit) (setDone false s)) := by
  simp [exec, execBitx, issue_running _ hs, hin, hc]

/-- Settles O14: the two checks of BITX in their order, each answered by fault entry (R272). -/
theorem bitxFaults : Obligations.BitxFaults := by
  intro s hs
  constructor
  · intro hready
    exact ⟨_, exec_bitx_of_no_input hs ((inputBytes_eq_none_iff s).mpr hready), faulted_raise _ _ _ s⟩
  · intro hready hc
    obtain ⟨bytes, hin, -⟩ := inputBytes_of_ready hready
    exact ⟨_, exec_bitx_of_no_room hs hin hc, faulted_raise _ _ _ s⟩

/-! ## The completion of BITX (R143) -/

/-- Settles O15: BITX completes with the bits of its input bytes, which stand in BITBUF one by one. -/
theorem bitxExtractsBits : Obligations.BitxExtractsBits := by
  intro s hs hready hc
  obtain ⟨bytes, hin, hlen, hget⟩ := inputBytes_of_ready hready
  have hbits : (bitsOfBytes bytes).length = 8 * s.byteLen.toNat := by rw [bitsOfBytes_length, hlen]
  refine ⟨_, exec_bitx_eq hs hin hc, ?_, fun i j b hi hj hb => ?_, fun k hk => ?_, rfl⟩
  · rw [putBits_bitLen, hbits, BitVec.toNat_ofNat, Nat.mod_eq_of_lt (hc.trans_lt s.caps.bits.isLt)]
  · rw [putBits_bitBuf, bufGet_bufOfList]
    exact bitsOfBytes_getElem? bytes i j b ((hget i hi).trans hb) hj
  · rw [putBits_bitBuf, bufGet_bufOfList]
    exact List.getElem?_eq_none (hbits.trans_le hk)

/-! ## One command after another (R238) -/

/-- A first command that ends without a fault hands its state to the others. -/
theorem issueUntilFault_cons {i : Instr} {is : List Instr} {s t : State} (h : exec i s = .next t)
    (ht : t.status.halt = false) : issueUntilFault (i :: is) s = issueUntilFault is t := by
  simp [issueUntilFault, h, ht]

/-- Two commands in a row, the first of which ends without a fault. -/
theorem issueUntilFault_pair {i j : Instr} {s t u : State} (hi : exec i s = .next t) (ht : t.status.halt = false)
    (hj : exec j t = .next u) : issueUntilFault [i, j] s = .next u := by
  rw [issueUntilFault_cons hi ht]
  simp [issueUntilFault, hj]

/-! ## A command on the output of the one before it -/

theorem exec_pack_putBits {bits : List Bit} {s : State} (hs : s.status.halt = false) (hlt : bits.length < 2 ^ 32)
    (hc : ceil8 bits.length ≤ s.caps.bytes.val) :
    exec .pack (putBits bits s)
      = .next (putBytes (packBits (ceil8 bits.length) bits) (setDone false (putBits bits s))) := by
  have hin := inputBits_putBits bits s hlt
  have hlen := (inputBits_spec hin).1
  rw [hlen] at hc ⊢
  exact exec_pack_eq (s := putBits bits s) hs hin hc

theorem exec_bitx_putBytes {bytes : List Byte} {s : State} (hs : s.status.halt = false) (hlt : bytes.length < 2 ^ 32)
    (hc : 8 * bytes.length ≤ s.caps.bits.val) :
    exec .bitx (putBytes bytes s) = .next (putBits (bitsOfBytes bytes) (setDone false (putBytes bytes s))) := by
  have hin := inputBytes_putBytes bytes s hlt
  rw [(inputBytes_spec hin).1] at hc
  exact exec_bitx_eq (s := putBytes bytes s) hs hin hc

/-! ## BITX and then PACK (R144 (b)) -/

theorem ceil8_eight_mul (n : Nat) : ceil8 (8 * n) = n := by
  unfold ceil8
  omega

/-- Settles O37: PACK reads the bits that BITX wrote, and packing the bits of bytes gives the bytes back. -/
theorem packUndoesBitx : Obligations.PackUndoesBitx := by
  intro s hs hready hbits hbytes
  obtain ⟨bytes, hin, hlen, hget⟩ := inputBytes_of_ready hready
  have hlt : (bitsOfBytes bytes).length < 2 ^ 32 := by
    rw [bitsOfBytes_length, hlen]
    exact hbits.trans_lt s.caps.bits.isLt
  have hceil : ceil8 (bitsOfBytes bytes).length = bytes.length := by rw [bitsOfBytes_length, ceil8_eight_mul]
  have hpack := exec_pack_putBits (s := setDone false s) hs hlt (hceil.trans_le (hlen.trans_le hbytes))
  rw [hceil, packBits_bitsOfBytes] at hpack
  refine ⟨_, issueUntilFault_pair (exec_bitx_eq hs hin hbits) hs hpack, rfl, ?_, fun i hi => ?_⟩
  · rw [putBytes_byteLen, hlen, BitVec.ofNat_toNat, BitVec.setWidth_eq]
  · rw [putBytes_byteBuf, bufGet_bufOfList, hget i hi]

/-! ## PACK and then BITX (R144 (c)) -/

theorem le_eight_mul_ceil8 (n : Nat) : n ≤ 8 * ceil8 n := by
  unfold ceil8
  omega

theorem packedValue_lt_two_pow {j : Nat} {bits : List Bit} (h : j + bits.length ≤ 8) :
    packedValue j bits < 2 ^ (8 - j) := by
  induction bits generalizing j with
  | nil => exact Nat.two_pow_pos _
  | cons b bs ih =>
    rw [List.length_cons] at h
    have hrest := ih (j := j + 1) (by omega)
    have hb : b.toNat * 2 ^ (7 - j) ≤ 1 * 2 ^ (7 - j) := Nat.mul_le_mul_right _ (Nat.le_of_lt_succ b.isLt)
    rw [show 8 - (j + 1) = 7 - j by omega] at hrest
    rw [packedValue, show 8 - j = 7 - j + 1 by omega, Nat.pow_succ]
    omega

/-- The bit of weight `2^(7-(i+j))` of a packed value is the `j`-th of its bits, 0 where there is none (R222). -/
theorem packedValue_testBit {i j : Nat} {bits : List Bit} (h : i + bits.length ≤ 8) (hj : i + j < 8) :
    (packedValue i bits).testBit (7 - (i + j)) = (bits[j]?.getD 0).toNat.testBit 0 := by
  induction bits generalizing i j with
  | nil => simp [packedValue]
  | cons b bs ih =>
    rw [List.length_cons] at h
    have hrest := packedValue_lt_two_pow (j := i + 1) (bits := bs) (by omega)
    rw [show 8 - (i + 1) = 7 - i by omega] at hrest
    rw [packedValue, Nat.mul_comm, Nat.testBit_two_pow_mul_add _ hrest]
    cases j with
    | zero => simp
    | succ j =>
      rw [if_pos (by omega), show i + (j + 1) = i + 1 + j by omega, ih (by omega) (by omega), List.getElem?_cons_succ]

/-- Bit `7-j` of the byte that packs up to eight bits is the `j`-th of them, 0 where there is none. -/
theorem packedByte_bit {j : Nat} {bits : List Bit} (h : bits.length ≤ 8) (hj : j < 8) :
    BitVec.ofNat 1 ((BitVec.ofNat 8 (packedValue 0 bits)).toNat / 2 ^ (7 - j) % 2) = bits[j]?.getD 0 := by
  have hbit : (packedValue 0 bits).testBit (7 - j) = (bits[j]?.getD 0).toNat.testBit 0 := by
    simpa only [Nat.zero_add] using packedValue_testBit (i := 0) (j := j) (bits := bits) (by omega) (by omega)
  rw [BitVec.toNat_ofNat, Nat.mod_eq_of_lt (packedValue_lt bits h), ← Nat.toNat_testBit, hbit, Nat.toNat_testBit,
    Nat.pow_zero, Nat.div_one, Nat.mod_eq_of_lt (bits[j]?.getD 0).isLt, BitVec.ofNat_toNat, BitVec.setWidth_eq]

/-- Extracting the bits of packed bytes gives the bits back, and 0 beyond them. -/
theorem bitsOfBytes_packBits_getElem? {m k : Nat} (bits : List Bit) (hk : k < 8 * m) :
    (bitsOfBytes (packBits m bits))[k]? = some (bits[k]?.getD 0) := by
  have hbyte := packBits_getElem? m (k / 8) bits (by omega)
  have hbit := bitsOfBytes_getElem? _ (k / 8) (k % 8) _ hbyte (by omega)
  rwa [packedByte_bit (List.length_take_le ..) (by omega), List.getElem?_take_of_lt (by omega), List.getElem?_drop,
    Nat.div_add_mod] at hbit

/-- Settles O38: BITX reads the bytes that PACK wrote, whose bits are those packed and then zeros. -/
theorem bitxOfPackPadsWithZeros : Obligations.BitxOfPackPadsWithZeros := by
  intro s hs hready hbytes (hroom : 8 * ceil8 s.bitLen.toNat ≤ s.caps.bits.val)
  obtain ⟨bits, hin, hlen, hget⟩ := inputBits_of_ready hready
  have hpacked : (packBits (ceil8 s.bitLen.toNat) bits).length = ceil8 s.bitLen.toNat := packBits_length _ _
  have hbitx := exec_bitx_putBytes (s := setDone false s) hs
    (hpacked.trans_lt (hbytes.trans_lt s.caps.bytes.isLt)) (by rwa [hpacked])
  refine ⟨_, issueUntilFault_pair (exec_pack_eq hs hin hbytes) hs hbitx, rfl, ?_, fun k hk => ?_,
    fun k hk (hlt : k < 8 * ceil8 s.bitLen.toNat) => ?_⟩
  · rw [putBits_bitLen, bitsOfBytes_length, hpacked, BitVec.toNat_ofNat]
    exact Nat.mod_eq_of_lt (hroom.trans_lt s.caps.bits.isLt)
  · have hlt : k < 8 * ceil8 s.bitLen.toNat := hk.trans_le (le_eight_mul_ceil8 _)
    rw [putBits_bitBuf, bufGet_bufOfList, bitsOfBytes_packBits_getElem? bits hlt, ← hget k hk,
      List.getElem?_eq_getElem (hlen ▸ hk), Option.getD_some]
  · rw [putBits_bitBuf, bufGet_bufOfList, bitsOfBytes_packBits_getElem? bits hlt,
      List.getElem?_eq_none (hlen.trans_le hk), Option.getD_none]

end Sys2Proof.Machine
end

section
/-! MOD by itself (42_modulator.md): its faults in their order (R151 to R153), the samples it writes, by the real cosine (R150,
R154), and their bound (R157). -/

namespace Sys2Proof.Machine

/-! ## The faults of MOD (R151 to R153) -/

theorem inputBits_eq_none_iff (s : State) : inputBits s = none ↔ ¬ InputReady .bit s := by
  rw [← inputBits_isSome_iff, Option.not_isSome_iff_eq_none]

theorem exec_mod_of_no_input {s : State} (hs : s.status.halt = false) (hin : inputBits s = none) :
    exec .mod s = .next (raise .ioError (bufIndex .bit) (some .samp) (setDone false s)) := by
  simp [exec, execMod, issue_running _ hs, hin]

theorem exec_mod_of_no_period {s : State} {bits : List Bit} (hs : s.status.halt = false)
    (hin : inputBits s = some bits) (hp : symbolPeriod s = none) :
    exec .mod s = .next (raise .invalidParameter s.baud (some .samp) (setDone false s)) := by
  simp [exec, execMod, issue_running _ hs, hin, hp]

theorem exec_mod_of_no_room {s : State} {bits : List Bit} (hs : s.status.halt = false)
    (hin : inputBits s = some bits) (hp : ParametersOk s) (hc : s.caps.samples.val < s.bitLen.toNat * period s) :
    exec .mod s = .next
      (raise .allocationError (saturated (s.bitLen.toNat * period s)) (some .samp) (setDone false s)) := by
  simp [exec, execMod, issue_running _ hs, hin, (symbolPeriod_eq_some_iff s _).mpr ⟨hp, rfl⟩, hc]

/-- Settles O16: the three checks of MOD in their order, each answered by fault entry (R272). -/
theorem modFaults : Obligations.ModFaults := by
  intro s hs
  refine ⟨fun hready => ?_, fun hready hbad => ?_, fun hready hp hc => ?_⟩
  · exact ⟨_, exec_mod_of_no_input hs ((inputBits_eq_none_iff s).mpr hready), faulted_raise _ _ _ s⟩
  · obtain ⟨bits, hin, -⟩ := inputBits_of_ready hready
    exact ⟨_, exec_mod_of_no_period hs hin ((symbolPeriod_eq_none_iff s).mpr hbad), faulted_raise _ _ _ s⟩
  · obtain ⟨bits, hin, -⟩ := inputBits_of_ready hready
    exact ⟨_, exec_mod_of_no_room hs hin hp hc, faulted_raise _ _ _ s⟩

/-! ## The completion of MOD (R150, R154) -/

/-- The ideal quantizer by the real cosine (R120, R125). -/
theorem ideal_quantized_eq_realTrunc (fs f0 idx : Nat) (b : Bit) :
    Num.ideal.quantized fs f0 idx b =
      realTrunc (32767 * (if b = 1 then (1 : ℝ) else -1) * Real.cos (2 * Real.pi * f0 * idx / fs)) := by
  simp [Num.quantized, Num.ideal, Num.amp]

/-- Settles O17: past its checks MOD completes with the ideal NUM's samples, which are those of the real cosine. -/
theorem modWritesTheQuantizedCarrier : Obligations.ModWritesTheQuantizedCarrier := by
  intro s hs hready hp hc
  obtain ⟨bits, hin, -, hget⟩ := inputBits_of_ready hready
  obtain ⟨vs, he, hlen, -, hsample⟩ := exec_mod_eq hs hin hp hc
  refine ⟨_, he, ?_, ?_, fun i j b hi hj hb => ?_, fun k hk => ?_, rfl⟩
  · rw [putSamples_sampLen, hlen, BitVec.toNat_ofNat]
    exact Nat.mod_eq_of_lt (hc.trans_lt (capacity_lt s.caps .samp))
  · rw [putSamples_ns, BitVec.toNat_ofNat, Nat.mod_eq_of_lt (period_lt s)]
  · obtain ⟨v, hv, hq⟩ := hsample i j b ((hget i hi).trans hb) hj
    rw [putSamples_sampBuf, bufGet_bufOfList]
    exact ⟨v, hv, hq.trans (ideal_quantized_eq_realTrunc _ _ _ b)⟩
  · rw [putSamples_sampBuf, bufGet_bufOfList]
    exact List.getElem?_eq_none (hlen.trans_le hk)

/-! ## The bound of the samples (R157) -/

/-- Settles O18: the ideal NUM is admissible, and the samples of an admissible NUM are bounded. -/
theorem modSamplesAreBounded : Obligations.ModSamplesAreBounded := by
  intro s t hs h hd n hn
  rw [← execWith_ideal] at h
  obtain ⟨v, hv, hbound⟩ := modWith_samples_bounded idealNumericsAreAdmissible hs h hd hn
  exact ⟨v, hv, abs_le.mp hbound⟩

end Sys2Proof.Machine
end

section
/-! WAVWR (43_container_writer.md): its faults in their order (R171), the image it writes (R172, R173), and WAVRD on that image
(R176, R177). -/

namespace Sys2Proof.Machine

/-! ## A ready SAMPBUF (R233) -/

theorem inputSamples_eq_none_iff (s : State) : inputSamples s = none ↔ ¬ InputReady .samp s := by
  rw [← inputSamples_isSome_iff, Option.not_isSome_iff_eq_none]

theorem inputSamples_of_ready {s : State} (h : InputReady .samp s) :
    ∃ samples, inputSamples s = some samples ∧ samples.length = s.sampLen.toNat ∧
      ∀ i, i < s.sampLen.toNat → samples[i]? = bufGet s.sampBuf i := by
  obtain ⟨samples, hin⟩ := Option.isSome_iff_exists.mp ((inputSamples_isSome_iff s).mpr h)
  exact ⟨samples, hin, inputSamples_spec hin⟩

/-! ## The faults of WAVWR (R171) -/

theorem exec_wavwr_of_no_input {s : State} (hs : s.status.halt = false) (hin : inputSamples s = none) :
    exec .wavwr s = .next (raise .ioError (bufIndex .samp) (some .file) (setDone false s)) := by
  simp [exec, execWavwr, issue_running _ hs, hin]

theorem exec_wavwr_of_no_room {s : State} {samples : List Sample} (hs : s.status.halt = false)
    (hin : inputSamples s = some samples) (hc : s.caps.file.val < 44 + 2 * s.sampLen.toNat) :
    exec .wavwr s
      = .next (raise .allocationError (saturated (44 + 2 * s.sampLen.toNat)) (some .file) (setDone false s)) := by
  simp [exec, execWavwr, issue_running _ hs, hin, hc]

/-- Settles O21: the two checks of WAVWR in their order, each answered by fault entry (R272). -/
theorem wavwrFaults : Obligations.WavwrFaults := by
  intro s hs
  constructor
  · intro hready
    exact ⟨_, exec_wavwr_of_no_input hs ((inputSamples_eq_none_iff s).mpr hready), faulted_raise _ _ _ s⟩
  · intro hready hc
    obtain ⟨samples, hin, -⟩ := inputSamples_of_ready hready
    exact ⟨_, exec_wavwr_of_no_room hs hin hc, faulted_raise _ _ _ s⟩

/-! ## The image WAVWR writes (R96, R172, R173) -/

/-- The container image of a sample sequence at a sample rate: the header and then the payload. -/
def containerOf (fs : Word) (samples : List Sample) : List Byte :=
  headerBytes fs.toNat samples.length ++ payloadBytes samples

section
variable (fs : Word) (samples : List Sample)

@[simp] theorem containerOf_length : (containerOf fs samples).length = 44 + 2 * samples.length := by
  rw [containerOf, List.length_append, headerBytes_length, payloadBytes_length]

theorem containerOf_payload : (containerOf fs samples).drop 44 = payloadBytes samples :=
  List.drop_left' (headerBytes_length _ _)

/-- Sample `n`'s pattern in the image: its low byte at `44 + 2n`, its high byte at `45 + 2n` (R173). -/
theorem containerOf_sample {n : Nat} {v : Sample} (h : samples[n]? = some v) :
    (containerOf fs samples)[44 + 2 * n]? = some (BitVec.ofNat 8 v.toNat) ∧
      (containerOf fs samples)[45 + 2 * n]? = some (BitVec.ofNat 8 (v.toNat / 256)) := by
  have hpayload := payloadBytes_getElem? samples n v h
  rw [← containerOf_payload fs samples, List.getElem?_drop, List.getElem?_drop] at hpayload
  rwa [show 45 + 2 * n = 44 + (2 * n + 1) by omega]

end

/-- A field whose bytes are those of a number it has room for reads as that number (R63). -/
theorem memRead_of_leBytes {image : List Byte} {addr n v : Nat} (h : (image.drop addr).take n = leBytes n v)
    (hv : v < 256 ^ n) : memRead image addr n = v := by
  rw [memRead, h, leNat_leBytes, Nat.mod_eq_of_lt hv]

/-- WAVRD reads the sample rate at 24 (R185). -/
theorem memRead_containerOf_rate (fs : Word) (samples : List Sample) :
    memRead (containerOf fs samples) 24 4 = fs.toNat := by
  obtain ⟨-, -, -, -, -, -, -, hrate, -⟩ := headerBytes_fields fs.toNat samples.length (payloadBytes samples)
  exact memRead_of_leBytes hrate fs.isLt

/-- WAVRD reads the payload's size at 40 (R183). -/
theorem memRead_containerOf_size (fs : Word) {samples : List Sample} (h : 2 * samples.length < 2 ^ 32) :
    memRead (containerOf fs samples) 40 4 = 2 * samples.length := by
  obtain ⟨-, -, -, -, -, -, -, -, -, -, -, -, hsize, -⟩ :=
    headerBytes_fields fs.toNat samples.length (payloadBytes samples)
  exact memRead_of_leBytes hsize h

theorem exec_wavwr_containerOf {s : State} {samples : List Sample} (hs : s.status.halt = false)
    (hin : inputSamples s = some samples) (hc : 44 + 2 * s.sampLen.toNat ≤ s.caps.file.val) :
    exec .wavwr s = .next (putFile (containerOf s.fs samples) (setDone false s)) := by
  rw [exec_wavwr_eq hs hin hc, containerOf, (inputSamples_spec hin).1]

/-! ## The completion of WAVWR (R172, R173) -/

theorem bufSlice_putFile {image : List Byte} (s : State) {addr n : Nat} (h : addr + n ≤ image.length) :
    bufSlice (putFile image s).fileBuf addr n = some ((image.drop addr).take n) :=
  bufSlice_part (bufSlice_bufOfList image) h

theorem fileField_putFile {image : List Byte} (s : State) {addr n : Nat} (h : addr + n ≤ image.length) :
    fileField (putFile image s) addr n = some (memRead image addr n) := by
  rw [fileField, bufSlice_putFile s h]
  rfl

/-- Settles O22: each field of the written image is cut out of the header, and each sample's bytes stand in the payload. -/
theorem wavwrWritesTheContainer : Obligations.WavwrWritesTheContainer := by
  intro s hs hready hc
  obtain ⟨samples, hin, hlen, hget⟩ := inputSamples_of_ready hready
  have hcap := s.caps.file.isLt
  have himage : (containerOf s.fs samples).length = 44 + 2 * s.sampLen.toNat := by rw [containerOf_length, hlen]
  have hslice {addr n : Nat} {bs : List Byte} (h : addr + n ≤ 44)
      (hbs : ((containerOf s.fs samples).drop addr).take n = bs) :
      bufSlice (putFile (containerOf s.fs samples) (setDone false s)).fileBuf addr n = some bs := by
    rw [bufSlice_putFile _ (by omega), hbs]
  have hfield {addr n v : Nat} (h : addr + n ≤ 44) (hv : v < 256 ^ n)
      (hbs : ((containerOf s.fs samples).drop addr).take n = leBytes n v) :
      fileField (putFile (containerOf s.fs samples) (setDone false s)) addr n = some v := by
    rw [fileField_putFile _ (by omega), memRead_of_leBytes hbs hv]
  have hcut := headerBytes_fields s.fs.toNat samples.length (payloadBytes samples)
  rw [← containerOf] at hcut
  obtain ⟨hriff, htotal, hwave, hfmt, hsub, hpcm, hchan, hrate, hbyteRate, halign, hdepth, hdata, hsize, -⟩ := hcut
  rw [hlen, Nat.mod_eq_of_lt (by omega)] at htotal
  rw [hlen] at hsize
  refine ⟨_, exec_wavwr_containerOf hs hin hc, ?_, hslice (by omega) hriff, hfield (by omega) (by omega) htotal,
    hslice (by omega) hwave, hslice (by omega) hfmt, hfield (by omega) (by omega) hsub,
    hfield (by omega) (by omega) hpcm, hfield (by omega) (by omega) hchan, hfield (by omega) s.fs.isLt hrate,
    hfield (by omega) (Nat.mod_lt _ (by omega)) hbyteRate, hfield (by omega) (by omega) halign,
    hfield (by omega) (by omega) hdepth, hslice (by omega) hdata, hfield (by omega) (by omega) hsize,
    fun n v hn hv => ?_, fun k hk => ?_, rfl⟩
  · rw [putFile_fileLen, himage, BitVec.toNat_ofNat]
    exact Nat.mod_eq_of_lt (hc.trans_lt hcap)
  · have hlow : BitVec.ofNat 8 (v.toNat % 256) = BitVec.ofNat 8 v.toNat := BitVec.eq_of_toNat_eq (by simp)
    rw [putFile_fileBuf, bufGet_bufOfList, bufGet_bufOfList, hlow]
    exact containerOf_sample s.fs samples ((hget n hn).trans hv)
  · rw [putFile_fileBuf, bufGet_bufOfList]
    exact List.getElem?_eq_none (himage.trans_le hk)

/-! ## WAVWR and then WAVRD (R176, R177) -/

section
variable {fs : Word} {samples : List Sample} {s : State} (hs : s.status.halt = false)
include hs

/-- WAVRD of the image of at least one sample puts the sample rate and the samples back. -/
theorem exec_wavrd_containerOf (hpos : 0 < samples.length) (hc : samples.length ≤ s.caps.samples.val)
    (hlt : (containerOf fs samples).length < 2 ^ 32) :
    exec .wavrd (putFile (containerOf fs samples) s) =
      .next (putSamples samples { setDone false (putFile (containerOf fs samples) s) with fs := fs }) := by
  have hcap := s.caps.samples.isLt
  have hin := inputFile_putFile (containerOf fs samples) s hlt
  have hlen := (inputFile_spec hin).1
  rw [containerOf_length] at hlen
  have hsize := memRead_containerOf_size fs (samples := samples) (by omega)
  have hcount : memRead (containerOf fs samples) 40 4 / 2 = samples.length := by omega
  have h := exec_wavrd_eq (s := putFile (containerOf fs samples) s) hs hin (by omega) (by omega) (by omega)
    (hcount.trans_le hc) (by omega)
  rwa [hcount, containerOf_payload, payloadSamples_payloadBytes, memRead_containerOf_rate, BitVec.ofNat_toNat,
    BitVec.setWidth_eq] at h

/-- WAVRD of the image of no samples finds a declared size of 0, which is not positive (R183, R312). -/
theorem exec_wavrd_containerOf_nil :
    exec .wavrd (putFile (containerOf fs []) s) =
      .next (raise .malformedContainer 0 (some .samp) (setDone false (putFile (containerOf fs []) s))) := by
  have hsize : memRead (containerOf fs []) 40 4 = 0 := memRead_containerOf_size fs (by decide)
  rw [exec_wavrd_of_input (s := putFile (containerOf fs []) s) hs (inputFile_putFile _ s (by simp))]
  simp [wavrdEnd, hsize]

end

/-- Settles O26: WAVRD reads the image WAVWR wrote, whose payload reads back as the samples. -/
theorem containerFidelity : Obligations.ContainerFidelity := by
  intro s hs hready hpos hsamples hfile
  obtain ⟨samples, hin, hlen, hget⟩ := inputSamples_of_ready hready
  have hlt : (containerOf s.fs samples).length < 2 ^ 32 := by
    rw [containerOf_length, hlen]
    exact hfile.trans_lt s.caps.file.isLt
  have hread := exec_wavrd_containerOf (s := setDone false s) hs (hpos.trans_eq hlen.symm)
    (hlen.trans_le hsamples) hlt
  refine ⟨_, issueUntilFault_pair (exec_wavwr_containerOf hs hin hfile) hs hread, rfl, hs, rfl, ?_, fun n hn => ?_⟩
  · rw [putSamples_sampLen, hlen, BitVec.ofNat_toNat, BitVec.setWidth_eq]
  · rw [putSamples_sampBuf, bufGet_bufOfList, hget n hn]

/-- Settles O27: an empty SAMPBUF is ready, its image is the 44 header bytes, and the size declared there is 0. -/
theorem emptyContainerCannotBeReadBack : Obligations.EmptyContainerCannotBeReadBack := by
  intro s hs hvalid hempty hcap
  have hin : inputSamples s = some [] := by rw [inputSamples, if_pos hvalid, hempty]; rfl
  have hroom : 44 + 2 * s.sampLen.toNat ≤ s.caps.file.val := by simpa [hempty] using hcap
  exact ⟨_, _, exec_wavwr_containerOf hs hin hroom, rfl, by simp,
    exec_wavrd_containerOf_nil (s := setDone false s) hs, faulted_raise _ _ _ _⟩

end Sys2Proof.Machine
end

section
/-! WAVRD by itself (44_container_reader.md): its faults in their order (R181, R183, R184), and what it reads from the image
(R185, R186). -/

namespace Sys2Proof.Machine

/-! ## A ready FILEBUF (R233) -/

theorem inputFile_eq_none_iff (s : State) : inputFile s = none ↔ ¬ InputReady .file s := by
  rw [← inputFile_isSome_iff, Option.not_isSome_iff_eq_none]

theorem inputFile_of_ready {s : State} (h : InputReady .file s) :
    ∃ image, inputFile s = some image ∧ image.length = s.fileLen.toNat ∧
      ∀ i, i < s.fileLen.toNat → image[i]? = bufGet s.fileBuf i := by
  obtain ⟨image, hin⟩ := Option.isSome_iff_exists.mp ((inputFile_isSome_iff s).mpr h)
  exact ⟨image, hin, inputFile_spec hin⟩

/-! ## The faults of WAVRD (R181, R183, R184) -/

/-- A four-byte field of an image is the value of the word it is read into. -/
theorem toNat_ofNat_memRead (image : List Byte) (addr : Nat) :
    (BitVec.ofNat 32 (memRead image addr 4)).toNat = memRead image addr 4 :=
  (BitVec.toNat_ofNat _ _).trans (Nat.mod_eq_of_lt (memRead_lt image addr 4))

theorem saturated_of_lt {n : Nat} (h : n < 2 ^ 32) : saturated n = BitVec.ofNat 32 n := by
  rw [saturated, Nat.min_eq_left (by omega)]

theorem exec_wavrd_of_no_input {s : State} (hs : s.status.halt = false) (hin : inputFile s = none) :
    exec .wavrd s = .next (raise .ioError (bufIndex .file) (some .samp) (setDone false s)) := by
  simp only [exec, execWavrd, issue_running _ hs, inputFile_setDone, hin]

section
variable {s : State} {image : List Byte}

theorem wavrdEnd_of_short_header (h : s.fileLen.toNat < 44) :
    wavrdEnd s image = raise .malformedContainer s.fileLen (some .samp) s := if_pos h

variable (h44 : 44 ≤ s.fileLen.toNat)
include h44

theorem wavrdEnd_of_size_not_positive (h : memRead image 40 4 = 0 ∨ 2 ^ 31 ≤ memRead image 40 4) :
    wavrdEnd s image = raise .malformedContainer (BitVec.ofNat 32 (memRead image 40 4)) (some .samp) s := by
  have hsize := (toInt_ofNat_nonpos_iff (memRead_lt image 40 4)).mpr h
  rw [wavrdEnd, if_neg h44.not_gt, if_pos hsize]

variable (hpos : 0 < memRead image 40 4) (hlt : memRead image 40 4 < 2 ^ 31)
include hpos hlt

/-- Past the checks of the header, the capacity and then the payload are checked for the declared samples. -/
theorem wavrdEnd_of_size_positive :
    wavrdEnd s image =
      if s.caps.samples.val < memRead image 40 4 / 2 then
        raise .allocationError (BitVec.ofNat 32 (memRead image 40 4 / 2)) (some .samp) s
      else if s.fileLen.toNat < 44 + 2 * (memRead image 40 4 / 2) then
        raise .malformedContainer (BitVec.ofNat 32 (memRead image 40 4)) (some .samp) s
      else putSamples (payloadSamples (memRead image 40 4 / 2) (image.drop 44))
        { s with fs := BitVec.ofNat 32 (memRead image 24 4) } := by
  have hsize : ¬ (BitVec.ofNat 32 (memRead image 40 4)).toInt ≤ 0 := by
    rw [toInt_ofNat_nonpos_iff (memRead_lt image 40 4)]
    omega
  rw [wavrdEnd, if_neg h44.not_gt, if_neg hsize, toNat_ofNat_memRead, saturated_of_lt (by omega)]

theorem wavrdEnd_of_no_room (hc : s.caps.samples.val < memRead image 40 4 / 2) :
    wavrdEnd s image = raise .allocationError (BitVec.ofNat 32 (memRead image 40 4 / 2)) (some .samp) s := by
  rw [wavrdEnd_of_size_positive h44 hpos hlt, if_pos hc]

theorem wavrdEnd_of_short_payload (hc : memRead image 40 4 / 2 ≤ s.caps.samples.val)
    (h : s.fileLen.toNat < 44 + 2 * (memRead image 40 4 / 2)) :
    wavrdEnd s image = raise .malformedContainer (BitVec.ofNat 32 (memRead image 40 4)) (some .samp) s := by
  rw [wavrdEnd_of_size_positive h44 hpos hlt, if_neg hc.not_gt, if_pos h]

end

/-- Where WAVRD ends by fault entry from the state DONE was cleared in, that is the fault of R272. -/
theorem exec_wavrd_faulted {s : State} {image : List Byte} {k : ErrKind} {info : Word} (hs : s.status.halt = false)
    (hin : inputFile s = some image)
    (h : wavrdEnd (setDone false s) image = raise k info (some .samp) (setDone false s)) :
    ∃ t, exec .wavrd s = .next t ∧ Faulted s k info (some .samp) t :=
  ⟨_, (exec_wavrd_of_input hs hin).trans (congrArg _ h), faulted_raise _ _ _ s⟩

/-- Settles O23: the five checks of WAVRD in their order, each answered by fault entry (R272). -/
theorem wavrdFaults : Obligations.WavrdFaults := by
  intro s hs
  refine ⟨fun hready => ?_, fun hready hshort => ?_, fun hready h44 => ?_⟩
  · exact ⟨_, exec_wavrd_of_no_input hs ((inputFile_eq_none_iff s).mpr hready), faulted_raise _ _ _ s⟩
  · obtain ⟨image, hin, -⟩ := inputFile_of_ready hready
    exact exec_wavrd_faulted hs hin (wavrdEnd_of_short_header (s := setDone false s) hshort)
  · obtain ⟨image, hin, -⟩ := inputFile_of_ready hready
    refine ⟨_, fileField_eq_memRead hin h44, fun hsize => ?_, fun hpos hlt hc => ?_, fun hpos hlt hc hpayload => ?_⟩
    · exact exec_wavrd_faulted hs hin (wavrdEnd_of_size_not_positive (s := setDone false s) h44 hsize)
    · exact exec_wavrd_faulted hs hin (wavrdEnd_of_no_room (s := setDone false s) h44 hpos hlt hc)
    · exact exec_wavrd_faulted hs hin (wavrdEnd_of_short_payload (s := setDone false s) h44 hpos hlt hc hpayload)

/-! ## The completion of WAVRD (R185, R186) -/

/-- A sample of the payload is the pattern of its two bytes in the image (R186). -/
theorem payloadSamples_image_getElem? {image : List Byte} {n k : Nat} {lo hi : Byte} (hk : k < n)
    (hlo : image[44 + 2 * k]? = some lo) (hhi : image[45 + 2 * k]? = some hi) :
    (payloadSamples n (image.drop 44))[k]? = some (BitVec.ofNat 16 (lo.toNat + 256 * hi.toNat)) := by
  rw [show 45 + 2 * k = 44 + (2 * k + 1) by omega] at hhi
  rw [← List.getElem?_drop] at hlo hhi
  rw [payloadSamples_getElem? n k _ lo hi hk hlo hhi, ← append_toNat, BitVec.ofNat_toNat, BitVec.setWidth_eq]

/-- Settles O24: past its checks WAVRD completes with the rate at 24 and the declared samples of the payload. -/
theorem wavrdReadsTheContainer : Obligations.WavrdReadsTheContainer := by
  intro s rate raw hs hready hrate hraw hpos hlt hc hpayload
  obtain ⟨image, hin, hlen, hget⟩ := inputFile_of_ready hready
  obtain rfl : memRead image 24 4 = rate := Option.some.inj ((fileField_eq_memRead hin (by omega)).symm.trans hrate)
  obtain rfl : memRead image 40 4 = raw := Option.some.inj ((fileField_eq_memRead hin (by omega)).symm.trans hraw)
  have hcount : (payloadSamples (memRead image 40 4 / 2) (image.drop 44)).length = memRead image 40 4 / 2 :=
    payloadSamples_length _ _ (by rw [List.length_drop]; omega)
  refine ⟨_, exec_wavrd_eq hs hin (by omega) hpos hlt hc hpayload, ?_, ?_, fun n lo hi hn hlo hhi => ?_,
    fun k hk => ?_, rfl⟩
  · rw [putSamples_fs, toNat_ofNat_memRead]
  · rw [putSamples_sampLen, hcount, BitVec.toNat_ofNat]
    exact Nat.mod_eq_of_lt (by omega)
  · rw [putSamples_sampBuf, bufGet_bufOfList]
    exact payloadSamples_image_getElem? hn ((hget _ (by omega)).trans hlo) ((hget _ (by omega)).trans hhi)
  · rw [putSamples_sampBuf, bufGet_bufOfList]
    exact List.getElem?_eq_none (hcount.trans_le hk)

end Sys2Proof.Machine
end

section
/-! DEMOD by itself (45_demodulator.md): its faults in their order (R201 to R203), and what it decides, by the real cosine (R200,
R204). -/

namespace Sys2Proof.Machine

/-! ## The faults of DEMOD (R201 to R203) -/

theorem exec_demod_of_no_input {s : State} (hs : s.status.halt = false) (hin : inputSamples s = none) :
    exec .demod s = .next (raise .ioError (bufIndex .samp) (some .bit) (setDone false s)) := by
  simp [exec, execDemod, issue_running _ hs, hin]

theorem exec_demod_of_no_period {s : State} {samples : List Sample} (hs : s.status.halt = false)
    (hin : inputSamples s = some samples) (hp : symbolPeriod s = none) :
    exec .demod s = .next (raise .invalidParameter s.baud (some .bit) (setDone false s)) := by
  simp [exec, execDemod, issue_running _ hs, hin, hp]

theorem exec_demod_of_no_room {s : State} {samples : List Sample} (hs : s.status.halt = false)
    (hin : inputSamples s = some samples) (hp : ParametersOk s) (hc : s.caps.bits.val < s.sampLen.toNat / period s) :
    exec .demod s = .next
      (raise .allocationError (saturated (s.sampLen.toNat / period s)) (some .bit) (setDone false s)) := by
  simp [exec, execDemod, issue_running _ hs, hin, (symbolPeriod_eq_some_iff s _).mpr ⟨hp, rfl⟩, hc]

/-- There are no more windows than samples, so their number is a register's value. -/
theorem windowCount_lt (s : State) : s.sampLen.toNat / period s < 2 ^ 32 :=
  (Nat.div_le_self _ _).trans_lt s.sampLen.isLt

/-- Settles O28: the three checks of DEMOD in their order, each answered by fault entry (R272). -/
theorem demodFaults : Obligations.DemodFaults := by
  intro s hs
  refine ⟨fun hready => ?_, fun hready hbad => ?_, fun hready hp hc => ?_⟩
  · exact ⟨_, exec_demod_of_no_input hs ((inputSamples_eq_none_iff s).mpr hready), faulted_raise _ _ _ s⟩
  · obtain ⟨samples, hin, -⟩ := inputSamples_of_ready hready
    exact ⟨_, exec_demod_of_no_period hs hin ((symbolPeriod_eq_none_iff s).mpr hbad), faulted_raise _ _ _ s⟩
  · obtain ⟨samples, hin, -⟩ := inputSamples_of_ready hready
    rw [← saturated_of_lt (windowCount_lt s)]
    exact ⟨_, exec_demod_of_no_room hs hin hp hc, faulted_raise _ _ _ s⟩

/-! ## The completion of DEMOD (R200, R204) -/

/-- A window that ends within the samples is whole. -/
theorem window_length {samples : List Sample} {ns k : Nat} (h : (k + 1) * ns ≤ samples.length) :
    ((samples.drop (k * ns)).take ns).length = ns := by
  rw [Nat.add_one_mul] at h
  rw [List.length_take, List.length_drop]
  omega

/-- The sum DEMOD decides window `k` by, over the samples of SAMPBUF and the real cosine (R129, R130). -/
theorem windowSum_eq_sum_sampleValue {s : State} {samples : List Sample} (hin : inputSamples s = some samples) {k : Nat}
    (hk : k < s.sampLen.toNat / period s) :
    Num.ideal.windowSum s.fs.toNat s.f0.toNat (k * period s) ((samples.drop (k * period s)).take (period s)) =
      ∑ j ∈ Finset.range (period s), (sampleValue s (k * period s + j) : ℝ) *
        Real.cos (2 * Real.pi * s.f0.toNat * (k * period s + j : ℕ) / s.fs.toNat) := by
  obtain ⟨hlen, hget⟩ := inputSamples_spec hin
  have hwindow := window_length (hlen ▸ Nat.mul_le_of_le_div _ _ _ hk)
  rw [windowSum_eq_sum _ _ _ _ (fun j => (sampleValue s (k * period s + j) : ℝ)), hwindow]
  intro j v hv
  have hj : j < period s := hwindow ▸ (List.getElem?_eq_some_iff.mp hv).1
  rw [List.getElem?_take_of_lt hj, List.getElem?_drop] at hv
  rw [hget _ (hlen ▸ (List.getElem?_eq_some_iff.mp hv).1)] at hv
  rw [sampleValue_of_bufGet hv]

/-- Settles O29: past its checks DEMOD completes with one decision per window, by the sign of the window's real sum. -/
theorem demodDecidesEachWindow : Obligations.DemodDecidesEachWindow := by
  intro s hs hready hp hc
  obtain ⟨samples, hin, -⟩ := inputSamples_of_ready hready
  refine ⟨_, exec_demod_eq hs hin hp hc, ?_, ?_, fun k hk => ?_, fun k hk => ?_, rfl⟩
  · rw [putBits_bitLen, demodulatedBits_length, BitVec.toNat_ofNat, Nat.mod_eq_of_lt (windowCount_lt s)]
  · rw [putBits_ns, BitVec.toNat_ofNat, Nat.mod_eq_of_lt (period_lt s)]
  · rw [putBits_bitBuf, bufGet_bufOfList, demodulatedBits_getElem? _ _ _ _ _ _ _ hk, zero_add,
      ← windowSum_eq_sum_sampleValue hin hk, Option.some.injEq, Option.some.injEq, decideWindow_eq_one_iff hp.pos.1,
      decideWindow_eq_zero_iff hp.pos.1, and_self, and_self]
    exact lt_or_ge _ _
  · rw [putBits_bitBuf, bufGet_bufOfList]
    exact List.getElem?_eq_none ((demodulatedBits_length _ _ _ _ _ _).trans_le hk)

end Sys2Proof.Machine
end

section
/-! What DEMOD receives of the bits MOD sent with the same parameters (45_demodulator.md R208, R209): a bit arrives as 1 exactly
if it was 1 and its window shows the carrier. -/

namespace Sys2Proof.Machine

/-! ## One window (R209 (i), (ii)) -/

/-- Some quantized carrier value in the window of bit `k` is not 0 (R209). -/
def CarrierShows (fs f0 ns k : Nat) : Prop :=
  ∃ j, j < ns ∧ Num.ideal.quantized fs f0 (k * ns + j) 1 ≠ 0

/-- The sum of a symbol's window is positive exactly if its bit is 1 and the window shows the carrier: each product has the
sign of the bit, or is 0 with its sample. -/
theorem windowSum_symbol_pos_iff {fs f0 ns k : Nat} {b : Bit} {window : List Sample} (hlen : window.length = ns)
    (h : ∀ j v, window[j]? = some v → v.toInt = Num.ideal.quantized fs f0 (k * ns + j) b) :
    0 < Num.ideal.windowSum fs f0 (k * ns) window ↔ b = 1 ∧ CarrierShows fs f0 ns k := by
  have hsum : Num.ideal.windowSum fs f0 (k * ns) window = (Num.amp b : ℝ) *
      ∑ j ∈ Finset.range ns, (Num.ideal.quantized fs f0 (k * ns + j) 1 : ℝ) * Num.ideal.carr fs f0 (k * ns + j) := by
    rw [windowSum_eq_sum fs f0 (k * ns) window (fun j => (Num.ideal.quantized fs f0 (k * ns + j) b : ℝ))
      fun j v hv => by rw [h j v hv], hlen, Finset.mul_sum]
    refine Finset.sum_congr rfl fun j _ => ?_
    rw [quantized_eq_amp_mul, Int.cast_mul, mul_assoc]
    rfl
  have hnonneg (j : Nat) (_ : j ∈ Finset.range ns) := (quantized_mul_carrier fs f0 (k * ns + j)).1
  rw [hsum]
  rcases bit_eq_zero_or_one b with rfl | rfl
  · refine iff_of_false (not_lt.mpr ?_) (by simp)
    rw [show Num.amp 0 = -1 from rfl, Int.cast_neg, Int.cast_one, neg_one_mul]
    exact neg_nonpos.mpr (Finset.sum_nonneg hnonneg)
  · rw [show Num.amp 1 = 1 from rfl, Int.cast_one, one_mul, Finset.sum_pos_iff_of_nonneg hnonneg]
    simp only [Finset.mem_range, (quantized_mul_carrier fs f0 _).2, CarrierShows, true_and]

/-! ## A bit sequence -/

/-- The samples are those MOD makes of the bits (R154). -/
structure Modulated (fs f0 ns : Nat) (bits : List Bit) (samples : List Sample) : Prop where
  length : samples.length = bits.length * ns
  sample : ∀ i j b, bits[i]? = some b → j < ns →
    ∃ v, samples[i * ns + j]? = some v ∧ v.toInt = Num.ideal.quantized fs f0 (i * ns + j) b

/-- The received bits are those sent, but that a 1 whose window does not show the carrier arrives as 0 (R209). -/
structure Received (fs f0 ns : Nat) (sent received : List Bit) : Prop where
  length : received.length = sent.length
  bit : ∀ k b, sent[k]? = some b → ∃ c, received[k]? = some c ∧ (c = 1 ↔ b = 1 ∧ CarrierShows fs f0 ns k)

/-- What the slicer makes of MOD's samples is received of MOD's bits. -/
theorem Modulated.received {fs f0 ns : Nat} (hfs : 0 < fs) {bits : List Bit} {samples : List Sample}
    (h : Modulated fs f0 ns bits samples) :
    Received fs f0 ns bits (demodulatedBits fs f0 ns bits.length 0 samples) where
  length := demodulatedBits_length _ _ _ _ _ _
  bit k b hb := by
    have hk : k < bits.length := (List.getElem?_eq_some_iff.mp hb).1
    refine ⟨_, demodulatedBits_getElem? _ _ _ _ _ _ _ hk, ?_⟩
    rw [zero_add, decideWindow_eq_one_iff hfs]
    have hwindow := window_length (h.length ▸ Nat.mul_le_mul_right ns hk)
    refine windowSum_symbol_pos_iff hwindow fun j v hv => ?_
    have hj : j < ns := hwindow ▸ (List.getElem?_eq_some_iff.mp hv).1
    rw [List.getElem?_take_of_lt hj, List.getElem?_drop] at hv
    obtain ⟨u, hu, hq⟩ := h.sample k j b hb hj
    cases hv.symm.trans hu
    exact hq

/-- Reception is free of errors exactly if the window of every 1 shows the carrier (R209 (iii)). -/
theorem Received.eq_sent_iff {fs f0 ns : Nat} {sent received : List Bit} (h : Received fs f0 ns sent received) :
    received = sent ↔ ∀ k, sent[k]? = some 1 → CarrierShows fs f0 ns k := by
  constructor
  · rintro rfl k hk
    obtain ⟨c, hc, hiff⟩ := h.bit k 1 hk
    cases hk.symm.trans hc
    exact (hiff.mp rfl).2
  · intro hshows
    refine List.ext_getElem? fun k => ?_
    cases hb : sent[k]? with
    | none => exact List.getElem?_eq_none (h.length.trans_le (List.getElem?_eq_none_iff.mp hb))
    | some b =>
      obtain ⟨c, hc, hiff⟩ := h.bit k b hb
      rw [hc, Option.some.injEq]
      rcases bit_eq_zero_or_one b with rfl | rfl
      · exact (bit_eq_zero_or_one c).resolve_right fun hc1 => absurd (hiff.mp hc1).1 (by decide)
      · exact hiff.mpr ⟨rfl, hshows k hb⟩

/-! ## MOD and then DEMOD (R208, R209) -/

/-- The block runs, and has the registers and capacities of `s` that MOD and DEMOD depend on: the parameters are the same
(R209). -/
structure SameParameters (s u : State) : Prop where
  running : u.status.halt = false
  fs : u.fs = s.fs
  baud : u.baud = s.baud
  f0 : u.f0 = s.f0
  caps : u.caps = s.caps

theorem SameParameters.trans {s u v : State} (h : SameParameters s u) (h' : SameParameters u v) : SameParameters s v :=
  ⟨h'.running, h'.fs.trans h.fs, h'.baud.trans h.baud, h'.f0.trans h.f0, h'.caps.trans h.caps⟩

theorem SameParameters.period {s u : State} (h : SameParameters s u) : Machine.period u = Machine.period s := by
  rw [Machine.period, Machine.period, h.fs, h.baud]

theorem SameParameters.parametersOk {s u : State} (h : SameParameters s u) (hp : ParametersOk s) : ParametersOk u := by
  rwa [ParametersOk, h.fs, h.baud]

section
variable {s : State} {bits : List Bit} (hp : ParametersOk s) (hroom : bits.length * period s ≤ s.caps.samples.val)
include hp hroom

/-- Past its checks MOD makes its samples of the bits. -/
theorem exec_mod_modulated (hs : s.status.halt = false) (hin : inputBits s = some bits) :
    ∃ samples u, exec .mod s = .next (putSamples samples u) ∧ SameParameters s u ∧
      Modulated s.fs.toNat s.f0.toNat (period s) bits samples := by
  have hlen := (inputBits_spec hin).1
  obtain ⟨samples, he, hl, -, hsample⟩ := exec_mod_eq hs hin hp (hlen ▸ hroom)
  exact ⟨samples, _, he, ⟨hs, rfl, rfl, rfl, rfl⟩, hlen ▸ hl, hsample⟩

/-- DEMOD receives the bits from their samples, wherever SAMPBUF holds these under the same parameters. -/
theorem exec_demod_received {u : State} {samples : List Sample} (hu : SameParameters s u)
    (hm : Modulated s.fs.toNat s.f0.toNat (period s) bits samples) (hbits : bits.length ≤ s.caps.bits.val) :
    ∃ received v, exec .demod (putSamples samples u) = .next (putBits received v) ∧ SameParameters s v ∧
      Received s.fs.toNat s.f0.toNat (period s) bits received := by
  have hput : SameParameters s (putSamples samples u) := ⟨hu.running, hu.fs, hu.baud, hu.f0, hu.caps⟩
  have hin := inputSamples_putSamples samples u ((hm.length.trans_le hroom).trans_lt (capacity_lt s.caps .samp))
  have hcount : (putSamples samples u).sampLen.toNat / period s = bits.length := by
    rw [← (inputSamples_spec hin).1, hm.length, Nat.mul_div_cancel _ hp.pos.2]
  have he := exec_demod_eq hput.running hin (hput.parametersOk hp) (by rwa [hput.period, hcount, hput.caps])
  rw [hput.period, hcount, hput.fs, hput.f0] at he
  exact ⟨_, _, he, ⟨hu.running, hu.fs, hu.baud, hu.f0, hu.caps⟩, hm.received hp.pos.1⟩

end

/-- Settles O31: DEMOD receives the bits from the samples MOD made of them. -/
theorem modemRoundTrip : Obligations.ModemRoundTrip := by
  intro s hs hready hp hroom hbits
  obtain ⟨bits, hin, hlen, hget⟩ := inputBits_of_ready hready
  rw [← hlen] at hroom hbits
  obtain ⟨samples, u, hmod, hu, hm⟩ := exec_mod_modulated hp hroom hs hin
  obtain ⟨received, v, hdemod, -, hrec⟩ := exec_demod_received hp hroom hu hm hbits
  refine ⟨_, issueUntilFault_pair hmod hu.running hdemod, rfl, ?_, fun k hk => ?_⟩
  · rw [putBits_bitLen, hrec.length, hlen, BitVec.ofNat_toNat, BitVec.setWidth_eq]
  · obtain ⟨b, hb⟩ : ∃ b, bits[k]? = some b := ⟨_, List.getElem?_eq_getElem (hlen ▸ hk)⟩
    obtain ⟨c, hc, hiff⟩ := hrec.bit k b hb
    rw [putBits_bitBuf, bufGet_bufOfList, hc, ← hget k hk, hb]
    simp only [Option.some.injEq]
    exact ⟨(bit_eq_zero_or_one c).symm, hiff⟩

end Sys2Proof.Machine
end

section
/-! The byte round trips (45_demodulator.md R209 (iii), R210): MODULATE and then DEMODULATE, and ENCODE and then DECODE through the
container (43_container_writer.md R177). -/

namespace Sys2Proof.Machine

/-! ## Bytes and their bits -/

/-- Bit `8i + j` of a byte sequence is 1 exactly if byte `i` has the bit of weight `2^(7-j)` (R143). -/
theorem bitsOfBytes_getElem?_eq_one_iff {bytes : List Byte} {i j : Nat} {b : Byte} (hb : bytes[i]? = some b)
    (hj : j < 8) : (bitsOfBytes bytes)[8 * i + j]? = some 1 ↔ b.toNat / 2 ^ (7 - j) % 2 = 1 := by
  rw [bitsOfBytes_getElem? bytes i j b hb hj, Option.some.injEq]
  rcases Nat.mod_two_eq_zero_or_one (b.toNat / 2 ^ (7 - j)) with h | h <;> simp [h]

/-- Packing eight bits a byte gives the bytes exactly if the bits are theirs. -/
theorem packBits_eq_iff {bits : List Bit} {bytes : List Byte} (h : bits.length = 8 * bytes.length) :
    packBits bytes.length bits = bytes ↔ bits = bitsOfBytes bytes := by
  constructor
  · intro hpack
    rw [← hpack]
    refine List.ext_getElem? fun k => ?_
    by_cases hk : k < 8 * bytes.length
    · rw [bitsOfBytes_packBits_getElem? bits hk, List.getElem?_eq_getElem (h ▸ hk), Option.getD_some]
    · have hlen : (bitsOfBytes (packBits bytes.length bits)).length = 8 * bytes.length := by
        rw [bitsOfBytes_length, packBits_length]
      rw [List.getElem?_eq_none (h.trans_le (not_lt.mp hk)), List.getElem?_eq_none (hlen.trans_le (not_lt.mp hk))]
  · rintro rfl
    exact packBits_bitsOfBytes bytes

/-! ## What comes back (R209 (iii)) -/

/-- Every bit of BYTEBUF that is 1 has a window that shows the carrier (R209). -/
def EveryOneShows (s : State) : Prop :=
  ∀ i j b, i < s.byteLen.toNat → j < 8 → bufGet s.byteBuf i = some b → b.toNat / 2 ^ (7 - j) % 2 = 1 →
    CarrierShows s.fs.toNat s.f0.toNat (period s) (8 * i + j)

/-- `t` completes the way back of the bytes of `s`: as many bytes as there were, and the same bytes exactly if each bit that
is 1 has a window that shows the carrier. -/
structure BytesArrive (s t : State) : Prop where
  done : t.status.done = true
  byteLen : t.byteLen = s.byteLen
  bytes : (∀ i, i < s.byteLen.toNat → bufGet t.byteBuf i = bufGet s.byteBuf i) ↔ EveryOneShows s

section
variable {s : State} {bytes : List Byte} (hin : inputBytes s = some bytes)
include hin

theorem everyOneShows_iff : EveryOneShows s ↔
    ∀ k, (bitsOfBytes bytes)[k]? = some 1 → CarrierShows s.fs.toNat s.f0.toNat (period s) k := by
  obtain ⟨hlen, hget⟩ := inputBytes_spec hin
  constructor
  · intro h k hk
    have hk8 : k < 8 * bytes.length := bitsOfBytes_length bytes ▸ (List.getElem?_eq_some_iff.mp hk).1
    have hi : k / 8 < bytes.length := by omega
    have hj : k % 8 < 8 := Nat.mod_lt k (by decide)
    have hb := List.getElem?_eq_getElem hi
    rw [← Nat.div_add_mod k 8] at hk ⊢
    exact h _ _ _ (hlen ▸ hi) hj ((hget _ (hlen ▸ hi)).symm.trans hb) ((bitsOfBytes_getElem?_eq_one_iff hb hj).mp hk)
  · intro h i j b hi hj hb hone
    exact h _ ((bitsOfBytes_getElem?_eq_one_iff ((hget i hi).trans hb) hj).mpr hone)

/-- The bytes packed from the received bits are those sent exactly if each bit that is 1 has a window that shows the
carrier. -/
theorem packed_received_iff {received : List Bit}
    (hrec : Received s.fs.toNat s.f0.toNat (period s) (bitsOfBytes bytes) received) :
    (∀ i, i < s.byteLen.toNat → (packBits bytes.length received)[i]? = bufGet s.byteBuf i) ↔ EveryOneShows s := by
  obtain ⟨hlen, hget⟩ := inputBytes_spec hin
  calc (∀ i, i < s.byteLen.toNat → (packBits bytes.length received)[i]? = bufGet s.byteBuf i)
      ↔ packBits bytes.length received = bytes := by
        constructor
        · intro h
          refine List.ext_getElem (packBits_length _ _) fun i hi hi' => ?_
          have := (h i (hlen ▸ hi')).trans (hget i (hlen ▸ hi')).symm
          rwa [List.getElem?_eq_getElem hi, List.getElem?_eq_getElem hi', Option.some.injEq] at this
        · rintro h i hi
          rw [h, hget i hi]
    _ ↔ received = bitsOfBytes bytes := packBits_eq_iff (hrec.length.trans (bitsOfBytes_length bytes))
    _ ↔ ∀ k, (bitsOfBytes bytes)[k]? = some 1 → CarrierShows s.fs.toNat s.f0.toNat (period s) k := hrec.eq_sent_iff
    _ ↔ EveryOneShows s := (everyOneShows_iff hin).symm

/-! ## There and back (R238, R239) -/

variable (hp : ParametersOk s) (hbits : 8 * s.byteLen.toNat ≤ s.caps.bits.val)
  (hroom : 8 * s.byteLen.toNat * period s ≤ s.caps.samples.val)
include hp hbits hroom

/-- BITX and MOD leave the samples of the bytes' bits to the commands after them. -/
theorem issueUntilFault_bitx_mod (hs : s.status.halt = false) (is : List Instr) :
    ∃ samples u, issueUntilFault (.bitx :: .mod :: is) s = issueUntilFault is (putSamples samples u) ∧
      SameParameters s u ∧ Modulated s.fs.toNat s.f0.toNat (period s) (bitsOfBytes bytes) samples := by
  have hlen : (bitsOfBytes bytes).length = 8 * s.byteLen.toNat := by rw [bitsOfBytes_length, (inputBytes_spec hin).1]
  have hput : SameParameters s (putBits (bitsOfBytes bytes) (setDone false s)) := ⟨hs, rfl, rfl, rfl, rfl⟩
  have hin' := inputBits_putBits (bitsOfBytes bytes) (setDone false s)
    ((hlen.trans_le hbits).trans_lt (capacity_lt s.caps .bit))
  obtain ⟨samples, u, hmod, hu, hm⟩ :=
    exec_mod_modulated (hput.parametersOk hp) (hlen ▸ hroom) hput.running hin'
  refine ⟨samples, u, ?_, hput.trans hu, hm⟩
  rw [issueUntilFault_cons (exec_bitx_eq hs hin hbits) hput.running, issueUntilFault_cons hmod hu.running]

/-- DEMOD and PACK bring the bytes back from the samples of their bits, wherever SAMPBUF holds these under the same
parameters. -/
theorem issueUntilFault_demod_pack (hbytes : s.byteLen.toNat ≤ s.caps.bytes.val) {u : State} {samples : List Sample}
    (hu : SameParameters s u) (hm : Modulated s.fs.toNat s.f0.toNat (period s) (bitsOfBytes bytes) samples) :
    ∃ t, issueUntilFault [.demod, .pack] (putSamples samples u) = .next t ∧ BytesArrive s t ∧ t.fs = s.fs := by
  have hlen := (inputBytes_spec hin).1
  rw [← hlen, ← bitsOfBytes_length] at hbits hroom
  obtain ⟨received, v, hdemod, hv, hrec⟩ := exec_demod_received hp hroom hu hm hbits
  have hceil : ceil8 received.length = bytes.length := by rw [hrec.length, bitsOfBytes_length, ceil8_eight_mul]
  have hpack := exec_pack_putBits hv.running
    ((hrec.length.trans_le hbits).trans_lt (capacity_lt s.caps .bit)) (by rwa [hceil, hlen, hv.caps])
  rw [hceil] at hpack
  refine ⟨_, issueUntilFault_pair hdemod hv.running hpack, ⟨rfl, ?_, ?_⟩, hv.fs⟩
  · rw [putBytes_byteLen, packBits_length, hlen, BitVec.ofNat_toNat, BitVec.setWidth_eq]
  · simpa only [putBytes_byteBuf, bufGet_bufOfList] using packed_received_iff hin hrec

end

/-- Settles O43: DEMOD and PACK bring back the bytes whose samples BITX and MOD left. -/
theorem byteRoundTrip : Obligations.ByteRoundTrip := by
  intro s hs hready hp hbytes hbits hroom
  obtain ⟨bytes, hin, -⟩ := inputBytes_of_ready hready
  obtain ⟨samples, u, hsend, hu, hm⟩ := issueUntilFault_bitx_mod hin hp hbits hroom hs [.demod, .pack]
  obtain ⟨t, hreceive, ht, -⟩ := issueUntilFault_demod_pack hin hp hbits hroom hbytes hu hm
  exact ⟨t, hsend.trans hreceive, ht.done, ht.byteLen, ht.bytes⟩

/-! ## Through the container (R177, R240, R241) -/

/-- WAVWR and WAVRD leave the samples, and the parameters, to the commands after them. -/
theorem issueUntilFault_wavwr_wavrd {s : State} {samples : List Sample} (hs : s.status.halt = false)
    (hpos : 0 < samples.length) (hc : samples.length ≤ s.caps.samples.val)
    (hfile : 44 + 2 * samples.length ≤ s.caps.file.val) (is : List Instr) :
    ∃ u, issueUntilFault (.wavwr :: .wavrd :: is) (putSamples samples s) = issueUntilFault is (putSamples samples u) ∧
      SameParameters s u := by
  have hin := inputSamples_putSamples samples s (hc.trans_lt (capacity_lt s.caps .samp))
  have hwrite := exec_wavwr_containerOf (s := putSamples samples s) hs hin ((inputSamples_spec hin).1 ▸ hfile)
  have hread := exec_wavrd_containerOf (fs := s.fs) (s := setDone false (putSamples samples s)) hs hpos hc
    (by rw [containerOf_length]; exact hfile.trans_lt s.caps.file.isLt)
  exact ⟨_, (issueUntilFault_cons hwrite hs).trans (issueUntilFault_cons hread hs), ⟨hs, rfl, rfl, rfl, rfl⟩⟩

/-- Settles O44: the samples that BITX and MOD left come through the container, and DEMOD and PACK bring back the bytes. -/
theorem containerRoundTrip : Obligations.ContainerRoundTrip := by
  intro s hs hready hp hbytes hbits hroom hfile hone
  obtain ⟨bytes, hin, hlen, -⟩ := inputBytes_of_ready hready
  obtain ⟨samples, u, hsend, hu, hm⟩ :=
    issueUntilFault_bitx_mod hin hp hbits hroom hs [.wavwr, .wavrd, .demod, .pack]
  have hcount : samples.length = 8 * s.byteLen.toNat * period s := by rw [hm.length, bitsOfBytes_length, hlen]
  have hpos : 0 < samples.length := hcount ▸ Nat.mul_pos (by omega) hp.pos.2
  have himage : 44 + 2 * samples.length ≤ s.caps.file.val := by
    rwa [hcount, Nat.mul_assoc 8, ← Nat.mul_assoc 2, ← Nat.mul_assoc]
  obtain ⟨v, hcarry, hv⟩ := issueUntilFault_wavwr_wavrd hu.running hpos (hu.caps ▸ hcount.trans_le hroom)
    (hu.caps ▸ himage) [.demod, .pack]
  obtain ⟨t, hreceive, ht, hfs⟩ := issueUntilFault_demod_pack hin hp hbits hroom hbytes (hu.trans hv) hm
  exact ⟨t, (hsend.trans hcarry).trans hreceive, ht.done, ht.byteLen, hfs, ht.bytes⟩

end Sys2Proof.Machine
end

section
/-! PACK by itself (46_bit_packer.md): its faults in their order (R221), and the bytes it writes (R222, R223). -/

namespace Sys2Proof.Machine

/-! ## The faults of PACK (R221) -/

theorem exec_pack_of_no_input {s : State} (hs : s.status.halt = false) (hin : inputBits s = none) :
    exec .pack s = .next (raise .ioError (bufIndex .bit) (some .byte) (setDone false s)) := by
  simp [exec, execPack, issue_running _ hs, hin]

theorem exec_pack_of_no_room {s : State} {bits : List Bit} (hs : s.status.halt = false)
    (hin : inputBits s = some bits) (hc : s.caps.bytes.val < ceil8 s.bitLen.toNat) :
    exec .pack s
      = .next (raise .allocationError (saturated (ceil8 s.bitLen.toNat)) (some .byte) (setDone false s)) := by
  simp [exec, execPack, issue_running _ hs, hin, hc]

/-- There are no more bytes than bits, so their number is a register's value. -/
theorem ceil8_bitLen_lt (s : State) : ceil8 s.bitLen.toNat < 2 ^ 32 := by
  have hlt := s.bitLen.isLt
  unfold ceil8
  omega

/-- Settles O35: the two checks of PACK in their order, each answered by fault entry (R272). -/
theorem packFaults : Obligations.PackFaults := by
  intro s hs
  refine ⟨fun hready => ?_, fun hready hc => ?_⟩
  · exact ⟨_, exec_pack_of_no_input hs ((inputBits_eq_none_iff s).mpr hready), faulted_raise _ _ _ s⟩
  · obtain ⟨bits, hin, -⟩ := inputBits_of_ready hready
    have hpack := exec_pack_of_no_room hs hin hc
    rw [saturated_of_lt (ceil8_bitLen_lt s)] at hpack
    exact ⟨_, hpack, faulted_raise _ _ _ s⟩

/-! ## The completion of PACK (R222, R223) -/

/-- Byte `m` of the packed bits, as the sum R222 gives over the whole bit sequence. -/
theorem packedByte_toNat_eq_sum (bits : List Bit) (m : Nat) :
    (BitVec.ofNat 8 (packedValue 0 ((bits.drop (8 * m)).take 8))).toNat =
      ∑ j ∈ Finset.range 8, if bits[8 * m + j]? = some 1 then 2 ^ (7 - j) else 0 := by
  have hlen : ((bits.drop (8 * m)).take 8).length ≤ 8 := List.length_take_le ..
  rw [BitVec.toNat_ofNat, Nat.mod_eq_of_lt (packedValue_lt _ hlen), packedValue_eq_sum 0 _ (by omega)]
  refine Finset.sum_congr rfl fun j hj => ?_
  rw [List.getElem?_take_of_lt (Finset.mem_range.mp hj), List.getElem?_drop, Nat.zero_add]

/-- Settles O36: past its checks PACK completes with the packed bits, whose bytes are the sums of R222. -/
theorem packPacksBits : Obligations.PackPacksBits := by
  intro s hs hready hc
  obtain ⟨bits, hin, -⟩ := inputBits_of_ready hready
  have hlen : (packBits (ceil8 s.bitLen.toNat) bits).length = ceil8 s.bitLen.toNat := packBits_length _ _
  refine ⟨_, exec_pack_eq hs hin hc, ?_, fun m hm => ?_, fun k hk => ?_, rfl⟩
  · rw [putBytes_byteLen, hlen, BitVec.toNat_ofNat, Nat.mod_eq_of_lt (ceil8_bitLen_lt s), ceil8]
  · rw [putBytes_byteBuf, bufGet_bufOfList]
    refine ⟨_, packBits_getElem? _ m bits hm, ?_⟩
    simp only [packedByte_toNat_eq_sum, inputBits_getElem?_eq_some_iff hin]
  · rw [putBytes_byteBuf, bufGet_bufOfList]
    exact List.getElem?_eq_none (hlen.trans_le hk)

end Sys2Proof.Machine
end

section
/-! A write to CMD (47_control_commands.md R230 to R232, R235; 60_exceptions.md R264, R266): it is ignored while HALT is 1, and
otherwise ends in the fault or the completion of a command, or in the fault of a word that is none. -/

namespace Sys2Proof.Machine

/-! ## The word written (R22, R232) -/

theorem hostWrite_cmd (w : Word) (s : State) : hostWrite 0x00 w s = issueWord w s := if_pos rfl

theorem issueWord_of_illegal {w : Word} (hw : ∀ i, decode w ≠ .ok i) (s : State) : issueWord w s = illegalCommand w s := by
  unfold issueWord
  split
  · next i hi => exact absurd hi (hw i)
  · rfl

theorem opcode_toNat_lt (i : Instr) : (opcode i).toNat < 7 := by cases i <;> decide

/-- R93: a word with a bit of 31:4 set, or with an opcode of 7 or more, encodes no command. -/
theorem decode_ne_ok_of_illegal {w : Word} (hw : zeroField w ≠ 0 ∨ 7 ≤ (opField w).toNat) (i : Instr) :
    decode w ≠ .ok i := by
  rw [ne_eq, decode_eq_ok_iff, decodeOp_eq_some_iff]
  rintro ⟨hzero, hop⟩
  rcases hw with h | h
  · exact h hzero
  · exact absurd (opcode_toNat_lt i) (not_lt.mpr (hop ▸ h))

/-! ## The three ends of the write (R230, R231) -/

theorem illegalCommand_running {s : State} (hs : s.status.halt = false) (w : Word) :
    illegalCommand w s = .next (raise .illegalCommand w none (setDone false s)) := issue_running _ hs

/-- Settles O6: a command and a word that is none alike are issued only past the look at HALT. -/
theorem haltedBlockIgnoresCommands : Obligations.HaltedBlockIgnoresCommands := by
  intro s w hs
  rw [hostWrite_cmd, issueWord]
  split
  · exact exec_halted _ hs
  · exact issue_halted _ hs

/-- While HALT is 0 the write faults, or completes a command. -/
theorem hostWrite_cmd_ends {s : State} (hs : s.status.halt = false) (w : Word) :
    (∃ k info out, hostWrite 0x00 w s = .next (raise k info out (setDone false s))) ∨
      ∃ i t, hostWrite 0x00 w s = .next t ∧ Completed (setDone false s) i t := by
  rw [hostWrite_cmd, issueWord]
  split
  · next i _ =>
    rcases exec_ends i s hs with ⟨k, info, -, he⟩ | ⟨t, he, hc⟩
    · exact .inl ⟨k, info, outputOf i, he⟩
    · exact .inr ⟨i, t, he, hc⟩
  · exact .inl ⟨_, _, _, illegalCommand_running hs w⟩

/-- Settles O7: the write is ignored, faults, or completes a command; fault entry leaves HALT and clears DONE, and completion
sets DONE and leaves HALT as it was. -/
theorem commandStepIsTotal : Obligations.CommandStepIsTotal := by
  intro s w
  cases hs : s.status.halt with
  | true => exact ⟨s, haltedBlockIgnoresCommands s w hs, by simp⟩
  | false =>
    simp only [Bool.false_eq_true, if_false]
    rcases hostWrite_cmd_ends hs w with ⟨k, info, out, he⟩ | ⟨i, t, he, hc⟩
    · exact ⟨_, he, .inr (by simp [faultStatus])⟩
    · exact ⟨t, he, .inl (by simp [hc.status_eq.1, hs])⟩

/-- Settles O4: the word encodes no command, and its fault is fault entry without an output buffer (R272). -/
theorem illegalWordRaisesIllegalCommand : Obligations.IllegalWordRaisesIllegalCommand := by
  intro s w hs hw
  refine ⟨_, ?_, faulted_raise .illegalCommand w none s⟩
  rw [hostWrite_cmd, issueWord_of_illegal (decode_ne_ok_of_illegal hw), illegalCommand_running hs]

/-! ## The faults of each command (R266) -/

/-- Settles O9: a command that was not ignored halts the block only by fault entry, with a kind of its own list. -/
theorem commandsRaiseOnlyTheirFaults : Obligations.CommandsRaiseOnlyTheirFaults := by
  intro i s t hs h ht
  rcases exec_next_cases h with ⟨hh, -⟩ | ⟨-, k, info, hk, rfl⟩ | ⟨-, hc⟩
  · exact absurd (hs.symm.trans hh) nofun
  · rw [raise_status]
    cases i <;> exact hk
  · rw [hc.status_eq.1] at ht
    exact absurd (hs.symm.trans ht) nofun

/-! ## NOP (R235) -/

theorem exec_nop_eq {s : State} (hs : s.status.halt = false) : exec .nop s = .next (setDone true s) := by
  rw [exec, execNop, issue_running _ hs]
  rfl

/-- Settles O13: NOP has no check, so DONE is all it writes. -/
theorem nopSetsDone : Obligations.NopSetsDone := fun _ => ⟨exec_nop_eq, exec_halted .nop⟩

end Sys2Proof.Machine
end

section
/-! One action of the host (10_state.md R22, R35; 60_exceptions.md R273, R274, R280; 70_reset_and_hazards.md R300, R305): what it can
answer, what it leaves of the fault record, and where it stops. -/

namespace Sys2Proof.Machine

/-! ## What an action can answer -/

/-- Inversion: an action that answers a next state is a reset, a read, or a write. -/
theorem hostAct_next_cases {a : HostAction} {s t : State} (h : hostAct a s = .next t) :
    (a = .rst ∧ t = resetBlock s) ∨ (∃ off, a = .read off ∧ t = hostRead off s) ∨
      ∃ off w, a = .write off w ∧ hostWrite off w s = .next t := by
  cases a with
  | rst => cases h; exact .inl ⟨rfl, rfl⟩
  | otherWidth off bits => cases h
  | read off =>
    simp only [hostAct] at h
    split at h
    · cases h
    split at h
    · cases h
    · cases h
      exact .inr (.inl ⟨off, rfl, rfl⟩)
  | write off w =>
    simp only [hostAct] at h
    split at h
    · cases h
    split at h
    · cases h
    · exact .inr (.inr ⟨off, w, rfl, h⟩)

/-! ## The fault record (R273, R274) -/

/-- `t` has the STATUS and the ERR_INFO of `s`. -/
def SameFaultRecord (s t : State) : Prop := t.status = s.status ∧ t.errInfo = s.errInfo

theorem sameFaultRecord_hostRead (off : Nat) (s : State) : SameFaultRecord s (hostRead off s) := by
  unfold hostRead
  repeat' split
  all_goals exact ⟨rfl, rfl⟩

/-- STATUS and ERR_INFO are read-only (R21). -/
theorem sameFaultRecord_writeRegister (off : Nat) (w : Word) (s : State) : SameFaultRecord s (writeRegister off w s) := by
  unfold writeRegister
  split
  -- the four length registers, then BUF_DATA
  case h_4 | h_5 | h_6 | h_7 => split <;> exact ⟨rfl, rfl⟩
  case h_11 => exact ⟨portWrite_status w s, portWrite_errInfo w s⟩
  all_goals exact ⟨rfl, rfl⟩

/-- Settles O8: a read and a register write keep the record whether the block is halted or not, and a halted block ignores
commands. -/
theorem faultRecordIsSticky : Obligations.FaultRecordIsSticky := by
  intro s t a hs ha h
  rcases hostAct_next_cases h with ⟨hrst, -⟩ | ⟨off, -, rfl⟩ | ⟨off, w, -, hw⟩
  · exact absurd hrst ha
  · exact sameFaultRecord_hostRead off s
  · by_cases hcmd : off = 0x00
    · subst hcmd
      cases (haltedBlockIgnoresCommands s w hs).symm.trans hw
      exact ⟨rfl, rfl⟩
    · cases (if_neg hcmd).symm.trans hw
      exact sameFaultRecord_writeRegister off w s

/-! ## Where no action stops (R64, R230, R305) -/

/-- The action is within the interface: a reset, or a 32-bit access at a multiple of 4 (R64). -/
def WithinInterface : HostAction → Prop
  | .write off _ => off % 4 = 0
  | .read off => off % 4 = 0
  | .otherWidth _ _ => False
  | .rst => True

section
variable {run : Instr → State → Result} (hrun : ∀ i s, ∃ t, run i s = .next t)
include hrun

theorem hostWrite_next (off : Nat) (w : Word) (s : State) : ∃ t, hostWrite off w s run = .next t := by
  unfold hostWrite issueWord illegalCommand issue
  split
  · split
    · exact hrun _ s
    · split <;> exact ⟨_, rfl⟩
  · exact ⟨_, rfl⟩

/-- An action within the interface ends while BUSY is 0, whatever the commands mean as long as they end. -/
theorem hostAct_next {a : HostAction} {s : State} (ha : WithinInterface a) (hb : s.status.busy = false) :
    ∃ t, hostAct a s run = .next t := by
  cases a with
  | rst => exact ⟨_, rfl⟩
  | otherWidth off bits => exact ha.elim
  | read off => exact ⟨hostRead off s, by simp [hostAct, show off % 4 = 0 from ha, hb]⟩
  | write off w => simpa [hostAct, show off % 4 = 0 from ha, hb] using hostWrite_next hrun off w s

theorem takeAction_next {s : State} (ha : ∀ a ∈ s.queue.head?, WithinInterface a) (hb : s.status.busy = false) :
    ∃ t, takeAction s run = .next t := by
  unfold takeAction
  split
  · exact ⟨s, rfl⟩
  · next a rest hq => exact hostAct_next hrun (ha a (by rw [hq]; rfl)) hb

end

theorem exec_next (i : Instr) (s : State) : ∃ t, exec i s = .next t :=
  execWith_ideal ▸ execWith_next_of_admissible idealNumericsAreAdmissible i s

/-- Settles O60: the invariant has BUSY = 0, and every command ends under the ideal record and under any admissible one. -/
theorem stepStopsOnlyOutsideTheInterface : Obligations.StepStopsOnlyOutsideTheInterface := by
  intro s hs (ha : ∀ a ∈ s.queue.head?, WithinInterface a)
  exact ⟨takeAction_next exec_next ha hs.notBusy,
    fun N hN => takeAction_next (execWith_next_of_admissible hN) ha hs.notBusy⟩

/-! ## A block that is idle, busy, or reset (R280, R300, R305) -/

/-- Settles O57: a step takes an action of the host, and there is none. -/
theorem idleBlockHoldsItsState : Obligations.IdleBlockHoldsItsState := by
  intro s hs
  rw [step, takeAction, hs]

/-- Settles O52: past the check of the offset BUSY is looked at before anything else, but in a read of STATUS. -/
theorem busyBlockRefusesAccesses : Obligations.BusyBlockRefusesAccesses := by
  intro s off w hb ho
  refine ⟨?_, fun hstatus => ?_, ?_⟩
  · simp [hostAct, ho, hb]
  · simp [hostAct, ho, hb, hstatus]
  · simp [hostAct, hostRead_register, registerWord, recordRead]

/-- Settles O56: rst is taken in every state, and is resetBlock. -/
theorem resetInputResets : Obligations.ResetInputResets := fun s => ⟨resetBlock s, rfl, rfl⟩

end Sys2Proof.Machine
end

section
/-! A command that succeeded, issued again (47_control_commands.md R236). Success tells that the checks of the command passed; they
pass in the state it left as well, since no command writes what it reads, and the same output is written once more. -/

namespace Sys2Proof.Machine

/-! ## What success tells (R141, R171, R181, R221) -/

/-- A result with DONE = 1 is no fault entry. -/
theorem ne_raise_of_done {r : Result} {t u : State} {k : ErrKind} {info : Word} {out : Option BufId} (h : r = .next t)
    (hd : t.status.done = true) : r ≠ .next (raise k info out u) := by
  rintro rfl
  cases h
  exact not_done_raise _ _ _ _ hd

section
variable {s t : State} (hs : s.status.halt = false) (hd : t.status.done = true)
include hs hd

theorem bitxChecks_of_done (h : exec .bitx s = .next t) :
    ∃ bytes, inputBytes s = some bytes ∧ 8 * s.byteLen.toNat ≤ s.caps.bits.val := by
  cases hin : inputBytes s with
  | none => exact absurd (exec_bitx_of_no_input hs hin) (ne_raise_of_done h hd)
  | some bytes => exact ⟨bytes, rfl, not_lt.mp fun hc => ne_raise_of_done h hd (exec_bitx_of_no_room hs hin hc)⟩

theorem wavwrChecks_of_done (h : exec .wavwr s = .next t) :
    ∃ samples, inputSamples s = some samples ∧ 44 + 2 * s.sampLen.toNat ≤ s.caps.file.val := by
  cases hin : inputSamples s with
  | none => exact absurd (exec_wavwr_of_no_input hs hin) (ne_raise_of_done h hd)
  | some samples => exact ⟨samples, rfl, not_lt.mp fun hc => ne_raise_of_done h hd (exec_wavwr_of_no_room hs hin hc)⟩

theorem packChecks_of_done (h : exec .pack s = .next t) :
    ∃ bits, inputBits s = some bits ∧ ceil8 s.bitLen.toNat ≤ s.caps.bytes.val := by
  cases hin : inputBits s with
  | none => exact absurd (exec_pack_of_no_input hs hin) (ne_raise_of_done h hd)
  | some bits => exact ⟨bits, rfl, not_lt.mp fun hc => ne_raise_of_done h hd (exec_pack_of_no_room hs hin hc)⟩

theorem wavrdChecks_of_done (h : exec .wavrd s = .next t) :
    ∃ image, inputFile s = some image ∧ 44 ≤ s.fileLen.toNat ∧ 0 < memRead image 40 4 ∧ memRead image 40 4 < 2 ^ 31 ∧
      memRead image 40 4 / 2 ≤ s.caps.samples.val ∧ 44 + 2 * (memRead image 40 4 / 2) ≤ s.fileLen.toNat := by
  cases hin : inputFile s with
  | none => exact absurd (exec_wavrd_of_no_input hs hin) (ne_raise_of_done h hd)
  | some image =>
    have hne {k info} (he : wavrdEnd (setDone false s) image = raise k info (some .samp) (setDone false s)) : False :=
      ne_raise_of_done h hd ((exec_wavrd_of_input hs hin).trans (congrArg _ he))
    have h44 : 44 ≤ s.fileLen.toNat := not_lt.mp fun hc => hne (wavrdEnd_of_short_header hc)
    have hsize : ¬ (memRead image 40 4 = 0 ∨ 2 ^ 31 ≤ memRead image 40 4) := fun hc =>
      hne (wavrdEnd_of_size_not_positive h44 hc)
    have hpos : 0 < memRead image 40 4 := by omega
    have hlt : memRead image 40 4 < 2 ^ 31 := by omega
    have hroom : memRead image 40 4 / 2 ≤ s.caps.samples.val := not_lt.mp fun hc =>
      hne (wavrdEnd_of_no_room h44 hpos hlt hc)
    exact ⟨image, rfl, h44, hpos, hlt, hroom, not_lt.mp fun hc =>
      hne (wavrdEnd_of_short_payload h44 hpos hlt hroom hc)⟩

end

/-! ## The command issued again (R236) -/

theorem putFile_again (image : List Byte) (s : State) :
    putFile image (setDone false (putFile image s)) = putFile image s := rfl

theorem exec_nop_again {s t : State} (hs : s.status.halt = false) (h : exec .nop s = .next t) : exec .nop t = .next t := by
  cases h.symm.trans (exec_nop_eq hs)
  exact exec_nop_eq (s := setDone true s) hs

/-- MOD past its checks, by the samples that its numbers are. -/
theorem exec_mod_of_samples {s : State} {bits : List Bit} {vs : List Sample} (hs : s.status.halt = false)
    (hin : inputBits s = some bits) (hp : ParametersOk s) (hc : s.bitLen.toNat * period s ≤ s.caps.samples.val)
    (hvs : samplesOfInts (modulatedValues s.fs.toNat s.f0.toNat (period s) 0 bits) = some vs) :
    exec .mod s = .next (putSamples vs { setDone false s with ns := BitVec.ofNat 32 (period s) }) := by
  simp [exec, execMod, issue_running _ hs, hin, (symbolPeriod_eq_some_iff s _).mpr ⟨hp, rfl⟩, hc, hvs]

section
variable {s t : State} (hs : s.status.halt = false) (hd : t.status.done = true)
include hs hd

theorem exec_bitx_again (h : exec .bitx s = .next t) : exec .bitx t = .next t := by
  obtain ⟨bytes, hin, hc⟩ := bitxChecks_of_done hs hd h
  cases h.symm.trans (exec_bitx_eq hs hin hc)
  exact exec_bitx_eq (s := putBits _ _) hs hin hc

theorem exec_mod_again (h : exec .mod s = .next t) : exec .mod t = .next t := by
  obtain ⟨bits, hin, hp, hc⟩ := modChecks_of_done hs (congrFun₂ execWith_ideal .mod s |>.trans h) hd
  obtain ⟨vs, hvs, -⟩ := samplesOfInts_modulatedValues hp.pos.1 s.f0.toNat (period s) bits
  cases h.symm.trans (exec_mod_of_samples hs hin hp hc hvs)
  exact exec_mod_of_samples (s := putSamples _ _) hs hin hp hc hvs

theorem exec_wavwr_again (h : exec .wavwr s = .next t) : exec .wavwr t = .next t := by
  obtain ⟨samples, hin, hc⟩ := wavwrChecks_of_done hs hd h
  cases h.symm.trans (exec_wavwr_containerOf hs hin hc)
  have he := exec_wavwr_containerOf (s := putFile (containerOf s.fs samples) (setDone false s)) hs hin hc
  rwa [putFile_fs, setDone_fs, putFile_again] at he

theorem exec_wavrd_again (h : exec .wavrd s = .next t) : exec .wavrd t = .next t := by
  obtain ⟨image, hin, h44, hpos, hlt, hc, hl⟩ := wavrdChecks_of_done hs hd h
  cases h.symm.trans (exec_wavrd_eq hs hin h44 hpos hlt hc hl)
  exact exec_wavrd_eq (s := putSamples _ _) hs hin h44 hpos hlt hc hl

theorem exec_demod_again (h : exec .demod s = .next t) : exec .demod t = .next t := by
  obtain ⟨samples, hin, hp, hc⟩ := demodChecks_of_done hs h hd
  cases h.symm.trans (exec_demod_eq hs hin hp hc)
  exact exec_demod_eq (s := putBits _ _) hs hin hp hc

theorem exec_pack_again (h : exec .pack s = .next t) : exec .pack t = .next t := by
  obtain ⟨bits, hin, hc⟩ := packChecks_of_done hs hd h
  cases h.symm.trans (exec_pack_eq hs hin hc)
  exact exec_pack_eq (s := putBytes _ _) hs hin hc

end

/-- Settles O12: the equation of a command's completion holds of the first state, and of the state that completion left. -/
theorem reissueChangesNothing : Obligations.ReissueChangesNothing := by
  intro i s t hs h hd
  cases i with
  | nop => exact exec_nop_again hs h
  | bitx => exact exec_bitx_again hs hd h
  | mod => exact exec_mod_again hs hd h
  | wavwr => exact exec_wavwr_again hs hd h
  | wavrd => exact exec_wavrd_again hs hd h
  | demod => exact exec_demod_again hs hd h
  | pack => exact exec_pack_again hs hd h

end Sys2Proof.Machine
end

section
/-! The pseudo-commands (47_control_commands.md R238 to R241): the stop rule, and the lengths they end with. -/

namespace Sys2Proof.Machine

/-! ## The stop rule (R241, R231) -/

theorem issueAll_halted (is : List Instr) {s : State} (hs : s.status.halt = true) : issueAll is s = .next s := by
  induction is with
  | nil => rfl
  | cons i is ih => rw [issueAll, exec_halted i hs]; exact ih

theorem issueUntilFault_eq_issueAll (is : List Instr) (s : State) : issueUntilFault is s = issueAll is s := by
  induction is generalizing s with
  | nil => rfl
  | cons i is ih =>
    obtain ⟨t, ht⟩ := exec_next i s
    rw [issueUntilFault, issueAll, ht]
    dsimp only
    split
    · next hh => exact (issueAll_halted is hh).symm
    · exact ih t

/-- Settles O39: after a fault the block is halted and ignores the commands that are left. -/
theorem stopRuleIsEnforcedByTheBlock : Obligations.StopRuleIsEnforcedByTheBlock := fun p s =>
  issueUntilFault_eq_issueAll (pseudoCommands p) s

/-! ## The lengths (R238 to R240) -/

/-- A length register holds every length within a capacity. -/
theorem toNat_ofNat_of_le_capacity {n : Nat} (c : Capacities) (x : BufId) (h : n ≤ capacity c x) :
    (BitVec.ofNat 32 n).toNat = n := by
  rw [BitVec.toNat_ofNat, Nat.mod_eq_of_lt (h.trans_lt (capacity_lt c x))]

/-- BITX and MOD leave `8 * BYTE_LEN * Ns` samples to the commands after them. -/
theorem issueUntilFault_bitx_mod_length {s : State} (hs : s.status.halt = false) (hready : InputReady .byte s)
    (hp : ParametersOk s) (hbits : 8 * s.byteLen.toNat ≤ s.caps.bits.val)
    (hroom : 8 * s.byteLen.toNat * period s ≤ s.caps.samples.val) (is : List Instr) :
    ∃ samples u, issueUntilFault (.bitx :: .mod :: is) s = issueUntilFault is (putSamples samples u) ∧
      SameParameters s u ∧ samples.length = 8 * s.byteLen.toNat * period s := by
  obtain ⟨bytes, hin, hlen, -⟩ := inputBytes_of_ready hready
  obtain ⟨samples, u, he, hu, hm⟩ := issueUntilFault_bitx_mod hin hp hbits hroom hs is
  exact ⟨samples, u, he, hu, by rw [hm.length, bitsOfBytes_length, hlen]⟩

/-- Settles O40: MODULATE ends where BITX and MOD have left their samples. -/
theorem modulateLength : Obligations.ModulateLength := by
  intro s hs hready hp hbits hroom
  obtain ⟨samples, u, he, -, hlen⟩ := issueUntilFault_bitx_mod_length hs hready hp hbits hroom []
  refine ⟨_, he, rfl, rfl, ?_⟩
  rw [putSamples_sampLen, toNat_ofNat_of_le_capacity s.caps .samp (hlen.trans_le hroom), hlen]

/-- Settles O41: DEMOD leaves a bit per window, and PACK packs them. -/
theorem demodulateLength : Obligations.DemodulateLength := by
  intro s hs hready hp hbits (hbytes : ceil8 (s.sampLen.toNat / period s) ≤ s.caps.bytes.val)
  obtain ⟨samples, hin, -⟩ := inputSamples_of_ready hready
  have hlen := demodulatedBits_length s.fs.toNat s.f0.toNat (period s) (s.sampLen.toNat / period s) 0 samples
  have hpack := exec_pack_putBits (s := { setDone false s with ns := BitVec.ofNat 32 (period s) }) hs
    (hlen.trans_lt (windowCount_lt s)) (hlen.symm ▸ hbytes)
  refine ⟨_, issueUntilFault_pair (exec_demod_eq hs hin hp hbits) hs hpack, rfl, rfl, ?_⟩
  rw [putBytes_byteLen, packBits_length, hlen, toNat_ofNat_of_le_capacity s.caps .byte hbytes, ceil8]

/-- Settles O42: WAVWR writes the image of the samples BITX and MOD have left. -/
theorem encodeLength : Obligations.EncodeLength := by
  intro s hs hready hp hbits hroom hfile
  obtain ⟨samples, u, he, hu, hlen⟩ := issueUntilFault_bitx_mod_length hs hready hp hbits hroom [.wavwr]
  have himage : (containerOf u.fs samples).length = 44 + 16 * s.byteLen.toNat * period s := by
    rw [containerOf_length, hlen, ← Nat.mul_assoc, ← Nat.mul_assoc]
  have hin := inputSamples_putSamples samples u ((hlen.trans_le hroom).trans_lt (capacity_lt s.caps .samp))
  have hfits : 44 + 2 * (putSamples samples u).sampLen.toNat ≤ u.caps.file.val := by
    rw [← (inputSamples_spec hin).1, ← containerOf_length u.fs samples, himage, hu.caps]
    exact hfile
  have hwrite := exec_wavwr_containerOf (s := putSamples samples u) hu.running hin hfits
  have hend : issueUntilFault [.wavwr] (putSamples samples u)
      = .next (putFile (containerOf u.fs samples) (setDone false (putSamples samples u))) :=
    issueUntilFault_cons hwrite hu.running
  refine ⟨_, he.trans hend, rfl, rfl, ?_⟩
  rw [putFile_fileLen, himage, toNat_ofNat_of_le_capacity s.caps .file hfile]

end Sys2Proof.Machine
end
